-- ==== Sys2Proof/Word.lean ====
section
/-! DEFINITION. The word types of the core (00_scope.md R5: fixed widths). -/

namespace Sys2Proof

/-- One byte of configuration space (R32). -/
abbrev Byte := BitVec 8

/-- A 16-bit device register or immediate (R34 to R43, R101). -/
abbrev Half := BitVec 16

/-- A 32-bit word: CMD, STATUS, ERRADDR, V, one port answer (R20, R29, R62). -/
abbrev Word := BitVec 32

/-- A 64-bit operand or result register (R20). -/
abbrev Quad := BitVec 64

end Sys2Proof
end

