-- ==== Sys2Proof/Config.lean ====
section
/-! DEFINITION. What a model of the core takes as given: the parameters of 00_scope.md R5, the vocabulary of the
Register Access Port (20_memory.md R62), and the free values of the port and of the time source. -/

namespace Sys2Proof

/-- Why a port transaction failed (10_state.md R25, 20_memory.md R62). -/
inductive IoKind where
  | resourceNotFound
  | permissionDenied
  | ioError
  deriving DecidableEq, Repr, Inhabited

/-- What the port does with one transaction (R62). `ok` answers it. `fail kind left` fails it; for a write, byte `j` of
the range ends as `left[j]`, and a byte past the end of `left` is as it was (R70: any value). `silent` leaves it
unanswered for this step (R303). -/
inductive Reply where
  | ok
  | fail (kind : IoKind) (left : List Byte)
  | silent
  deriving DecidableEq, Repr, Inhabited

/-- One event of the port: the byte changes the device and other agents made to the configuration space since the core's
last transaction (R32, R72, R75), then the answer. -/
structure PortEvent where
  others : List Host.Cell
  reply : Reply
  deriving DecidableEq, Repr, Inhabited

/-- The event of the ideal port (R80): nobody else touches the bytes and the transaction succeeds. -/
def PortEvent.quiet : PortEvent := { others := [], reply := .ok }

/-- Parameter `P_EXT_NEXT_ALIGN` (R5, R169). -/
inductive NextAlign where
  | fault
  | mask
  | stop
  deriving DecidableEq, Repr

/-- Parameters `P_RETRAIN_CLEAR` and `P_HOTRESET_CLEAR` (R5, R194, R200). -/
inductive ClearMode where
  | reread
  | reuse
  deriving DecidableEq, Repr

/-- Parameter `P_EXT_TRIP` (R5) as plain data: an expression for a total function of the size `cs`, on the natural
numbers; `sub` stops at 0, `div` rounds down and gives 0 for a divisor of 0. Its value is
`Sys2Proof.Machine.extTripLimit`; every legal function is the value of one (log 7). -/
inductive ExtTrip where
  /-- the size `cs` -/
  | size
  | lit (n : Nat)
  | add (a b : ExtTrip)
  | sub (a b : ExtTrip)
  | mul (a b : ExtTrip)
  | div (a b : ExtTrip)
  /-- `x` where `a < b`, else `y` -/
  | ifLt (a b x y : ExtTrip)
  deriving DecidableEq, Repr

/-- The default of `P_EXT_TRIP` (R5), `floor((cs - 256) / 8)` before the `max` with 1 that `extTripLimit` takes. -/
def ExtTrip.formula : ExtTrip := .div (.sub .size (.lit 256)) (.lit 8)

/-- A duration of `num / den` seconds, for parameter `P_TU` (R5: any positive duration). -/
structure Duration where
  num : Nat
  den : Nat
  deriving DecidableEq, Repr

/-- The implementation parameters of R5. -/
structure Params where
  /-- `P_STD_TRIP_LIMIT` -/
  stdTripLimit : Nat
  /-- `P_EXT_TRIP(cs)` -/
  extTrip : ExtTrip
  /-- `P_EXT_NEXT_ALIGN` -/
  extNextAlign : NextAlign
  /-- `P_RETRAIN_CLEAR` -/
  retrainClear : ClearMode
  /-- `P_HOTRESET_CLEAR` -/
  hotResetClear : ClearMode
  /-- `P_TU`, the unit of `NOW`, of the timeouts and of the delays -/
  timeUnit : Duration
  /-- `P_PCIE_CAP_ID` -/
  pcieCapId : Byte
  deriving DecidableEq, Repr

/-- The defaults of R5. -/
def Params.default : Params :=
  { stdTripLimit := 48, extTrip := .formula, extNextAlign := .fault, retrainClear := .reread,
    hotResetClear := .reread, timeUnit := { num := 1, den := 1000000 }, pcieCapId := 0x10#8 }

/-- Free value (DESIGN CHOICE, log 3): what the port of event number `n` does, when nothing in the state chooses it.
The port is an oracle constrained by no rule (R72). -/
opaque Config.portEvent : Nat → PortEvent

/-- Free value (DESIGN CHOICE, log 6): how far `NOW` has advanced before sample number `n`, when nothing in the state
chooses it. `NOW` never decreases (R33). -/
opaque Config.timeAdvance : Nat → Nat

end Sys2Proof
end

