-- ==== Sys2Proof/Syntax.lean ====
section
/-! DEFINITION. The twelve commands (30_encoding.md R104), one constructor per row of opcode_table.json. -/

namespace Sys2Proof

/-- An access width of 1, 2, 4 or 8 bytes (R102: width codes 0 to 3). -/
inductive Width where
  | w1
  | w2
  | w4
  | w8
  deriving DecidableEq, Repr

/-- The kind of the speed operand (R103: K = 0 ByCode, K = 1 BySpeed). -/
inductive SpeedKind where
  | byCode
  | bySpeed
  deriving DecidableEq, Repr

/-- A command with the operands its CMD word carries (R101, R103). The operands of OPA and OPB (R107) are read from the
latched registers when the command runs. -/
inductive Instr where
  /-- CFG_READ (R140): width `n`, offset `off`. -/
  | cfgRead (n : Width) (off : Half)
  /-- CFG_WRITE (R141): width `n`, offset `off`; the value is L_OPA. -/
  | cfgWrite (n : Width) (off : Half)
  /-- FIND_STD_CAP (R166): the capability ID is `imm[7:0]`, and `imm[15:8]` must be 0. -/
  | findStdCap (imm : Half)
  /-- FIND_EXT_CAP (R168): the capability ID is `imm`; the configuration-space size is L_OPA. -/
  | findExtCap (imm : Half)
  /-- LINK_ENABLE (R192). -/
  | linkEnable
  /-- LINK_DISABLE (R193). -/
  | linkDisable
  /-- LINK_RETRAIN (R194): `f` is clearAfter. -/
  | linkRetrain (f : Bool)
  /-- LINK_SET_TARGET_SPEED (R196): `k` says how L_OPA gives the speed, `f` is retrain. -/
  | linkSetTargetSpeed (k : SpeedKind) (f : Bool)
  /-- LINK_READ_STATUS (R198). -/
  | linkReadStatus
  /-- LINK_WAIT_FOR_TRAINING (R199): timeout in L_OPA, poll interval in L_OPB. -/
  | linkWaitForTraining
  /-- HOT_RESET (R200): the delay is L_OPA. -/
  | hotReset
  /-- LINK_SET_CONTROL_BITS (R201): `f` is enable, `imm` the mask. -/
  | linkSetControlBits (f : Bool) (imm : Half)
  deriving DecidableEq, Repr

end Sys2Proof
end

