-- ==== Sys2Proof/Machine/State.lean ====
section
/-! DEFINITION. The state of the core and of what it is connected to (10_state.md), the reasons a step can stop, and the
state after reset (R45). Plain data throughout. -/

namespace Sys2Proof.Machine

/-- Bytes of configuration space by offset: addresses strictly rising, no entry equal to `Memory.unlisted`. -/
abbrev Memory := List Host.Cell

/-- What an offset with no entry holds (DESIGN CHOICE, log 2): 0, the convention of 95_test_vectors.md section 0. -/
abbrev Memory.unlisted : Byte := 0#8

/-- Completion codes (R24). -/
inductive Code where
  | ok
  | notFound
  | alignmentViolation
  | valueOutOfRange
  | unsupportedOperation
  | ioFailure
  | illegalCommand
  deriving DecidableEq, Repr

/-- An error with the information it records (R251, R252). -/
inductive Err where
  | alignmentViolation (off : Nat)
  | valueOutOfRange
  | unsupportedOperation
  | ioFailure (kind : IoKind) (off : Nat)
  | illegalCommand
  deriving DecidableEq, Repr

/-- How a command ends: `finish(OK, res, res2)`, `finish(NOT_FOUND, 0, 0)` (R250), or `raise E(info)` (R251). -/
inductive Completion where
  | finishOk (res res2 : Quad)
  | finishNotFound
  | raised (e : Err)
  deriving DecidableEq, Repr

/-- The steps of one `FindStd` (R160), by the read that comes next. -/
inductive WalkPoint where
  /-- the Status register, 0x06 -/
  | status
  /-- the Header Type, 0x0E -/
  | header
  /-- the capability pointer, at `pp` -/
  | pointer (pp : Nat)
  /-- the entry at CUR -/
  | entry
  deriving DecidableEq, Repr

/-- Which `FindPcie` (or `FindStd`) of the command runs: its own, or the one of the nested retrain (R196). -/
inductive Site where
  | main
  | retrain
  deriving DecidableEq, Repr

/-- Position in the running command's pseudocode (R30): the step that comes next. -/
inductive Point where
  /-- the start of decoding (R21, R105) -/
  | start
  /-- inside a standard walk (R160) -/
  | walk (site : Site) (w : WalkPoint)
  /-- the extended header at CUR (R167) -/
  | extEntry
  /-- the high half of an 8-byte CFG_READ, the low half being `lo` (R67) -/
  | readHigh (lo : Word)
  /-- the high half of an 8-byte CFG_WRITE (R68) -/
  | writeHigh
  /-- the PCI Express Capabilities register (R196) -/
  | version
  /-- the read of LC2 (R196) -/
  | speedRead
  /-- the write of LC2 (R196) -/
  | speedWrite
  /-- step 1 of the command's first `RMW16` (R82) -/
  | rmwRead
  /-- step 2 of the command's first `RMW16` (R82) -/
  | rmwWrite
  /-- the read of a clearing `RMW16` (R194, R200, REREAD) -/
  | clearRead
  /-- the clearing write (R194, R200) -/
  | clearWrite
  /-- the read of Link Status (R198, R199) -/
  | statusRead
  /-- the sample of NOW against DEADLINE (R199) -/
  | deadlineCheck
  /-- the sample that begins a `Sleep` (R83) -/
  | sleepStart
  /-- the completion (R250, R251) -/
  | complete (c : Completion)
  deriving DecidableEq, Repr

/-- SEQ with the program point (R29, R30). -/
inductive Seq where
  | idle
  | run (p : Point)
  /-- `SLEEP(wake)`, to resume at `p` -/
  | sleep (wake : Nat) (p : Point)
  deriving DecidableEq, Repr

/-- A port transaction (R62): `n` bytes at `off`. -/
inductive Transaction where
  | read (off n : Nat)
  | write (off n : Nat) (v : Word)
  deriving DecidableEq, Repr

/-- How the port answered a transaction (R62); `pending` while it has not. -/
inductive Answer where
  | ok (v : Word)
  | fail (kind : IoKind)
  | pending
  deriving DecidableEq, Repr

/-- One entry of the observable record (R271, R294). -/
inductive Event where
  | transaction (t : Transaction) (a : Answer)
  | now (t : Nat)
  | wake (t : Nat)
  | completion (c : Completion)
  | hostRead (reg : Nat) (x : Quad)
  deriving DecidableEq, Repr

/-- Where answers come from once the chosen ones are used up. -/
inductive Tail where
  /-- the port of R80; the clock of 95_test_vectors.md section 2.5 -/
  | ideal
  /-- the free values of Config (R72, R33) -/
  | free
  deriving DecidableEq, Repr

/-- The port's future: chosen events, then `tail`; `drawn` counts the free events used. -/
structure Port where
  script : List PortEvent
  tail : Tail
  drawn : Nat
  deriving DecidableEq, Repr

/-- The time source's future: chosen advances of NOW, one per sample, then `tail`; `drawn` counts the free ones used. -/
structure Clock where
  script : List Nat
  tail : Tail
  drawn : Nat
  deriving DecidableEq, Repr

/-- One action of the host's schedule. -/
inductive HostAct where
  /-- the host lets the sequencer take one turn -/
  | pass
  /-- the host waits until STATUS.DONE reads 1 (R292 step 6) -/
  | awaitDone
  /-- a write of register number `reg` (R20) -/
  | write (reg : Nat) (value : Quad)
  /-- a read of register number `reg` (R20, R28) -/
  | read (reg : Nat)
  /-- reset is asserted (R290); `left` is what an abandoned write leaves in its bytes -/
  | reset (left : List Byte)
  deriving DecidableEq, Repr

/-- The machine: the core's registers and sequencer, the configuration space, time, the parameters, and the schedules
of the agents outside the core. -/
structure State where
  /-- STATUS (R23) -/
  status : Word
  /-- OPA (R20) -/
  opa : Quad
  /-- OPB (R20) -/
  opb : Quad
  /-- RES (R26) -/
  res : Quad
  /-- RES2 (R26) -/
  res2 : Quad
  /-- ERRADDR (R27) -/
  errAddr : Word
  /-- SEQ and the program point (R30) -/
  seq : Seq
  /-- L_CMD (R29) -/
  lCmd : Word
  /-- L_OPA (R29) -/
  lOpa : Quad
  /-- L_OPB (R29) -/
  lOpb : Quad
  /-- CUR (R29) -/
  cur : Nat
  /-- TRIP (R29) -/
  trip : Nat
  /-- BASE (R29) -/
  base : Nat
  /-- V (R29) -/
  v : Word
  /-- DEADLINE (R29) -/
  deadline : Nat
  /-- CS, the configuration space of the bound device (R32) -/
  cs : Memory
  /-- NOW, the time source's present value (R33) -/
  now : Nat
  /-- the transaction issued and not yet answered (R75, R290, R303) -/
  inFlight : Option Transaction
  /-- the parameters (R5) -/
  params : Params
  /-- the model's own: the port's future (log 3) -/
  port : Port
  /-- the model's own: the time source's future (log 6) -/
  clock : Clock
  /-- the model's own: the host's upcoming actions (log 9) -/
  host : List HostAct
  /-- the model's own: what could be observed so far, newest first (log 11) -/
  log : List Event
  deriving DecidableEq, Repr

/-- Why the model stops. -/
inductive Fault where
  /-- Raised by a meaning asked to take a step while SEQ is IDLE. `step` never asks it. Safe. -/
  | noCommand
  /-- Raised by a meaning at a program point that is not one of its pseudocode's. No step from reset reaches it. Safe. -/
  | offProgram
  deriving DecidableEq, Repr

/-- What the model refuses. -/
inductive Refusal where
  /-- Raised by `exec` for an instruction without a meaning; no arm of this model uses it. Safe. -/
  | notModelled (mnemonic : String)
  /-- Raised by `step` when a parameter is outside its legal values (R6). Safe: the spec refuses it too. -/
  | malformedParameters
  deriving DecidableEq, Repr

/-- The machine right after reset (R45, R290). The internal registers hold 0 (DESIGN CHOICE, log 1); what reset does not
touch stands at values of the model's (DESIGN CHOICE, log 2, 3, 6, 7, 9). -/
def State.reset : State :=
  { status := 0#32, opa := 0#64, opb := 0#64, res := 0#64, res2 := 0#64, errAddr := 0#32,
    seq := .idle, lCmd := 0#32, lOpa := 0#64, lOpb := 0#64,
    cur := 0, trip := 0, base := 0, v := 0#32, deadline := 0,
    cs := [], now := 0, inFlight := none,
    params := Params.default,
    port := { script := [], tail := .free, drawn := 0 },
    clock := { script := [], tail := .free, drawn := 0 },
    host := [], log := [] }

end Sys2Proof.Machine
end

