-- ==== Sys2Proof/Machine/Flags.lean ====
section
/-! DEFINITION. The STATUS register: its fields (10_state.md R23), the numbers of the completion codes (R24) and of the
I/O failure kinds (R25). -/

namespace Sys2Proof.Machine

/-- STATUS.CODE of a completion code (R24). -/
def Code.bits : Code → BitVec 4
  | .ok => 0#4
  | .notFound => 1#4
  | .alignmentViolation => 2#4
  | .valueOutOfRange => 3#4
  | .unsupportedOperation => 4#4
  | .ioFailure => 5#4
  | .illegalCommand => 6#4

/-- STATUS.IOKIND of a failure kind (R25); 0 is NONE. -/
def ioKindBits : Option IoKind → BitVec 2
  | none => 0#2
  | some .resourceNotFound => 1#2
  | some .permissionDenied => 2#2
  | some .ioError => 3#2

/-- A STATUS word from its fields (R23); bits 3 and [31:10] are 0. -/
def statusWord (busy done pf : Bool) (code : BitVec 4) (kind : BitVec 2) : Word :=
  0#22 ++ kind ++ code ++ 0#1 ++ BitVec.ofBool pf ++ BitVec.ofBool done ++ BitVec.ofBool busy

/-- BUSY, bit 0 (R23). -/
def statusBusy (w : Word) : Bool := w.getLsbD 0

/-- DONE, bit 1 (R23). -/
def statusDone (w : Word) : Bool := w.getLsbD 1

/-- PF, bit 2 (R23). -/
def statusPf (w : Word) : Bool := w.getLsbD 2

/-- CODE, bits [7:4] (R23). -/
def statusCode (w : Word) : BitVec 4 := w.extractLsb' 4 4

/-- IOKIND, bits [9:8] (R23). -/
def statusKind (w : Word) : BitVec 2 := w.extractLsb' 8 2

/-- The bits of STATUS that are not reserved (R23): bit 3 and bits [31:10] read 0. -/
def statusMask : Word := 0x000003F7#32

/-- The code an error completes with (R252). -/
def Err.code : Err → Code
  | .alignmentViolation _ => .alignmentViolation
  | .valueOutOfRange => .valueOutOfRange
  | .unsupportedOperation => .unsupportedOperation
  | .ioFailure _ _ => .ioFailure
  | .illegalCommand => .illegalCommand

/-- The failure kind an error records (R251): IO_FAILURE's, otherwise none. -/
def Err.kind : Err → Option IoKind
  | .ioFailure k _ => some k
  | _ => none

/-- The offset an error records (R27, R251), otherwise 0. -/
def Err.addr : Err → Nat
  | .alignmentViolation off => off
  | .ioFailure _ off => off
  | _ => 0

/-- STATUS.CODE of a completion (R250, R251). -/
def Completion.code : Completion → Code
  | .finishOk _ _ => .ok
  | .finishNotFound => .notFound
  | .raised e => e.code

/-- The failure kind of a completion (R250, R251). -/
def Completion.kind : Completion → Option IoKind
  | .raised e => e.kind
  | _ => none

/-- RES of a completion (R26, R250, R251). -/
def Completion.res : Completion → Quad
  | .finishOk r _ => r
  | _ => 0#64

/-- RES2 of a completion (R26, R250, R251). -/
def Completion.res2 : Completion → Quad
  | .finishOk _ r => r
  | _ => 0#64

/-- The offset a completion records in ERRADDR (R27). -/
def Completion.addr : Completion → Nat
  | .raised e => e.addr
  | _ => 0

/-- STATUS after a completion (R250, R251): BUSY = 0, DONE = 1, PF as it was. -/
def completedStatus (old : Word) (c : Completion) : Word :=
  statusWord false true (statusPf old) c.code.bits (ioKindBits c.kind)

/-- STATUS after an issue (R21): BUSY = 1, the rest 0 but PF, which is not changed. -/
def issuedStatus (old : Word) : Word := statusWord true false (statusPf old) 0#4 0#2

/-- STATUS after a CMD write while BUSY (R259): PF set, nothing else changed. -/
def protocolFaultStatus (old : Word) : Word := old ||| 0x00000004#32

end Sys2Proof.Machine
end

