-- ==== Sys2Proof/WellFormed.lean ====
section
/-! DEFINITION. Which commands have an encoding (30_encoding.md R103, R106). Widths, flags and 16-bit immediates fit
their fields by their types; the one check left is FIND_STD_CAP's upper immediate byte. -/

namespace Sys2Proof

/-- The command has a CMD word: FIND_STD_CAP's `IMM[15:8]` must be 0 (R103, R106). -/
def Instr.wellFormed : Instr → Bool
  | .cfgRead _ _ => true
  | .cfgWrite _ _ => true
  | .findStdCap imm => imm.extractLsb' 8 8 == 0#8
  | .findExtCap _ => true
  | .linkEnable => true
  | .linkDisable => true
  | .linkRetrain _ => true
  | .linkSetTargetSpeed _ _ => true
  | .linkReadStatus => true
  | .linkWaitForTraining => true
  | .hotReset => true
  | .linkSetControlBits _ _ => true

end Sys2Proof
end

