-- ==== Sys2Proof/Decode.lean ====
section
/-! DEFINITION. The CMD32 format: fields (30_encoding.md R101, R102), the opcode map (R104), decoding (R105, R106) and
the encoder (R101, R109). -/

namespace Sys2Proof

/-- Width code of R102: `W = 0, 1, 2, 3` selects 1, 2, 4, 8 bytes. -/
def Width.ofCode (c : BitVec 2) : Width :=
  if c = 0#2 then .w1 else if c = 1#2 then .w2 else if c = 2#2 then .w4 else .w8

/-- The code of a width (R102). -/
def Width.code : Width → BitVec 2
  | .w1 => 0#2
  | .w2 => 1#2
  | .w4 => 2#2
  | .w8 => 3#2

/-- Speed kind of K (R103). -/
def SpeedKind.ofBit (k : Bool) : SpeedKind := if k then .bySpeed else .byCode

/-- K of a speed kind (R103). -/
def SpeedKind.bit : SpeedKind → Bool
  | .byCode => false
  | .bySpeed => true

/-- OP, bits [4:0] (R101). -/
def fieldOp (w : Word) : BitVec 5 := w.extractLsb' 0 5

/-- W, bits [6:5] (R101). -/
def fieldW (w : Word) : BitVec 2 := w.extractLsb' 5 2

/-- F, bit 7 (R101). -/
def fieldF (w : Word) : Bool := w.getLsbD 7

/-- K, bit 8 (R101). -/
def fieldK (w : Word) : Bool := w.getLsbD 8

/-- IMM, bits [31:16] (R101). -/
def fieldImm (w : Word) : Half := w.extractLsb' 16 16

/-- A row of the opcode map (R104): a word `w` selects it where `w & mask = pattern`; `read` takes its operands. -/
structure OpcodeRow where
  mnemonic : String
  pattern : Word
  mask : Word
  read : Word → Instr

/-- Does the word select the row (R104)? -/
def OpcodeRow.selects (r : OpcodeRow) (w : Word) : Bool := w &&& r.mask == r.pattern

/-- The opcode map of R104, row by row. -/
def opcodeMap : List OpcodeRow :=
  [ ⟨"CFG_READ", 0x00000001#32, 0x0000FF9F#32, fun w => .cfgRead (.ofCode (fieldW w)) (fieldImm w)⟩,
    ⟨"CFG_WRITE", 0x00000002#32, 0x0000FF9F#32, fun w => .cfgWrite (.ofCode (fieldW w)) (fieldImm w)⟩,
    ⟨"FIND_STD_CAP", 0x00000003#32, 0xFF00FFFF#32, fun w => .findStdCap (fieldImm w)⟩,
    ⟨"FIND_EXT_CAP", 0x00000004#32, 0x0000FFFF#32, fun w => .findExtCap (fieldImm w)⟩,
    ⟨"LINK_ENABLE", 0x00000005#32, 0xFFFFFFFF#32, fun _ => .linkEnable⟩,
    ⟨"LINK_DISABLE", 0x00000006#32, 0xFFFFFFFF#32, fun _ => .linkDisable⟩,
    ⟨"LINK_RETRAIN", 0x00000007#32, 0xFFFFFF7F#32, fun w => .linkRetrain (fieldF w)⟩,
    ⟨"LINK_SET_TARGET_SPEED", 0x00000008#32, 0xFFFFFE7F#32,
      fun w => .linkSetTargetSpeed (.ofBit (fieldK w)) (fieldF w)⟩,
    ⟨"LINK_READ_STATUS", 0x00000009#32, 0xFFFFFFFF#32, fun _ => .linkReadStatus⟩,
    ⟨"LINK_WAIT_FOR_TRAINING", 0x0000000A#32, 0xFFFFFFFF#32, fun _ => .linkWaitForTraining⟩,
    ⟨"HOT_RESET", 0x0000000B#32, 0xFFFFFFFF#32, fun _ => .hotReset⟩,
    ⟨"LINK_SET_CONTROL_BITS", 0x0000000C#32, 0x0000FF7F#32,
      fun w => .linkSetControlBits (fieldF w) (fieldImm w)⟩ ]

/-- Why a word is illegal (R106). Either way the command completes ILLEGAL_COMMAND. -/
inductive Illegal where
  /-- OP is 0x00 or 0x0D to 0x1F. -/
  | reservedOpcode
  /-- A bit is set that the command needs to be 0: RSV, or a W, F, K or IMM bit it does not use. -/
  | unusedBitSet
  deriving DecidableEq, Repr

/-- Decoding (R105): the first row the word selects, or the reason it is illegal (R106). Total on any word. -/
def decode (w : Word) : Except Illegal Instr :=
  match opcodeMap.find? (fun r => r.selects w) with
  | some r => .ok (r.read w)
  | none => if fieldOp w = 0#5 ∨ 0x0D#5 ≤ fieldOp w then .error .reservedOpcode else .error .unusedBitSet

/-- A CMD32 word from its fields (R101): IMM, RSV = 0, K, F, W, OP, from the top down. -/
def cmd32 (op : BitVec 5) (w : BitVec 2) (f k : Bool) (imm : Half) : Word :=
  imm ++ 0#7 ++ BitVec.ofBool k ++ BitVec.ofBool f ++ w ++ op

/-- The opcode of a command (R104). -/
def Instr.opcode : Instr → BitVec 5
  | .cfgRead _ _ => 0x01#5
  | .cfgWrite _ _ => 0x02#5
  | .findStdCap _ => 0x03#5
  | .findExtCap _ => 0x04#5
  | .linkEnable => 0x05#5
  | .linkDisable => 0x06#5
  | .linkRetrain _ => 0x07#5
  | .linkSetTargetSpeed _ _ => 0x08#5
  | .linkReadStatus => 0x09#5
  | .linkWaitForTraining => 0x0A#5
  | .hotReset => 0x0B#5
  | .linkSetControlBits _ _ => 0x0C#5

/-- The CMD word of a well-formed command (R101, R103, R109). -/
def encode (i : Instr) : Word :=
  match i with
  | .cfgRead n off => cmd32 i.opcode n.code false false off
  | .cfgWrite n off => cmd32 i.opcode n.code false false off
  | .findStdCap imm => cmd32 i.opcode 0#2 false false imm
  | .findExtCap imm => cmd32 i.opcode 0#2 false false imm
  | .linkEnable => cmd32 i.opcode 0#2 false false 0#16
  | .linkDisable => cmd32 i.opcode 0#2 false false 0#16
  | .linkRetrain f => cmd32 i.opcode 0#2 f false 0#16
  | .linkSetTargetSpeed k f => cmd32 i.opcode 0#2 f k.bit 0#16
  | .linkReadStatus => cmd32 i.opcode 0#2 false false 0#16
  | .linkWaitForTraining => cmd32 i.opcode 0#2 false false 0#16
  | .hotReset => cmd32 i.opcode 0#2 false false 0#16
  | .linkSetControlBits f imm => cmd32 i.opcode 0#2 f false imm

/-- The command an instruction of `nbits` bits decodes to, its bits being `w`. A command is one 32-bit CMD word
(R100): the register write hands it over whole, so no byte order enters; bits above `nbits` are 0. -/
def decodeTableWord (nbits w : Nat) : Option Instr :=
  match decode (BitVec.ofNat 32 (w % 2 ^ nbits)) with
  | .ok i => some i
  | .error _ => none

end Sys2Proof
end

