-- ==== Sys2Proof/Machine/Operands.lean ====
section
/-! DEFINITION. Operand forms: widths and alignment (20_memory.md R65), value range (R141), the speed operand
(42_link_controller.md R195, R197), and the fields of the device registers (10_state.md R34 to R44). -/

namespace Sys2Proof

/-- The number of bytes of a width (R102: `n = 2^W`). -/
def Width.bytes : Width → Nat
  | .w1 => 1
  | .w2 => 2
  | .w4 => 4
  | .w8 => 8

namespace Machine

/-- A checked access of `n` bytes at `off` is aligned (R65). -/
def aligned (off n : Nat) : Bool := off % min n 4 == 0

/-- The value fits a width (R141: `n = 8` takes every value, otherwise `v < 2^(8n)`). -/
def valueFits (n : Width) (v : Quad) : Bool := n == .w8 || v.toNat < 2 ^ (8 * n.bytes)

/-- Is a parameter set legal (R5, R6)? The trip function is legal by its floor of 1, see `extTripLimit`. -/
def paramsLegal (p : Params) : Bool := 1 ≤ p.stdTripLimit && 1 ≤ p.timeUnit.num && 1 ≤ p.timeUnit.den

/-- The value of a trip expression for a size of `cs` bytes. -/
def extTripValue (t : ExtTrip) (cs : Nat) : Nat :=
  match t with
  | .size => cs
  | .lit n => n
  | .add a b => extTripValue a cs + extTripValue b cs
  | .sub a b => extTripValue a cs - extTripValue b cs
  | .mul a b => extTripValue a cs * extTripValue b cs
  | .div a b => extTripValue a cs / extTripValue b cs
  | .ifLt a b x y => if extTripValue a cs < extTripValue b cs then extTripValue x cs else extTripValue y cs

/-- `P_EXT_TRIP(cs)` (R5): the function the parameter names, at least 1; a legal function is at least 1 already. -/
def extTripLimit (t : ExtTrip) (cs : Nat) : Nat := max 1 (extTripValue t cs)

/-! ### Device register fields -/

/-- Status bit 4, Capabilities List (R34). -/
def capabilitiesList (st : Word) : Bool := st.getLsbD 4

/-- `HT[6:0]` (R35). -/
def headerType (ht : Word) : BitVec 7 := ht.extractLsb' 0 7

/-- Where the capability pointer is, by header type (R35, R36, R160); none for a type without one. -/
def pointerOffset (ht : BitVec 7) : Option Nat :=
  if ht = 0#7 ∨ ht = 1#7 then some 0x34 else if ht = 2#7 then some 0x14 else none

/-- Capability ID of a standard entry (R38). -/
def entryId (e : Word) : Byte := e.extractLsb' 0 8

/-- Next-pointer of a standard entry (R38). -/
def entryNext (e : Word) : Nat := (e.extractLsb' 8 8).toNat

/-- Capability ID of an extended header (R39). -/
def headerId (h : Word) : Half := h.extractLsb' 0 16

/-- Version of an extended header (R39); the core never reads it. -/
def headerVersion (h : Word) : BitVec 4 := h.extractLsb' 16 4

/-- Next-pointer of an extended header (R39). -/
def headerNext (h : Word) : Nat := (h.extractLsb' 20 12).toNat

/-- A header that ends the implemented space (R39). -/
def headerEnds (h : Word) : Bool := h == 0x00000000#32 || h == 0xFFFFFFFF#32

/-- The PCI Express capability version (R40). -/
def capVersion (cap : Word) : BitVec 4 := cap.extractLsb' 0 4

/-- Link Control bit 4, Link Disable (R41). -/
def maskLD : Half := 0x0010#16

/-- Link Control bit 5, Retrain Link (R41). -/
def maskRL : Half := 0x0020#16

/-- Bridge Control bit 6, Secondary Bus Reset (R37). -/
def maskSBR : Half := 0x0040#16

/-- Link Status speed code (R42). -/
def lsSpeed (ls : Word) : BitVec 4 := ls.extractLsb' 0 4

/-- Link Status width (R42). -/
def lsWidth (ls : Word) : BitVec 6 := ls.extractLsb' 4 6

/-- Link Status bit 11, Link Training (R42). -/
def lsTraining (ls : Word) : Bool := ls.getLsbD 11

/-- Link Status bit 13, Data Link Layer Link Active (R42). -/
def lsActive (ls : Word) : Bool := ls.getLsbD 13

/-- The source's three conceptual link states (R44). -/
inductive LinkState where
  | disabled
  | enabledTraining
  | enabledNotTraining
  deriving DecidableEq, Repr

/-- The link state that LC and LS show (R44). The core does not hold it. -/
def linkState (lc ls : Half) : LinkState :=
  if lc.getLsbD 4 then .disabled else if ls.getLsbD 11 then .enabledTraining else .enabledNotTraining

/-! ### Speeds -/

/-- GT/s of a speed code as an IEEE 754 binary64 pattern (R197); none when the code is unknown. -/
def gts (sc : BitVec 4) : Option Quad :=
  if sc = 1#4 then some 0x4004000000000000#64
  else if sc = 2#4 then some 0x4014000000000000#64
  else if sc = 3#4 then some 0x4020000000000000#64
  else if sc = 4#4 then some 0x4030000000000000#64
  else if sc = 5#4 then some 0x4040000000000000#64
  else if sc = 6#4 then some 0x4050000000000000#64
  else none

/-- `NormSpeed(K, a)` (R195): the speed code, or none where the rule raises VALUE_OUT_OF_RANGE. -/
def normSpeed (k : SpeedKind) (a : Quad) : Option (BitVec 4) :=
  match k with
  | .byCode => if 1 ≤ a.toNat ∧ a.toNat ≤ 6 then some (a.setWidth 4) else none
  | .bySpeed =>
    if a = 0x4004000000000000#64 then some 1#4
    else if a = 0x4014000000000000#64 then some 2#4
    else if a = 0x4020000000000000#64 then some 3#4
    else if a = 0x4030000000000000#64 then some 4#4
    else if a = 0x4040000000000000#64 then some 5#4
    else if a = 0x4050000000000000#64 then some 6#4
    else none

/-- RES of LINK_READ_STATUS (R198), from the Link Status word. -/
def readStatusRes (ls : Word) : Quad :=
  (0#32 ++ ls.setWidth 16 ++ 0#3 ++ BitVec.ofBool (lsActive ls) ++ BitVec.ofBool (lsTraining ls) ++ lsWidth ls ++
    BitVec.ofBool (gts (lsSpeed ls)).isSome ++ lsSpeed ls : BitVec 64)

/-- RES2 of LINK_READ_STATUS (R198). -/
def readStatusRes2 (ls : Word) : Quad := (gts (lsSpeed ls)).getD 0#64

end Machine

end Sys2Proof
end

