-- ==== Sys2Proof/Machine/Ops.lean ====
section
/-! DEFINITION. The shared operations: bytes of configuration space, the port, checked accesses (20_memory.md), the time
source and `Sleep`, completions (60_exceptions.md R250, R251), issue, the host's register accesses, and reset. -/

namespace Sys2Proof.Machine

/-! ### Bytes of configuration space -/

/-- The byte at an offset. -/
def Memory.read : Memory → Nat → Byte
  | [], _ => Memory.unlisted
  | (k, b) :: m, a => if k = a then b else Memory.read m a

/-- Store one byte, keeping the canonical form: writing what an unlisted offset holds removes the entry. -/
def Memory.write : Memory → Nat → Byte → Memory
  | [], a, b => if b = Memory.unlisted then [] else [(a, b)]
  | (k, c) :: m, a, b =>
    if a < k then if b = Memory.unlisted then (k, c) :: m else (a, b) :: (k, c) :: m
    else if a = k then if b = Memory.unlisted then m else (a, b) :: m
    else (k, c) :: Memory.write m a b

/-- Every offset is at least `lo`, offsets rise strictly, and no entry equals what an unlisted offset holds. -/
def Memory.wfFrom : Nat → Memory → Bool
  | _, [] => true
  | lo, (a, b) :: m => decide (lo ≤ a) && decide (b ≠ Memory.unlisted) && Memory.wfFrom (a + 1) m

/-- The canonical form. -/
def Memory.wf (m : Memory) : Bool := Memory.wfFrom 0 m

/-- The little-endian value of the `n` bytes at `off` (R63), for `n` up to 4. -/
def Memory.readLE (m : Memory) (off : Nat) : Nat → Word
  | 0 => 0#32
  | n + 1 => (Memory.read m off).setWidth 32 ||| Memory.readLE m (off + 1) n <<< 8

/-- Store the low `n` bytes of `v` at `off`, little-endian (R63). -/
def Memory.writeLE (m : Memory) (off : Nat) : Nat → Word → Memory
  | 0, _ => m
  | n + 1, v => Memory.writeLE (Memory.write m off (v.setWidth 8)) (off + 1) n (v >>> 8)

/-- Apply a list of byte changes, in order. -/
def Memory.apply (m : Memory) (cells : List Host.Cell) : Memory := cells.foldl (fun m c => Memory.write m c.1 c.2) m

/-- Leave the bytes of `left` at `off`, at most `n` of them; the other bytes are as they were (R70). -/
def Memory.leave (m : Memory) (off : Nat) : Nat → List Byte → Memory
  | 0, _ => m
  | _ + 1, [] => m
  | n + 1, b :: left => Memory.leave (Memory.write m off b) (off + 1) n left

/-! ### The port -/

/-- The port's next event: the next chosen one, else the ideal one (R80) or a free one (R72). -/
def Port.event (p : Port) : PortEvent :=
  match p.script with
  | e :: _ => e
  | [] =>
    match p.tail with
    | .ideal => PortEvent.quiet
    | .free => Config.portEvent p.drawn

/-- The port after its next event. -/
def Port.advance (p : Port) : Port :=
  match p.script with
  | _ :: es => { p with script := es }
  | [] =>
    match p.tail with
    | .ideal => p
    | .free => { p with drawn := p.drawn + 1 }

/-- The offset of a transaction. -/
def Transaction.off : Transaction → Nat
  | .read off _ => off
  | .write off _ _ => off

/-- The number of bytes of a transaction. -/
def Transaction.bytes : Transaction → Nat
  | .read _ n => n
  | .write _ n _ => n

/-- What an answered transaction does to the bytes (R63, R70): a successful write stores, a failed write leaves any
values in its range, a read changes nothing. -/
def Transaction.effect (t : Transaction) (r : Reply) (m : Memory) : Memory :=
  match t, r with
  | .write off n v, .ok => Memory.writeLE m off n v
  | .write off n _, .fail _ left => Memory.leave m off n left
  | _, _ => m

/-- The answer the core sees (R62). A read's value is little-endian (R63). -/
def Transaction.answer (t : Transaction) (r : Reply) (m : Memory) : Answer :=
  match r with
  | .ok =>
    match t with
    | .read off n => .ok (Memory.readLE m off n)
    | .write _ _ v => .ok v
  | .fail kind _ => .fail kind
  | .silent => .pending

/-- The configuration space as the port finds it: other agents' changes come first (R75). -/
def State.seenCs (s : State) : Memory := Memory.apply s.cs s.port.event.others

/-- The port's answer to a transaction issued in `s`. -/
def answerTo (t : Transaction) (s : State) : Answer := t.answer s.port.event.reply s.seenCs

/-- The state after one event of the port for a transaction issued in `s`. An unanswered transaction stays in flight
(R303), an answered one is recorded (R271). -/
def afterTransaction (t : Transaction) (s : State) : State :=
  { s with
    port := s.port.advance
    cs := t.effect s.port.event.reply s.seenCs
    inFlight := if s.port.event.reply = .silent then some t else none
    log := if s.port.event.reply = .silent then s.log else .transaction t (answerTo t s) :: s.log }

/-! ### Positions and completions -/

/-- Move the sequencer to a program point (R30). -/
def goto (p : Point) (s : State) : State := { s with seq := .run p }

/-- A completion, one step (R250, R251): the result registers, STATUS, and back to IDLE. -/
def complete (c : Completion) (s : State) : State :=
  { s with
    status := completedStatus s.status c
    res := c.res
    res2 := c.res2
    errAddr := BitVec.ofNat 32 c.addr
    seq := .idle
    log := .completion c :: s.log }

/-- The error completion `raise E(info)` (R251): the core's one way of taking an exception. There is no return from it
(R262): the next `issue` starts afresh. -/
def raise (e : Err) (s : State) : State := complete (.raised e) s

/-- The error completion comes next, as a step of its own (R11). -/
def raiseNext (e : Err) (s : State) : State := goto (.complete (.raised e)) s

/-- `finish(OK, res, res2)` comes next (R11, R250). -/
def finishNext (res res2 : Quad) (s : State) : State := goto (.complete (.finishOk res res2)) s

/-- `finish(NOT_FOUND, 0, 0)` comes next (R11, R250). -/
def notFoundNext (s : State) : State := goto (.complete .finishNotFound) s

/-! ### Transactions and checked accesses -/

/-- Issue one transaction (R62): continue with its answer, or go to `raise IO_FAILURE(kind, off)` (R257, R69), or stay
at the same program point while the port does not answer (R303). -/
def withTransaction (t : Transaction) (s : State) (k : Word → State → State) : State :=
  match answerTo t s with
  | .ok v => k v (afterTransaction t s)
  | .fail kind => raiseNext (.ioFailure kind t.off) (afterTransaction t s)
  | .pending => afterTransaction t s

/-- The alignment check of a checked access of `n` bytes (R65): a misaligned one raises and issues nothing. -/
def checked (off n : Nat) (s go : State) : State :=
  if aligned off n then go else raise (.alignmentViolation off) s

/-- `CfgRead(off, n)` for `n` of 1, 2, 4 (R67), then `k` with the value. -/
def cfgReadThen (off n : Nat) (s : State) (k : Word → State → State) : State :=
  checked off n s (withTransaction (.read off n) s k)

/-- `CfgWrite(off, n, v)` for `n` of 1, 2, 4 (R68), then `k`. -/
def cfgWriteThen (off n : Nat) (v : Word) (s : State) (k : State → State) : State :=
  checked off n s (withTransaction (.write off n v) s fun _ t => k t)

/-- Step 1 of `RMW16` (R82): read 2 bytes at `off` into V. -/
def rmwReadThen (off : Nat) (after : Point) (s : State) : State :=
  cfgReadThen off 2 s fun v t => goto after { t with v := v }

/-- The value step 2 of `RMW16` writes (R82): `(v | set) & ~16(clr)`. -/
def rmwValue (v : Word) (set clr : Half) : Half := (v.setWidth 16 ||| set) &&& ~~~clr

/-- Step 2 of `RMW16` (R82): write V with the bits of `set` set and those of `clr` cleared. -/
def rmwWriteThen (off : Nat) (set clr : Half) (s : State) (k : State → State) : State :=
  cfgWriteThen off 2 ((rmwValue s.v set clr).setWidth 32) s k

/-! ### Time -/

/-- How far NOW advances before the next sample (R33). -/
def Clock.tick (c : Clock) : Nat :=
  match c.script with
  | d :: _ => d
  | [] =>
    match c.tail with
    | .ideal => 0
    | .free => Config.timeAdvance c.drawn

/-- How far NOW advances before the next look of a sleeping sequencer. The ideal clock runs on to the wake time
(95_test_vectors.md section 2.5). -/
def Clock.tickAsleep (c : Clock) (now wake : Nat) : Nat :=
  match c.script, c.tail with
  | [], .ideal => wake - now
  | _, _ => c.tick

/-- The clock after one advance. -/
def Clock.advance (c : Clock) : Clock :=
  match c.script with
  | _ :: ds => { c with script := ds }
  | [] =>
    match c.tail with
    | .ideal => c
    | .free => { c with drawn := c.drawn + 1 }

/-- One sample of NOW (R11, R33), then `k` with its value. -/
def withSample (s : State) (k : Nat → State → State) : State :=
  k (s.now + s.clock.tick)
    { s with now := s.now + s.clock.tick, clock := s.clock.advance, log := .now (s.now + s.clock.tick) :: s.log }

/-- The position after `Sleep(d)` is reached (R83): no step when `d = 0`, otherwise its sample comes next. -/
def sleepNext (d : Quad) (resume : Point) (s : State) : State :=
  if d = 0#64 then goto resume s else goto .sleepStart s

/-- The sample that begins `Sleep(d)` (R83): `t := NOW`, `SEQ <- SLEEP(t + d)`. -/
def beginSleep (d : Quad) (resume : Point) (s : State) : State :=
  withSample s fun t u => { u with seq := .sleep (t + d.toNat) resume }

/-- One turn of a sleeping sequencer (R83): wake at the first sample that has reached `wake`. -/
def sleepTurn (wake : Nat) (p : Point) (s : State) : State :=
  let now := s.now + s.clock.tickAsleep s.now wake
  if wake ≤ now then
    { s with now := now, clock := s.clock.advance, seq := .run p, log := .wake now :: s.log }
  else
    { s with now := now, clock := s.clock.advance }

/-! ### Running a command -/

/-- One step of a command (R11, R30): a completion and the turns of a sleep are the same for all; `f` says what the
command does at each other program point. -/
def atPoint (s : State) (f : Point → Host.Outcome State Fault Refusal) : Host.Outcome State Fault Refusal :=
  match s.seq with
  | .idle => .fault .noCommand
  | .sleep wake p => .next (sleepTurn wake p s)
  | .run (.complete c) => .next (complete c s)
  | .run p => f p

/-- Issue a command (R21): latch the word and the operands, clear the results, BUSY = 1, and start decoding. -/
def issue (w : Word) (s : State) : State :=
  { s with
    lCmd := w, lOpa := s.opa, lOpb := s.opb
    res := 0#64, res2 := 0#64, errAddr := 0#32
    status := issuedStatus s.status
    seq := .run .start }

/-! ### The host's register accesses and reset -/

/-- What a host read of register number `r` returns (R20, R23, R28): CMD and reserved numbers read 0, and so do the
reserved bits of STATUS. -/
def hostRead (r : Nat) (s : State) : Quad :=
  if r = 1 then (s.status &&& statusMask).setWidth 64
  else if r = 2 then s.opa
  else if r = 3 then s.opb
  else if r = 4 then s.res
  else if r = 5 then s.res2
  else if r = 6 then s.errAddr.setWidth 64
  else 0#64

/-- A host write of register number `r` (R20, R21, R22, R28, R259): CMD issues a command, or sets PF while BUSY; OPA and
OPB are stored; every other number ignores it. -/
def hostWrite (r : Nat) (x : Quad) (s : State) : State :=
  if r = 0 then
    if statusBusy s.status then { s with status := protocolFaultStatus s.status } else issue (x.setWidth 32) s
  else if r = 2 then { s with opa := x }
  else if r = 3 then { s with opb := x }
  else s

/-- A host read as an action (R28): it changes nothing; the record holds what was read. -/
def recordRead (r : Nat) (s : State) : State := { s with log := .hostRead r (hostRead r s) :: s.log }

/-- What an abandoned transaction leaves in the bytes (R290): a write's range takes any values, a read changes nothing. -/
def abandon (t : Option Transaction) (left : List Byte) (m : Memory) : Memory :=
  match t with
  | some (.write off n _) => Memory.leave m off n left
  | _ => m

/-- Reset, one step (R45, R290): the registers and SEQ at their reset values; the configuration space, NOW, the
parameters and the agents outside the core are not reset. -/
def assertReset (left : List Byte) (s : State) : State :=
  { State.reset with
    cs := abandon s.inFlight left s.cs
    now := s.now, params := s.params, port := s.port, clock := s.clock, host := s.host, log := s.log }

end Sys2Proof.Machine
end

