-- ==== Sys2Proof/Machine/CapabilityWalker.lean ====
section
/-! DEFINITION. The standard and the extended walk and the two commands that expose them (41_capability_walker.md). -/

namespace Sys2Proof.Machine

/-- The head of the entry loop of `FindStd` (R160, R161, R163): the trip counter, then the offset floor, then on to the
read of the entry at CUR. A walk that ends here completes NOT_FOUND (R166, R190). -/
def stdHead (at_ : WalkPoint → Point) (s : State) : State :=
  if s.trip = 0 then notFoundNext s
  else if s.cur < 0x40 then notFoundNext { s with trip := s.trip - 1 }
  else goto (at_ .entry) { s with trip := s.trip - 1 }

/-- One step of `FindStd(id)` (R160, R161, R164). `at_` places the walk's positions in the calling command; `found` goes
on when the entry at CUR has the ID. Every other end of the walk completes NOT_FOUND (R166, R190). -/
def findStd (id : Byte) (at_ : WalkPoint → Point) (found : State → State) (w : WalkPoint) (s : State) : State :=
  match w with
  | .status =>
    cfgReadThen 0x06 2 s fun st t =>
      if capabilitiesList st then goto (at_ .header) t else notFoundNext t
  | .header =>
    cfgReadThen 0x0E 1 s fun ht t =>
      match pointerOffset (headerType ht) with
      | some pp => goto (at_ (.pointer pp)) t
      | none => notFoundNext t
  | .pointer pp =>
    cfgReadThen pp 1 s fun c t =>
      if c = 0#32 then notFoundNext { t with cur := 0 }
      else stdHead at_ { t with cur := c.toNat, trip := t.params.stdTripLimit }
  | .entry =>
    cfgReadThen (s.cur &&& 0xFC) 2 s fun e t =>
      if entryId e = 0xFF#8 then notFoundNext t
      else if entryId e = id then found t
      else stdHead at_ { t with cur := entryNext e }

/-- FIND_STD_CAP (R166): RES is the pre-masked offset (R162). -/
def execFindStdCap (imm : Half) (s : State) : Host.Outcome State Fault Refusal :=
  atPoint s fun p =>
    match p with
    | .start => .next (findStd (imm.setWidth 8) (.walk .main) (fun t => finishNext (.ofNat 64 t.cur) 0#64 t) .status s)
    | .walk .main w => .next (findStd (imm.setWidth 8) (.walk .main) (fun t => finishNext (.ofNat 64 t.cur) 0#64 t) w s)
    | _ => .fault .offProgram

/-- The next-pointer as the walk takes it (R167, R169): masked to a multiple of 4 under MASK. -/
def takenNext (a : NextAlign) (nx : Nat) : Nat := if a = .mask then nx &&& 0xFFC else nx

/-- The checks that end the extended walk at a next-pointer (R167, R169). -/
def nextEnds (a : NextAlign) (cur nx : Nat) : Bool :=
  nx == 0 || nx == cur || decide (nx < 256) || (a == .stop && nx % 4 != 0)

/-- The head of the loop of `FindExt` (R167): the trip counter, then the size check, then on to the read of the header at
CUR. -/
def extHead (csSize : Nat) (s : State) : State :=
  if s.trip = 0 then notFoundNext s
  else if csSize < s.cur + 4 then notFoundNext { s with trip := s.trip - 1 }
  else goto .extEntry { s with trip := s.trip - 1 }

/-- The read of the header at CUR and what the walk makes of it (R167). -/
def extRead (csSize : Nat) (id : Half) (s : State) : State :=
  cfgReadThen s.cur 4 s fun h t =>
    if headerEnds h then notFoundNext t
    else if headerId h = id then finishNext (.ofNat 64 t.cur) 0#64 t
    else if nextEnds t.params.extNextAlign t.cur (takenNext t.params.extNextAlign (headerNext h)) then notFoundNext t
    else extHead csSize { t with cur := takenNext t.params.extNextAlign (headerNext h) }

/-- The first step of `FindExt(cs, id)` (R167): a space of at most 256 bytes has no extended region; otherwise the loop
starts at 256 with the trip count of the size, and its head decides whether the first step is a read or the completion. -/
def extStart (csSize : Nat) (id : Half) (s : State) : State :=
  if csSize ≤ 256 then complete .finishNotFound s
  else
    let t := extHead csSize { s with cur := 256, trip := extTripLimit s.params.extTrip csSize }
    if t.seq = .run .extEntry then extRead csSize id t else complete .finishNotFound t

/-- FIND_EXT_CAP (R168): the size is L_OPA, the ID is IMM. -/
def execFindExtCap (imm : Half) (s : State) : Host.Outcome State Fault Refusal :=
  atPoint s fun p =>
    match p with
    | .start => .next (extStart s.lOpa.toNat imm s)
    | .extEntry => .next (extRead s.lOpa.toNat imm s)
    | _ => .fault .offProgram

end Sys2Proof.Machine
end

