-- ==== Sys2Proof/Machine/ConfigAccess.lean ====
section
/-! DEFINITION. CFG_READ and CFG_WRITE (40_config_access.md). -/

namespace Sys2Proof.Machine

/-- CFG_READ (R140, R67): 1, 2 or 4 bytes in one transaction; 8 bytes in two, low word first. -/
def execCfgRead (n : Width) (off : Half) (s : State) : Host.Outcome State Fault Refusal :=
  atPoint s fun p =>
    match p, n with
    | .start, .w8 =>
      .next (checked off.toNat 8 s (withTransaction (.read off.toNat 4) s fun lo t => goto (.readHigh lo) t))
    | .start, n => .next (cfgReadThen off.toNat n.bytes s fun v t => finishNext (v.setWidth 64) 0#64 t)
    | .readHigh lo, .w8 =>
      .next (withTransaction (.read (off.toNat + 4) 4) s fun hi t => finishNext (hi ++ lo) 0#64 t)
    | _, _ => .fault .offProgram

/-- CFG_WRITE (R141, R68): the alignment check, then the range check, then one write of 1, 2 or 4 bytes or two of 4,
low word first. -/
def execCfgWrite (n : Width) (off : Half) (s : State) : Host.Outcome State Fault Refusal :=
  atPoint s fun p =>
    match p, n with
    | .start, n =>
      .next (checked off.toNat n.bytes s
        (if valueFits n s.lOpa then
          withTransaction (.write off.toNat (min n.bytes 4) (s.lOpa.setWidth 32)) s fun _ t =>
            if n = .w8 then goto .writeHigh t else finishNext 0#64 0#64 t
        else raise .valueOutOfRange s))
    | .writeHigh, .w8 =>
      .next (withTransaction (.write (off.toNat + 4) 4 (s.lOpa.extractLsb' 32 32)) s fun _ t =>
        finishNext 0#64 0#64 t)
    | _, _ => .fault .offProgram

end Sys2Proof.Machine
end

