-- ==== Sys2Proof/Machine/LinkController.lean ====
section
/-! DEFINITION. The eight commands of the link controller (42_link_controller.md). -/

namespace Sys2Proof.Machine

/-- One step of `FindPcie()` (R190): the standard walk for `P_PCIE_CAP_ID`; when it finds the capability, BASE is its
pre-masked offset and `after` comes next. -/
def findPcie (site : Site) (after : Point) (w : WalkPoint) (s : State) : State :=
  findStd s.params.pcieCapId (.walk site) (fun t => goto after { t with base := t.cur }) w s

/-- The Link Control register (R191). -/
def State.lcOff (s : State) : Nat := s.base + 0x10

/-- The Link Status register (R191). -/
def State.lsOff (s : State) : Nat := s.base + 0x12

/-- The Link Control 2 register (R191). -/
def State.lc2Off (s : State) : Nat := s.base + 0x30

/-- The PCI Express Capabilities register (R191). -/
def State.capOff (s : State) : Nat := s.base + 0x02

/-- The Bridge Control register (R37). -/
def bridgeControlOff : Nat := 0x3E

/-- One step of a command that is `FindPcie()` and one `RMW16` of Link Control (R192, R193, R194, R201); `last` comes
after its write. -/
def linkRmw (set clr : Half) (last : State → State) (p : Point) (s : State) : Host.Outcome State Fault Refusal :=
  match p with
  | .start => .next (findPcie .main .rmwRead .status s)
  | .walk .main w => .next (findPcie .main .rmwRead w s)
  | .rmwRead => .next (rmwReadThen s.lcOff .rmwWrite s)
  | .rmwWrite => .next (rmwWriteThen s.lcOff set clr s last)
  | _ => .fault .offProgram

/-- LINK_ENABLE (R192): clear Link Disable. -/
def execLinkEnable (s : State) : Host.Outcome State Fault Refusal :=
  atPoint s fun p => linkRmw 0#16 maskLD (finishNext 0#64 0#64) p s

/-- LINK_DISABLE (R193): set Link Disable. -/
def execLinkDisable (s : State) : Host.Outcome State Fault Refusal :=
  atPoint s fun p => linkRmw maskLD 0#16 (finishNext 0#64 0#64) p s

/-- What follows the setting write of a command that clears the bit again (R194, R200): a fresh read under REREAD, the
clearing write at once under REUSE. -/
def clearPoint (m : ClearMode) : Point :=
  match m with
  | .reread => .clearRead
  | .reuse => .clearWrite

/-- LINK_RETRAIN (R194): set Retrain Link; with `f`, clear it again, from a fresh read or from the first one. -/
def execLinkRetrain (f : Bool) (s : State) : Host.Outcome State Fault Refusal :=
  atPoint s fun p =>
    match p, f with
    | .clearRead, true => .next (rmwReadThen s.lcOff .clearWrite s)
    | .clearWrite, true => .next (rmwWriteThen s.lcOff 0#16 maskRL s (finishNext 0#64 0#64))
    | p, f =>
      linkRmw maskRL 0#16
        (fun t => if f then goto (clearPoint t.params.retrainClear) t else finishNext 0#64 0#64 t) p s

/-- The value written to LC2 (R196): the speed code in bits [3:0], the other bits as read. -/
def speedValue (v : Word) (code : BitVec 4) : Half := (v.setWidth 16 &&& 0xFFF0#16) ||| code.setWidth 16

/-- LINK_SET_TARGET_SPEED (R196): the speed check first, then the walk, the version check, the write of LC2, and with
`f` a nested retrain with a walk of its own. -/
def execLinkSetTargetSpeed (k : SpeedKind) (f : Bool) (s : State) : Host.Outcome State Fault Refusal :=
  atPoint s fun p =>
    match normSpeed k s.lOpa with
    | none => .next (raise .valueOutOfRange s)
    | some code =>
      match p, f with
      | .start, _ => .next (findPcie .main .version .status s)
      | .walk .main w, _ => .next (findPcie .main .version w s)
      | .version, _ =>
        .next (cfgReadThen s.capOff 2 s fun cap t =>
          if capVersion cap < 2#4 then raiseNext .unsupportedOperation t else goto .speedRead t)
      | .speedRead, _ => .next (rmwReadThen s.lc2Off .speedWrite s)
      | .speedWrite, f =>
        .next (cfgWriteThen s.lc2Off 2 ((speedValue s.v code).setWidth 32) s fun t =>
          if f then goto (.walk .retrain .status) t else finishNext 0#64 0#64 t)
      | .walk .retrain w, true => .next (findPcie .retrain .rmwRead w s)
      | .rmwRead, true => .next (rmwReadThen s.lcOff .rmwWrite s)
      | .rmwWrite, true => .next (rmwWriteThen s.lcOff maskRL 0#16 s (finishNext 0#64 0#64))
      | _, _ => .fault .offProgram

/-- LINK_READ_STATUS (R198): read Link Status and pack its fields. -/
def execLinkReadStatus (s : State) : Host.Outcome State Fault Refusal :=
  atPoint s fun p =>
    match p with
    | .start => .next (findPcie .main .statusRead .status s)
    | .walk .main w => .next (findPcie .main .statusRead w s)
    | .statusRead => .next (cfgReadThen s.lsOff 2 s fun ls t => finishNext (readStatusRes ls) (readStatusRes2 ls) t)
    | _ => .fault .offProgram

/-- LINK_WAIT_FOR_TRAINING (R199): the deadline once, then polls, each with a walk of its own, until Link Training reads
0 or a sample after a poll has reached the deadline; between polls a `Sleep` of the poll interval. -/
def execLinkWaitForTraining (s : State) : Host.Outcome State Fault Refusal :=
  atPoint s fun p =>
    match p with
    | .start =>
      .next (withSample s fun now t => goto (.walk .main .status) { t with deadline := now + s.lOpa.toNat })
    | .walk .main w => .next (findPcie .main .statusRead w s)
    | .statusRead =>
      .next (cfgReadThen s.lsOff 2 s fun ls t =>
        if lsTraining ls then goto .deadlineCheck { t with v := ls } else finishNext 1#64 0#64 { t with v := ls })
    | .deadlineCheck =>
      .next (withSample s fun now t =>
        if s.deadline ≤ now then finishNext 0#64 0#64 t else sleepNext s.lOpb (.walk .main .status) t)
    | .sleepStart => .next (beginSleep s.lOpb (.walk .main .status) s)
    | _ => .fault .offProgram

/-- HOT_RESET (R200): the header type check, set Secondary Bus Reset, `Sleep` for the delay, clear it again. -/
def execHotReset (s : State) : Host.Outcome State Fault Refusal :=
  atPoint s fun p =>
    match p with
    | .start =>
      .next (cfgReadThen 0x0E 1 s fun ht t =>
        if headerType ht = 1#7 then goto .rmwRead t else raiseNext .unsupportedOperation t)
    | .rmwRead => .next (rmwReadThen bridgeControlOff .rmwWrite s)
    | .rmwWrite =>
      .next (rmwWriteThen bridgeControlOff maskSBR 0#16 s fun t =>
        sleepNext s.lOpa (clearPoint t.params.hotResetClear) t)
    | .sleepStart => .next (beginSleep s.lOpa (clearPoint s.params.hotResetClear) s)
    | .clearRead => .next (rmwReadThen bridgeControlOff .clearWrite s)
    | .clearWrite => .next (rmwWriteThen bridgeControlOff 0#16 maskSBR s (finishNext 0#64 0#64))
    | _ => .fault .offProgram

/-- LINK_SET_CONTROL_BITS (R201): set or clear the bits of the mask in Link Control. -/
def execLinkSetControlBits (f : Bool) (imm : Half) (s : State) : Host.Outcome State Fault Refusal :=
  atPoint s fun p =>
    linkRmw (if f then imm else 0#16) (if f then 0#16 else imm) (finishNext 0#64 0#64) p s

end Sys2Proof.Machine
end

