-- ==== Sys2Proof/Machine/Dispatch.lean ====
section
/-! DEFINITION. One arm per command: one step (00_scope.md R11) of the command at the program point the state holds. -/

namespace Sys2Proof.Machine

def exec (i : Instr) (s : State) : Host.Outcome State Fault Refusal :=
  match i with
  | .cfgRead n off => Sys2Proof.Machine.execCfgRead n off s
  | .cfgWrite n off => Sys2Proof.Machine.execCfgWrite n off s
  | .findStdCap imm => Sys2Proof.Machine.execFindStdCap imm s
  | .findExtCap imm => Sys2Proof.Machine.execFindExtCap imm s
  | .linkEnable => Sys2Proof.Machine.execLinkEnable s
  | .linkDisable => Sys2Proof.Machine.execLinkDisable s
  | .linkRetrain f => Sys2Proof.Machine.execLinkRetrain f s
  | .linkSetTargetSpeed k f => Sys2Proof.Machine.execLinkSetTargetSpeed k f s
  | .linkReadStatus => Sys2Proof.Machine.execLinkReadStatus s
  | .linkWaitForTraining => Sys2Proof.Machine.execLinkWaitForTraining s
  | .hotReset => Sys2Proof.Machine.execHotReset s
  | .linkSetControlBits f imm => Sys2Proof.Machine.execLinkSetControlBits f imm s

end Sys2Proof.Machine
end

