-- ==== Sys2Proof/Machine/Step.lean ====
section
/-! DEFINITION. One step of the machine: whose turn it is, and what it does (10_state.md R30, 70_reset_and_hazards.md
R290, R293). -/

namespace Sys2Proof.Machine

/-- The sequencer's turn (R30, R105): IDLE waits; otherwise the latched word is decoded and one step of its command is
taken, or ILLEGAL_COMMAND is raised. -/
def sequencerTurn (s : State) : Host.Outcome State Fault Refusal :=
  match s.seq with
  | .idle => .next s
  | _ =>
    match decode s.lCmd with
    | .ok i => exec i s
    | .error _ => .next (raise .illegalCommand s)

/-- One step. A malformed parameter set is refused (R6). Otherwise the host's schedule says who moves: an action of the
host, or the sequencer. -/
def step (s : State) : Host.Outcome State Fault Refusal :=
  if paramsLegal s.params then
    match s.host with
    | [] => sequencerTurn s
    | .pass :: rest => sequencerTurn { s with host := rest }
    | .awaitDone :: rest => if statusDone s.status then .next { s with host := rest } else sequencerTurn s
    | .write r x :: rest => .next (hostWrite r x { s with host := rest })
    | .read r :: rest => .next (recordRead r { s with host := rest })
    | .reset left :: rest => .next (assertReset left { s with host := rest })
  else .refused .malformedParameters

/-- The host's schedule with the next turn given to the sequencer. -/
def sequencerFirst (h : List HostAct) : List HostAct :=
  match h with
  | [] => []
  | a :: rest => .pass :: a :: rest

/-- `s` with the command of CMD word `w` just issued (R21) and the next turn the sequencer's, so that the next step
decodes and runs it. This stands for the host's write of CMD. -/
def State.withFetchWord (s : State) (nbits w : Nat) : State :=
  { issue (BitVec.ofNat 32 (w % 2 ^ nbits)) s with host := sequencerFirst s.host }

end Sys2Proof.Machine
end

