-- ==== Sys2Proof/Machine/Assembler.lean ====
section
/-! DEFINITION. The assembler lines of 30_encoding.md R109, the pseudo-commands of R110, a host program as the schedule
of register accesses it assembles to, and the end and the outcome of its run (70_reset_and_hazards.md R292, R294). -/

namespace Sys2Proof.Machine

/-- A line of R109 or a pseudo-command of R110. Operands are natural numbers; a GT/s operand is its binary64 pattern. -/
inductive AsmLine where
  | cfgRead (n off : Nat)
  | cfgWrite (n off value : Nat)
  | findStdCap (id : Nat)
  | findExtCap (id configSize : Nat)
  | linkEnable
  | linkDisable
  | linkRetrain (clearAfter : Nat)
  | setSpeedCode (c retrain : Nat)
  | setSpeedGts (s : Quad) (retrain : Nat)
  | linkReadStatus
  | linkWaitForTraining (timeout poll : Nat)
  | hotReset (delay : Nat)
  | setControlBits (mask enable : Nat)
  | word (w : Word)
  | opa (x : Quad)
  | opb (x : Quad)
  | findPcieCap
  | retrainAndWait (timeout poll : Nat)
  | setSpeedAndRetrain (s : Quad)
  deriving DecidableEq, Repr

/-- A width operand: 1, 2, 4 or 8 (R109). -/
def asmWidth (n : Nat) : Option Width :=
  if n = 1 then some .w1 else if n = 2 then some .w2 else if n = 4 then some .w4 else if n = 8 then some .w8 else none

/-- A flag operand: 0 or 1 (R109). -/
def asmFlag (n : Nat) : Option Bool := if n = 0 then some false else if n = 1 then some true else none

/-- An operand that fits `k` bits (R109: a line whose operand does not fit its field has no encoding). -/
def asmFits (k n : Nat) : Option (BitVec k) := if n < 2 ^ k then some (BitVec.ofNat k n) else none

/-- The write of CMD that issues a command. -/
def cmdWrite (i : Instr) : HostAct := .write 0 ((encode i).setWidth 64)

/-- The write of OPA. -/
def opaWrite (x : Quad) : HostAct := .write 2 x

/-- The write of OPB. -/
def opbWrite (x : Quad) : HostAct := .write 3 x

/-- The host writes a line assembles to, in the order OPA, OPB, CMD (R109); none where the assembler refuses it.
FIND_PCIE_CAP takes the literal 0x10 of R110 whatever P_PCIE_CAP_ID is (DESIGN CHOICE, unsafe, log 17). -/
def assemble (l : AsmLine) : Option (List HostAct) :=
  match l with
  | .cfgRead n off => do some [cmdWrite (.cfgRead (← asmWidth n) (← asmFits 16 off))]
  | .cfgWrite n off value =>
    do some [opaWrite (← asmFits 64 value), cmdWrite (.cfgWrite (← asmWidth n) (← asmFits 16 off))]
  | .findStdCap id => do some [cmdWrite (.findStdCap ((← asmFits 8 id).setWidth 16))]
  | .findExtCap id cs => do some [opaWrite (← asmFits 64 cs), cmdWrite (.findExtCap (← asmFits 16 id))]
  | .linkEnable => some [cmdWrite .linkEnable]
  | .linkDisable => some [cmdWrite .linkDisable]
  | .linkRetrain c => do some [cmdWrite (.linkRetrain (← asmFlag c))]
  | .setSpeedCode c r => do some [opaWrite (← asmFits 64 c), cmdWrite (.linkSetTargetSpeed .byCode (← asmFlag r))]
  | .setSpeedGts s r => do some [opaWrite s, cmdWrite (.linkSetTargetSpeed .bySpeed (← asmFlag r))]
  | .linkReadStatus => some [cmdWrite .linkReadStatus]
  | .linkWaitForTraining t p =>
    do some [opaWrite (← asmFits 64 t), opbWrite (← asmFits 64 p), cmdWrite .linkWaitForTraining]
  | .hotReset d => do some [opaWrite (← asmFits 64 d), cmdWrite .hotReset]
  | .setControlBits m e => do some [cmdWrite (.linkSetControlBits (← asmFlag e) (← asmFits 16 m))]
  | .word w => some [.write 0 (w.setWidth 64)]
  | .opa x => some [opaWrite x]
  | .opb x => some [opbWrite x]
  | .findPcieCap => some [cmdWrite (.findStdCap 0x0010#16)]
  | .retrainAndWait t p =>
    do some [cmdWrite (.linkRetrain false), .awaitDone, opaWrite (← asmFits 64 t), opbWrite (← asmFits 64 p),
      cmdWrite .linkWaitForTraining]
  | .setSpeedAndRetrain s => some [opaWrite s, cmdWrite (.linkSetTargetSpeed .bySpeed true)]

/-- Does the line write CMD, so that the host has to wait for DONE after it (R292, R293)? -/
def AsmLine.issues : AsmLine → Bool
  | .opa _ => false
  | .opb _ => false
  | _ => true

/-- A host program (R108, R292): each line's writes, and after a line that issues a command the wait for DONE; none where
the assembler refuses a line. -/
def assembleProgram : List AsmLine → Option (List HostAct)
  | [] => some []
  | l :: ls => do
    let acts ← assemble l
    let rest ← assembleProgram ls
    some (acts ++ (if l.issues then [.awaitDone] else []) ++ rest)

/-! ### The end of a run (R294) -/

/-- Is the action one that issues a command, a write of CMD (R20, R21)? -/
def HostAct.issues : HostAct → Bool
  | .write reg _ => reg == 0
  | .pass => false
  | .awaitDone => false
  | .read _ => false
  | .reset _ => false

/-- The end of a run (R294): the host has issued its last command, whatever else it has still to do (log 9), and STATUS
shows DONE = 1 with BUSY = 0. -/
def runEnded (s : State) : Bool := !s.host.any HostAct.issues && statusDone s.status && !statusBusy s.status

/-- What a completion leaves in the registers that the host reads (R294). -/
structure CompletionView where
  code : BitVec 4
  kind : BitVec 2
  res : Quad
  res2 : Quad
  errAddr : Word
  deriving DecidableEq, Repr

/-- The host's view of a completion (R24 to R27, R250, R251). -/
def Completion.view (c : Completion) : CompletionView :=
  { code := c.code.bits, kind := ioKindBits c.kind, res := c.res, res2 := c.res2, errAddr := BitVec.ofNat 32 c.addr }

/-- The outcome of a run (R294): its completions and its port transactions with their answers, each in order, and PF. -/
structure RunOutcome where
  completions : List CompletionView
  transactions : List (Transaction × Answer)
  pf : Bool
  deriving DecidableEq, Repr

/-- The completion that an entry of the record stands for. -/
def Event.completionView : Event → Option CompletionView
  | .completion c => some c.view
  | .transaction _ _ => none
  | .now _ => none
  | .wake _ => none
  | .hostRead _ _ => none

/-- The transaction that an entry of the record stands for, with its answer. -/
def Event.answered : Event → Option (Transaction × Answer)
  | .transaction t a => some (t, a)
  | .completion _ => none
  | .now _ => none
  | .wake _ => none
  | .hostRead _ _ => none

/-- The outcome of the run that `s` records (R294, log 11). -/
def runOutcome (s : State) : RunOutcome :=
  { completions := s.log.reverse.filterMap Event.completionView
    transactions := s.log.reverse.filterMap Event.answered
    pf := statusPf s.status }

end Sys2Proof.Machine
end

