-- ==== Sys2Proof/Safety.lean ====
section
/-! DEFINITION. The terms of the claims: a run of one command, the invariant of the machine, and the clear big-step
readings of the two walks that the sequencer's steps are held against. -/

namespace Sys2Proof.Machine

/-- `n` steps of one command (R11), stopping at the first that does not answer a next state. -/
def runExec (i : Instr) : Nat → State → Host.Outcome State Fault Refusal
  | 0, s => .next s
  | n + 1, s =>
    match exec i s with
    | .next t => runExec i n t
    | .fault f => .fault f
    | .refused r => .refused r

/-- The ideal port of R80, with no chosen event before it. -/
def idealPort (s : State) : Prop := s.port.script = [] ∧ s.port.tail = .ideal

/-- A run of the ideal time source alone: no chosen advance before it (95_test_vectors.md section 2.5). -/
def idealClock (s : State) : Prop := s.clock.script = [] ∧ s.clock.tail = .ideal

/-! ### What a step leaves, in the words of the rules -/

/-- `t` shows the completion of a command whose issue `s` remembers (R250, R251): the results and STATUS, PF as it was,
SEQ back to IDLE. -/
def Completed (s t : State) (code : BitVec 4) (kind : BitVec 2) (res res2 : Quad) (addr : Nat) : Prop :=
  statusBusy t.status = false ∧ statusDone t.status = true ∧ statusPf t.status = statusPf s.status ∧
  statusCode t.status = code ∧ statusKind t.status = kind ∧ t.status &&& ~~~statusMask = 0#32 ∧
  t.res = res ∧ t.res2 = res2 ∧ t.errAddr = BitVec.ofNat 32 addr ∧ t.seq = .idle

/-- The registers and agents a completion does not touch: everything but STATUS, RES, RES2, ERRADDR, SEQ and the record. -/
def KeptByCompletion (s t : State) : Prop :=
  t = { s with
    status := t.status, res := t.res, res2 := t.res2, errAddr := t.errAddr, seq := t.seq, log := t.log }

/-- `t` is `s` after the port answered a read of `n` bytes at `off`, with `p` next. Nothing else has changed but the
bytes other agents changed before the read (R62, R75). -/
def ReadOnly (off n : Nat) (p : Point) (s t : State) : Prop :=
  t = { s with
    port := s.port.advance, cs := s.seenCs, inFlight := none, seq := .run p
    log := .transaction (.read off n) (.ok (Memory.readLE s.seenCs off n)) :: s.log }

/-- `t` is `s` after the port took a write of `n` bytes `v` at `off`, with `p` next. The `n` bytes at `off` hold `v`, every
other byte is as the port found it, and nothing else has changed (R62, R63, R75). -/
def WroteOnly (off n : Nat) (v : Word) (p : Point) (s t : State) : Prop :=
  t = { s with
    port := s.port.advance, cs := t.cs, inFlight := none, seq := .run p
    log := .transaction (.write off n v) (.ok v) :: s.log } ∧
  Memory.readLE t.cs off n = v ∧
  ∀ a, a < off ∨ off + n ≤ a → Memory.read t.cs a = Memory.read s.seenCs a

/-- The record of `t` is that of `s` with entries added, none of them a write transaction. -/
def NoWriteSince (s t : State) : Prop :=
  ∃ l, t.log = l ++ s.log ∧ ∀ off n v a, Event.transaction (.write off n v) a ∉ l

/-- The same outcome with OPA and OPB holding `x` and `y` (R22). -/
def withOperands (x y : Quad) (o : Host.Outcome State Fault Refusal) : Host.Outcome State Fault Refusal :=
  match o with
  | .next t => .next { t with opa := x, opb := y }
  | .fault f => .fault f
  | .refused r => .refused r

/-! ### The program points of each command (R30) -/

/-- A capability pointer is read at 0x34 or 0x14 only (R36). -/
def WalkPoint.legal : WalkPoint → Bool
  | .status => true
  | .header => true
  | .pointer pp => pp == 0x34 || pp == 0x14
  | .entry => true

/-- Is the point one of the command's pseudocode (R140, R141, R166, R168, R192 to R201)? -/
def hasPoint (i : Instr) (p : Point) : Bool :=
  match p with
  | .start => true
  | .complete _ => true
  | .readHigh _ => match i with | .cfgRead n _ => n == .w8 | _ => false
  | .writeHigh => match i with | .cfgWrite n _ => n == .w8 | _ => false
  | .walk .main w =>
    w.legal &&
      match i with
      | .findStdCap _ | .linkEnable | .linkDisable | .linkRetrain _ | .linkSetTargetSpeed _ _ | .linkReadStatus
      | .linkWaitForTraining | .linkSetControlBits _ _ => true
      | _ => false
  | .walk .retrain w => w.legal && match i with | .linkSetTargetSpeed _ f => f | _ => false
  | .extEntry => match i with | .findExtCap _ => true | _ => false
  | .version => match i with | .linkSetTargetSpeed _ _ => true | _ => false
  | .speedRead => match i with | .linkSetTargetSpeed _ _ => true | _ => false
  | .speedWrite => match i with | .linkSetTargetSpeed _ _ => true | _ => false
  | .rmwRead | .rmwWrite =>
    match i with
    | .linkEnable | .linkDisable | .linkRetrain _ | .hotReset | .linkSetControlBits _ _ => true
    | .linkSetTargetSpeed _ f => f
    | _ => false
  | .clearRead | .clearWrite =>
    match i with
    | .linkRetrain f => f
    | .hotReset => true
    | _ => false
  | .statusRead => match i with | .linkReadStatus | .linkWaitForTraining => true | _ => false
  | .deadlineCheck => match i with | .linkWaitForTraining => true | _ => false
  | .sleepStart => match i with | .linkWaitForTraining | .hotReset => true | _ => false

/-- The ranges of CUR while it is used: a standard entry lies at 0x40 to 0xFF (R38, R73), an extended header at 0x100 to
0xFFF and inside the size the host gave (R167, R170). -/
def curLegal (p : Point) (s : State) : Bool :=
  match p with
  | .walk _ .entry => 0x40 ≤ s.cur && s.cur ≤ 0xFF
  | .extEntry => 0x100 ≤ s.cur && s.cur ≤ 0xFFF && s.cur + 4 ≤ s.lOpa.toNat
  | _ => true

/-- The point belongs to the latched command (R30). An illegal word is at the start of decoding only (R105). -/
def pointLegal (p : Point) (s : State) : Bool :=
  curLegal p s &&
    match decode s.lCmd with
    | .ok i => hasPoint i p
    | .error _ => p == .start

/-- The sequencer's part of the invariant (R30): BUSY says whether a command runs, and its point is legal. -/
def seqLegal (s : State) : Bool :=
  match s.seq with
  | .idle => !statusBusy s.status
  | .run p => statusBusy s.status && pointLegal p s
  | .sleep _ p => statusBusy s.status && pointLegal p s

/-- The result registers' part of the invariant: reserved STATUS bits are 0, CODE is 0 to 6 and 0 while a command runs,
BUSY and DONE exclude each other, IOKIND is set exactly for IO_FAILURE (R23 to R25); RES and RES2 are 0 unless CODE is OK,
and 0 while a command runs (R21, R26); ERRADDR is 0 unless CODE is ALIGNMENT_VIOLATION or IO_FAILURE (R27). -/
def resultsLegal (s : State) : Bool :=
  s.status &&& ~~~statusMask == 0#32 &&
  decide (statusCode s.status ≤ 6#4) &&
  !(statusBusy s.status && statusDone s.status) &&
  (!statusBusy s.status || statusCode s.status == 0#4) &&
  ((statusKind s.status != 0#2) == (statusCode s.status == 5#4)) &&
  ((statusCode s.status == 0#4 && !statusBusy s.status) || (s.res == 0#64 && s.res2 == 0#64)) &&
  (statusCode s.status == 2#4 || statusCode s.status == 5#4 || s.errAddr == 0#32)

/-- The invariant of the machine: the configuration space is in canonical form, the result registers and the sequencer
are as the rules say. -/
def State.inv (s : State) : Bool := Memory.wf s.cs && resultsLegal s && seqLegal s

/-! ### The walks in one go, over bytes that do not change -/

/-- The standard walk from an offset, with `n` iterations left (the loop of R160): the pre-masked offset found. -/
def stdWalkFrom (m : Memory) (id : Byte) : Nat → Nat → Option Nat
  | 0, _ => none
  | n + 1, cur =>
    if cur < 0x40 then none
    else
      let e := Memory.readLE m (cur &&& 0xFC) 2
      if entryId e = 0xFF#8 then none
      else if entryId e = id then some cur
      else stdWalkFrom m id n (entryNext e)

/-- `FindStd(id)` (R160) over fixed bytes: the pre-masked offset, or none for NOTFOUND. -/
def stdWalk (m : Memory) (limit : Nat) (id : Byte) : Option Nat :=
  if capabilitiesList (Memory.readLE m 0x06 2) then
    match pointerOffset (headerType (Memory.readLE m 0x0E 1)) with
    | some pp => stdWalkFrom m id limit (Memory.readLE m pp 1).toNat
    | none => none
  else none

/-- What an extended walk comes to. -/
inductive ExtResult where
  | found (off : Nat)
  | notFound
  | misaligned (off : Nat)
  deriving DecidableEq, Repr

/-- The extended walk from an offset, with `n` iterations left (the loop of R167). -/
def extWalkFrom (m : Memory) (a : NextAlign) (size : Nat) (id : Half) : Nat → Nat → ExtResult
  | 0, _ => .notFound
  | n + 1, cur =>
    if size < cur + 4 then .notFound
    else if cur % 4 ≠ 0 then .misaligned cur
    else
      let h := Memory.readLE m cur 4
      if headerEnds h then .notFound
      else if headerId h = id then .found cur
      else
        let nx := takenNext a (headerNext h)
        if nextEnds a cur nx then .notFound else extWalkFrom m a size id n nx

/-- `FindExt(cs, id)` (R167) over fixed bytes. -/
def extWalk (m : Memory) (p : Params) (size : Nat) (id : Half) : ExtResult :=
  if size ≤ 256 then .notFound
  else extWalkFrom m p.extNextAlign size id (extTripLimit p.extTrip size) 256

end Sys2Proof.Machine
end

