-- ==== Sys2Proof/Certificates/Slice0/Obligations.lean ====
section
/-! DEFINITION. What is claimed of the machine: each definition is one statement, for the provers. -/

open Sys2Proof Sys2Proof.Machine

/-! ### Encoding (30_encoding.md) -/

/-- Decoding the CMD word of a well-formed command gives the command back, every operand at every value (R101 to R105). -/
def Obligations.DecodeEncodeAgree : Prop :=
  ∀ i : Instr, i.wellFormed = true → decode (encode i) = .ok i

/-- A word that decodes is the CMD word of the command it decodes to, which is well formed (R101 to R106). -/
def Obligations.EncodeDecodeAgree : Prop :=
  ∀ (w : Word) (i : Instr), decode w = .ok i → i.wellFormed = true ∧ encode i = w

/-- No word selects two rows of the opcode map (R104). -/
def Obligations.WordSelectsAtMostOneRow : Prop :=
  ∀ w : Word, (opcodeMap.filter fun r => r.selects w).length ≤ 1

/-- R106: the illegal words are those with a reserved opcode, a bit of RSV, a W, F, K or IMM bit that the command does not
use, or FIND_STD_CAP with IMM[15:8] not 0; each completes ILLEGAL_COMMAND with no transaction and no other effect. -/
def Obligations.IllegalWordsExactly : Prop :=
  ∀ w : Word,
    ((∃ r, decode w = .error r) ↔
      fieldOp w = 0#5 ∨ 0x0D#5 ≤ fieldOp w ∨ w.extractLsb' 9 7 ≠ 0#7 ∨
      (fieldW w ≠ 0#2 ∧ fieldOp w ≠ 0x01#5 ∧ fieldOp w ≠ 0x02#5) ∨
      (fieldF w = true ∧ fieldOp w ≠ 0x07#5 ∧ fieldOp w ≠ 0x08#5 ∧ fieldOp w ≠ 0x0C#5) ∨
      (fieldK w = true ∧ fieldOp w ≠ 0x08#5) ∨
      (fieldImm w ≠ 0#16 ∧ fieldOp w ≠ 0x01#5 ∧ fieldOp w ≠ 0x02#5 ∧ fieldOp w ≠ 0x03#5 ∧ fieldOp w ≠ 0x04#5 ∧
        fieldOp w ≠ 0x0C#5) ∨
      (fieldOp w = 0x03#5 ∧ (fieldImm w).extractLsb' 8 8 ≠ 0#8)) ∧
    ∀ s : State, s.lCmd = w → (∃ r, decode w = .error r) → s.seq = .run .start → s.host = [] →
      paramsLegal s.params = true →
      ∃ t, step s = .next t ∧ Completed s t 6#4 0#2 0#64 0#64 0 ∧ KeptByCompletion s t ∧
        t.log = .completion (.raised .illegalCommand) :: s.log

/-- Words written out from the encodings of R101 and R104 decode to the commands they stand for. -/
def Obligations.WrittenWordsDecode : Prop :=
  decode 0b0000000000010000000000000_01_00001#32 = .ok (.cfgRead .w2 0x0010#16) ∧
  decode 0b0000001000001000000000000_11_00010#32 = .ok (.cfgWrite .w8 0x0208#16) ∧
  decode 0b0000000000010000_0000000_0_0_00_00011#32 = .ok (.findStdCap 0x0010#16) ∧
  decode 0b0001001000110100_0000000_0_0_00_00100#32 = .ok (.findExtCap 0x1234#16) ∧
  decode 0b0000000000000000_0000000_0_1_00_00111#32 = .ok (.linkRetrain true) ∧
  decode 0b0000000000000000_0000000_1_0_00_01000#32 = .ok (.linkSetTargetSpeed .bySpeed false) ∧
  decode 0b0000000000000011_0000000_0_1_00_01100#32 = .ok (.linkSetControlBits true 0x0003#16)

/-- R102: width code W selects `2^W` bytes, every width of 1, 2, 4 or 8 bytes has a code, and every code a width. -/
def Obligations.WidthCodesAreExact : Prop :=
  (∀ c : BitVec 2, (Width.ofCode c).bytes = 2 ^ c.toNat ∧ (Width.ofCode c).code = c) ∧
  (∀ n : Width, Width.ofCode n.code = n) ∧
  ∀ b : Nat, (b = 1 ∨ b = 2 ∨ b = 4 ∨ b = 8) ↔ ∃ n : Width, n.bytes = b

/-! ### Steps, issue and the host (10_state.md, 60_exceptions.md) -/

/-- A step with the sequencer to move runs one step of the latched command: the host's schedule is empty, or gives the
turn up, or waits for a DONE that is still 0 (R30, R105; log 8, 9). -/
def Obligations.StepRunsDecodedCommand : Prop :=
  ∀ (s : State) (i : Instr), paramsLegal s.params = true → s.seq ≠ .idle → decode s.lCmd = .ok i →
    (s.host = [] → step s = exec i s) ∧
    (∀ rest, s.host = .pass :: rest → step s = exec i { s with host := rest }) ∧
    (∀ rest, s.host = .awaitDone :: rest → statusDone s.status = false → step s = exec i s)

/-- R21: a host write of `w` to CMD with BUSY = 0 latches the word and the operands, clears the results, CODE, IOKIND and
DONE, sets BUSY, leaves PF, and puts the sequencer at the start of decoding; nothing else changes. -/
def Obligations.CmdWriteIssues : Prop :=
  ∀ (s : State) (w : Word) (rest : List HostAct), paramsLegal s.params = true →
    s.host = .write 0 (w.setWidth 64) :: rest → statusBusy s.status = false →
    ∃ t, step s = .next t ∧ statusBusy t.status = true ∧ statusDone t.status = false ∧
      statusPf t.status = statusPf s.status ∧ statusCode t.status = 0#4 ∧ statusKind t.status = 0#2 ∧
      t = { s with
        host := rest, lCmd := w, lOpa := s.opa, lOpb := s.opb, res := 0#64, res2 := 0#64, errAddr := 0#32,
        status := t.status, seq := .run .start }

/-- R259: a host write to CMD with BUSY = 1 is discarded and sets PF; no command and no host access clears PF, only
reset does. -/
def Obligations.CmdWriteWhileBusyOnlySetsPf : Prop :=
  (∀ (s : State) (x : Quad) (rest : List HostAct), paramsLegal s.params = true → s.host = .write 0 x :: rest →
    statusBusy s.status = true →
    ∃ t, step s = .next t ∧ t = { s with host := rest, status := s.status ||| 0x00000004#32 } ∧
      statusPf t.status = true ∧ statusCode t.status = statusCode s.status) ∧
  (∀ s t : State, step s = .next t → statusPf s.status = true → (∀ left rest, s.host ≠ .reset left :: rest) →
    statusPf t.status = true) ∧
  (∀ (s : State) (left : List Byte) (rest : List HostAct), paramsLegal s.params = true →
    s.host = .reset left :: rest → ∃ t, step s = .next t ∧ statusPf t.status = false)

/-- R28: a host write to STATUS, RES, RES2 or ERRADDR has no effect, and a host read of any register has none (the record
of what was observed grows by the value read). -/
def Obligations.ReadsAndReadOnlyWritesChangeNothing : Prop :=
  (∀ (s : State) (r : Nat) (x : Quad) (rest : List HostAct), paramsLegal s.params = true →
    s.host = .write r x :: rest → r = 1 ∨ r = 4 ∨ r = 5 ∨ r = 6 → step s = .next { s with host := rest }) ∧
  (∀ (s : State) (r : Nat) (rest : List HostAct), paramsLegal s.params = true → s.host = .read r :: rest →
    step s = .next { s with host := rest, log := .hostRead r (hostRead r s) :: s.log })

/-- The register map of R20 and the reserved bits of R23: what each register number reads as, and that the numbers 7 and
above read 0 and ignore writes. That a host read carries 64 bits, ERRADDR and STATUS zero-extended, is the model's choice
(log 10). -/
def Obligations.HostRegisterMap : Prop :=
  ∀ s : State,
    hostRead 0 s = 0#64 ∧ hostRead 2 s = s.opa ∧ hostRead 3 s = s.opb ∧ hostRead 4 s = s.res ∧ hostRead 5 s = s.res2 ∧
    hostRead 6 s = s.errAddr.setWidth 64 ∧
    (∀ j, (hostRead 1 s).getLsbD j = (s.status.getLsbD j && decide (j ≠ 3) && decide (j < 10))) ∧
    ∀ r, 7 ≤ r → hostRead r s = 0#64 ∧ ∀ x, hostWrite r x s = s

/-- R22: OPA and OPB hold what the host wrote, and a running command reads the latched copies only, so that writing them
changes the registers and not the command. -/
def Obligations.RunningCommandReadsLatchedOperands : Prop :=
  (∀ (i : Instr) (s : State) (x y : Quad),
    exec i { s with opa := x, opb := y } = withOperands x y (exec i s)) ∧
  (∀ (s : State) (x : Quad) (rest : List HostAct), paramsLegal s.params = true →
    (s.host = .write 2 x :: rest → step s = .next { s with host := rest, opa := x }) ∧
    (s.host = .write 3 x :: rest → step s = .next { s with host := rest, opb := x }))

/-- R45 and R290: reset sets SEQ to IDLE and every host register to 0, abandons the running command, touches neither NOW
nor, but for the bytes of a write still unanswered, the configuration space; those bytes take any values. The sequencer
then stays idle. -/
def Obligations.ResetAbandonsAndClears : Prop :=
  ∀ (s : State) (left : List Byte) (rest : List HostAct), paramsLegal s.params = true →
    s.host = .reset left :: rest →
    ∃ t, step s = .next t ∧ t.seq = .idle ∧ t.status = 0#32 ∧ t.opa = 0#64 ∧ t.opb = 0#64 ∧ t.res = 0#64 ∧
      t.res2 = 0#64 ∧ t.errAddr = 0#32 ∧ (∀ r, hostRead r t = 0#64) ∧ t.inFlight = none ∧ t.now = s.now ∧
      t.host = rest ∧ sequencerTurn t = .next t ∧
      (∀ a, (∀ off n v, s.inFlight = some (.write off n v) → a < off ∨ off + n ≤ a) →
        Memory.read t.cs a = Memory.read s.cs a) ∧
      (Memory.wf s.cs = true → ∀ off n v, s.inFlight = some (.write off n v) → left.length = n →
        ∀ j (hj : j < left.length), Memory.read t.cs (off + j) = left[j])

/-- R250 and R251: a completion is one step of any command; it writes RES, RES2, ERRADDR, CODE and IOKIND as the rules say,
BUSY = 0, DONE = 1, SEQ = IDLE, and nothing else. R294 as the model reads it: it adds to the outcome of the run what the
host can now read, and nothing else, and it ends the run exactly where no write of CMD is left in the host's schedule. The
schedule and the test for its last command are the model's (log 9), and so is the record the outcome is read off (log 11). -/
def Obligations.CompletionIsOneStep : Prop :=
  ∀ (i : Instr) (s : State),
    (∀ r r2, s.seq = .run (.complete (.finishOk r r2)) →
      ∃ t, exec i s = .next t ∧ Completed s t 0#4 0#2 r r2 0 ∧ KeptByCompletion s t) ∧
    (s.seq = .run (.complete .finishNotFound) →
      ∃ t, exec i s = .next t ∧ Completed s t 1#4 0#2 0#64 0#64 0 ∧ KeptByCompletion s t) ∧
    (∀ off, s.seq = .run (.complete (.raised (.alignmentViolation off))) →
      ∃ t, exec i s = .next t ∧ Completed s t 2#4 0#2 0#64 0#64 off ∧ KeptByCompletion s t) ∧
    (s.seq = .run (.complete (.raised .valueOutOfRange)) →
      ∃ t, exec i s = .next t ∧ Completed s t 3#4 0#2 0#64 0#64 0 ∧ KeptByCompletion s t) ∧
    (s.seq = .run (.complete (.raised .unsupportedOperation)) →
      ∃ t, exec i s = .next t ∧ Completed s t 4#4 0#2 0#64 0#64 0 ∧ KeptByCompletion s t) ∧
    (∀ kind off, s.seq = .run (.complete (.raised (.ioFailure kind off))) →
      ∃ t, exec i s = .next t ∧ Completed s t 5#4 (ioKindBits (some kind)) 0#64 0#64 off ∧ KeptByCompletion s t) ∧
    (s.seq = .run (.complete (.raised .illegalCommand)) →
      ∃ t, exec i s = .next t ∧ Completed s t 6#4 0#2 0#64 0#64 0 ∧ KeptByCompletion s t) ∧
    (∀ c, s.seq = .run (.complete c) →
      ∃ t, exec i s = .next t ∧ (runEnded t = true ↔ ∀ a ∈ s.host, ∀ x, a ≠ .write 0 x) ∧
        runOutcome t = { runOutcome s with
          completions := (runOutcome s).completions ++
            [{ code := statusCode t.status, kind := statusKind t.status, res := t.res, res2 := t.res2,
               errAddr := t.errAddr }] })

/-- R6: a parameter outside its legal values is refused, whatever else the state holds; a legal set never is. The other
parameters can hold legal values only (log 7). -/
def Obligations.MalformedParametersRefused : Prop :=
  ∀ s : State,
    (s.params.stdTripLimit = 0 ∨ s.params.timeUnit.num = 0 ∨ s.params.timeUnit.den = 0) ↔
      step s = .refused .malformedParameters

/-! ### Memory and the port (20_memory.md) -/

/-- R63: a read of `n` bytes is the sum of its bytes times powers of 256, and a write of a value that fits stores byte `j`
of it at `off + j` and leaves every other byte. -/
def Obligations.LittleEndian : Prop :=
  ∀ (m : Memory) (off n : Nat), n = 1 ∨ n = 2 ∨ n = 4 →
    (Memory.readLE m off n).toNat = ∑ j ∈ Finset.range n, (Memory.read m (off + j)).toNat * 2 ^ (8 * j) ∧
    ∀ v : Word, v.toNat < 2 ^ (8 * n) → Memory.wf m = true →
      (∀ j, j < n → Memory.read (Memory.writeLE m off n v) (off + j) = v.extractLsb' (8 * j) 8) ∧
      (∀ a, a < off ∨ off + n ≤ a → Memory.read (Memory.writeLE m off n v) a = Memory.read m a) ∧
      Memory.readLE (Memory.writeLE m off n v) off n = v

/-- One step of a command is at most one observable event, and a transaction it issues has 1, 2 or 4 bytes: never 8
(R11, R62). -/
def Obligations.StepIsAtMostOneEvent : Prop :=
  ∀ (i : Instr) (s t : State), exec i s = .next t →
    t.log = s.log ∨ ∃ e, t.log = e :: s.log ∧
      ∀ tr a, e = .transaction tr a → tr.bytes = 1 ∨ tr.bytes = 2 ∨ tr.bytes = 4

/-- R257 and R69: a transaction the port fails ends the command: the next step is the completion IO_FAILURE with the
port's kind and the transaction's offset, and the completion is all it adds to the record: no other transaction is issued. -/
def Obligations.PortFailureEndsCommand : Prop :=
  ∀ (i : Instr) (s t : State) (tr : Transaction) (kind : IoKind), exec i s = .next t →
    t.log = .transaction tr (.fail kind) :: s.log →
    ∃ u, exec i t = .next u ∧ Completed t u 5#4 (ioKindBits (some kind)) 0#64 0#64 tr.off ∧ KeptByCompletion t u ∧
      u.log = .completion (.raised (.ioFailure kind tr.off)) :: t.log

/-- R70: a failed write changes no byte outside its range, and its own bytes can end at any values: those the port's event
names (log 3, 4). -/
def Obligations.FailedWriteLeavesAnyValue : Prop :=
  (∀ (i : Instr) (s t : State) (off n : Nat) (v : Word) (kind : IoKind), exec i s = .next t →
    t.log = .transaction (.write off n v) (.fail kind) :: s.log →
    ∀ a, a < off ∨ off + n ≤ a → Memory.read t.cs a = Memory.read s.seenCs a) ∧
  (∀ (s : State) (off : Nat) (v : Word) (kind : IoKind) (left : List Byte), Memory.wf s.cs = true →
    s.port.event.reply = .fail kind left →
    ∀ j (hj : j < left.length),
      Memory.read (afterTransaction (.write off left.length v) s).cs (off + j) = left[j])

/-- While the port does not answer, the command stays where it is: the transaction is in flight, the port's event has
passed with what other agents did, and nothing else has changed, the sequencer's point among it (R272, R303). One step is
read otherwise by the model (log 5, 8): the first step of FIND_EXT_CAP holds at the walk's first header, 0x100, with CUR
and TRIP set for it. -/
def Obligations.SilentPortHoldsCommand : Prop :=
  ∀ (i : Instr) (p : Point) (s t : State) (tr : Transaction), s.seq = .run p → s.port.event.reply = .silent →
    exec i s = .next t → t.inFlight = some tr → t.log = s.log →
    (((∀ imm, i ≠ .findExtCap imm) ∨ p ≠ .start) →
      t = { s with port := s.port.advance, cs := s.seenCs, inFlight := some tr }) ∧
    (∀ imm, i = .findExtCap imm → p = .start → tr = .read 0x100 4 ∧
      t = { s with
        port := s.port.advance, cs := s.seenCs, inFlight := some tr, seq := .run .extEntry, cur := 0x100,
        trip := extTripLimit s.params.extTrip s.lOpa.toNat - 1 })

/-- What no step of a command changes: OPA, OPB, the latches, the parameters and the host's schedule; and unless it
completes, STATUS, RES, RES2 and ERRADDR (R21, R22, R29, R250). -/
def Obligations.RegisterFrame : Prop :=
  ∀ (i : Instr) (s t : State), exec i s = .next t →
    t.opa = s.opa ∧ t.opb = s.opb ∧ t.lCmd = s.lCmd ∧ t.lOpa = s.lOpa ∧ t.lOpb = s.lOpb ∧ t.params = s.params ∧
    t.host = s.host ∧ statusPf t.status = statusPf s.status ∧
    (t.seq ≠ .idle → t.status = s.status ∧ t.res = s.res ∧ t.res2 = s.res2 ∧ t.errAddr = s.errAddr)

/-- What a step of a command does to the bytes of configuration space: nothing; or what the other agents did before its
transaction; or, for a write, also the bytes of that write's range and no other (R63, R70, R75). -/
def Obligations.MemoryFrame : Prop :=
  ∀ (i : Instr) (s t : State), exec i s = .next t →
    t.cs = s.cs ∨ t.cs = s.seenCs ∨
    ∃ off n v ans, t.log = .transaction (.write off n v) ans :: s.log ∧
      ∀ a, a < off ∨ off + n ≤ a → Memory.read t.cs a = Memory.read s.seenCs a

/-- CFG_READ, FIND_STD_CAP, FIND_EXT_CAP, LINK_READ_STATUS and LINK_WAIT_FOR_TRAINING issue no write (R71, R202). -/
def Obligations.ReadingCommandsNeverWrite : Prop :=
  ∀ (i : Instr) (s t : State),
    (∃ n off, i = .cfgRead n off) ∨ (∃ imm, i = .findStdCap imm) ∨ (∃ imm, i = .findExtCap imm) ∨
      i = .linkReadStatus ∨ i = .linkWaitForTraining →
    exec i s = .next t →
    (∀ off n v a, t.log ≠ .transaction (.write off n v) a :: s.log) ∧ (t.cs = s.cs ∨ t.cs = s.seenCs)

/-! ### Checked configuration access (40_config_access.md) -/

/-- CFG_READ: when aligned and answered, 1, 2 or 4 bytes are one read whose little-endian value goes to RES; 8 bytes are the
low word's read and then the high word's, RES being the two together (R67, R140). -/
def Obligations.CfgReadReads : Prop :=
  ∀ (n : Width) (off : Half) (s : State), s.port.event.reply = .ok →
    (s.seq = .run .start → n ≠ .w8 → off.toNat % n.bytes = 0 →
      ∃ t, exec (.cfgRead n off) s = .next t ∧
        ReadOnly off.toNat n.bytes
          (.complete (.finishOk ((Memory.readLE s.seenCs off.toNat n.bytes).setWidth 64) 0#64)) s t) ∧
    (s.seq = .run .start → n = .w8 → off.toNat % 4 = 0 →
      ∃ t, exec (.cfgRead n off) s = .next t ∧
        ReadOnly off.toNat 4 (.readHigh (Memory.readLE s.seenCs off.toNat 4)) s t) ∧
    (∀ lo, s.seq = .run (.readHigh lo) → n = .w8 →
      ∃ t, exec (.cfgRead n off) s = .next t ∧
        ReadOnly (off.toNat + 4) 4
          (.complete (.finishOk (Memory.readLE s.seenCs (off.toNat + 4) 4 ++ lo) 0#64)) s t)

/-- CFG_WRITE: when aligned, in range and taken, 1, 2 or 4 bytes are one write of the value; 8 bytes are the low word's
write and then the high word's (R68, R141). -/
def Obligations.CfgWriteWrites : Prop :=
  ∀ (n : Width) (off : Half) (s : State), s.port.event.reply = .ok → Memory.wf s.cs = true →
    (s.seq = .run .start → n ≠ .w8 → off.toNat % n.bytes = 0 → s.lOpa.toNat < 2 ^ (8 * n.bytes) →
      ∃ t, exec (.cfgWrite n off) s = .next t ∧
        WroteOnly off.toNat n.bytes (s.lOpa.setWidth 32) (.complete (.finishOk 0#64 0#64)) s t) ∧
    (s.seq = .run .start → n = .w8 → off.toNat % 4 = 0 →
      ∃ t, exec (.cfgWrite n off) s = .next t ∧
        WroteOnly off.toNat 4 (s.lOpa.extractLsb' 0 32) .writeHigh s t) ∧
    (s.seq = .run .writeHigh → n = .w8 →
      ∃ t, exec (.cfgWrite n off) s = .next t ∧
        WroteOnly (off.toNat + 4) 4 (s.lOpa.extractLsb' 32 32) (.complete (.finishOk 0#64 0#64)) s t)

/-- A misaligned CFG_READ or CFG_WRITE completes ALIGNMENT_VIOLATION at its offset, before any range check, with no
transaction (R65, R140, R141, R254). -/
def Obligations.MisalignedAccessIssuesNothing : Prop :=
  ∀ (i : Instr) (n : Width) (off : Half) (s : State), i = .cfgRead n off ∨ i = .cfgWrite n off →
    s.seq = .run .start → off.toNat % min n.bytes 4 ≠ 0 →
    ∃ t, exec i s = .next t ∧ Completed s t 2#4 0#2 0#64 0#64 off.toNat ∧ KeptByCompletion s t ∧
      t.log = .completion (.raised (.alignmentViolation off.toNat)) :: s.log

/-- R255: VALUE_OUT_OF_RANGE comes before any transaction, from CFG_WRITE (aligned, but the value does not fit) and from
LINK_SET_TARGET_SPEED (a speed that is none of the six codes or the six GT/s patterns). -/
def Obligations.ValueOutOfRangeBeforeTransactions : Prop :=
  (∀ (n : Width) (off : Half) (s : State), s.seq = .run .start → off.toNat % min n.bytes 4 = 0 → n ≠ .w8 →
    2 ^ (8 * n.bytes) ≤ s.lOpa.toNat →
    ∃ t, exec (.cfgWrite n off) s = .next t ∧ Completed s t 3#4 0#2 0#64 0#64 0 ∧ KeptByCompletion s t ∧
      t.log = .completion (.raised .valueOutOfRange) :: s.log) ∧
  (∀ (f : Bool) (s : State), s.seq = .run .start →
    (s.lOpa.toNat = 0 ∨ 6 < s.lOpa.toNat →
      ∃ t, exec (.linkSetTargetSpeed .byCode f) s = .next t ∧ Completed s t 3#4 0#2 0#64 0#64 0 ∧
        KeptByCompletion s t ∧ t.log = .completion (.raised .valueOutOfRange) :: s.log) ∧
    (s.lOpa ∉ [0x4004000000000000#64, 0x4014000000000000#64, 0x4020000000000000#64, 0x4030000000000000#64,
        0x4040000000000000#64, 0x4050000000000000#64] →
      ∃ t, exec (.linkSetTargetSpeed .bySpeed f) s = .next t ∧ Completed s t 3#4 0#2 0#64 0#64 0 ∧
        KeptByCompletion s t ∧ t.log = .completion (.raised .valueOutOfRange) :: s.log))

/-- R142: on the ideal port a host program that writes a value in range at an aligned offset and reads it back ends with
the value in RES and CODE = OK; at a misaligned offset it ends ALIGNMENT_VIOLATION and neither command issues a
transaction. The host program is a list of actions (log 9). -/
def Obligations.WriteThenReadBack : Prop :=
  ∀ (n : Width) (off : Half) (v : Quad) (s : State), paramsLegal s.params = true → idealPort s →
    Memory.wf s.cs = true → s.seq = .idle → statusBusy s.status = false → v.toNat < 2 ^ (8 * n.bytes) →
    s.host = [.write 2 v, .write 0 ((encode (.cfgWrite n off)).setWidth 64), .awaitDone,
      .write 0 ((encode (.cfgRead n off)).setWidth 64), .awaitDone] →
    ∃ k t, Sys2Proof.core.run k s = .next t ∧ t.host = [] ∧ runEnded t = true ∧
      (off.toNat % min n.bytes 4 = 0 → statusCode t.status = 0#4 ∧ t.res = v) ∧
      (off.toNat % min n.bytes 4 ≠ 0 → statusCode t.status = 2#4 ∧ t.errAddr = off.setWidth 32 ∧ t.cs = s.cs ∧
        t.log = .completion (.raised (.alignmentViolation off.toNat)) ::
          .completion (.raised (.alignmentViolation off.toNat)) :: s.log)

/-! ### Capability walker (41_capability_walker.md) -/

/-- FIND_STD_CAP on the ideal port is the walk of R160: it completes within `4 + P_STD_TRIP_LIMIT` steps, OK with the
pre-masked offset or NOT_FOUND, and changes no byte (R160 to R166). -/
def Obligations.FindStdCapIsTheStandardWalk : Prop :=
  ∀ (imm : Half) (s : State), s.seq = .run .start → idealPort s →
    ∃ k t, k ≤ 4 + s.params.stdTripLimit ∧ runExec (.findStdCap imm) k s = .next t ∧ t.cs = s.cs ∧
      match stdWalk s.cs s.params.stdTripLimit (imm.extractLsb' 0 8) with
      | some off => Completed s t 0#4 0#2 (BitVec.ofNat 64 off) 0#64 0
      | none => Completed s t 1#4 0#2 0#64 0#64 0

/-- FIND_EXT_CAP on the ideal port is the walk of R167 under every choice of the parameters: it completes within
`1 + P_EXT_TRIP(cs)` steps, OK, NOT_FOUND or ALIGNMENT_VIOLATION, and changes no byte (R167 to R171). -/
def Obligations.FindExtCapIsTheExtendedWalk : Prop :=
  ∀ (imm : Half) (s : State), s.seq = .run .start → idealPort s →
    ∃ k t, k ≤ 1 + extTripLimit s.params.extTrip s.lOpa.toNat ∧ runExec (.findExtCap imm) k s = .next t ∧
      t.cs = s.cs ∧
      match extWalk s.cs s.params s.lOpa.toNat imm with
      | .found off => Completed s t 0#4 0#2 (BitVec.ofNat 64 off) 0#64 0
      | .notFound => Completed s t 1#4 0#2 0#64 0#64 0
      | .misaligned off => Completed s t 2#4 0#2 0#64 0#64 off

/-- FIND_STD_CAP, step by step, in the fields of R34 to R38: bit 4 of Status; bits [6:0] of the Header Type, which put the
pointer at 0x34 or 0x14 or end the walk; the first pointer; and at an entry the sentinel 0xFF in bits [7:0], which goes to
NOT_FOUND even when it is the ID looked for, then the match, which goes to OK with the pre-masked offset, then the move to
the next-pointer in bits [15:8]. An offset below 0x40 and a trip counter used up go to NOT_FOUND (R160 to R164, R166).
That these two tests are made in the step of the read before them is the model's reading of a step (log 8). -/
def Obligations.FindStdCapTakesTheEntry : Prop :=
  ∀ (imm : Half) (s : State), s.port.event.reply = .ok →
    (s.seq = .run .start ∨ s.seq = .run (.walk .main .status) →
      ∃ t, exec (.findStdCap imm) s = .next t ∧
        ReadOnly 0x06 2
          (if (Memory.readLE s.seenCs 0x06 2).getLsbD 4 then .walk .main .header else .complete .finishNotFound) s t) ∧
    (∀ ty, s.seq = .run (.walk .main .header) → ty = (Memory.readLE s.seenCs 0x0E 1).extractLsb' 0 7 →
      ∃ t, exec (.findStdCap imm) s = .next t ∧
        ReadOnly 0x0E 1
          (if ty = 0#7 ∨ ty = 1#7 then .walk .main (.pointer 0x34)
            else if ty = 2#7 then .walk .main (.pointer 0x14) else .complete .finishNotFound) s t) ∧
    (∀ pp c, s.seq = .run (.walk .main (.pointer pp)) → c = (Memory.readLE s.seenCs pp 1).toNat →
      ∃ t t', exec (.findStdCap imm) s = .next t ∧
        ReadOnly pp 1
          (if s.params.stdTripLimit = 0 ∨ c < 0x40 then .complete .finishNotFound else .walk .main .entry) s t' ∧
        t = { t' with cur := c, trip := if c = 0 then s.trip else s.params.stdTripLimit - 1 }) ∧
    ∀ e, s.seq = .run (.walk .main .entry) → e = Memory.readLE s.seenCs (s.cur &&& 0xFC) 2 →
      (e.extractLsb' 0 8 = imm.extractLsb' 0 8 → e.extractLsb' 0 8 ≠ 0xFF#8 →
        ∃ t, exec (.findStdCap imm) s = .next t ∧
          ReadOnly (s.cur &&& 0xFC) 2 (.complete (.finishOk (BitVec.ofNat 64 s.cur) 0#64)) s t) ∧
      (e.extractLsb' 0 8 = 0xFF#8 →
        ∃ t, exec (.findStdCap imm) s = .next t ∧ ReadOnly (s.cur &&& 0xFC) 2 (.complete .finishNotFound) s t) ∧
      (∀ nx, e.extractLsb' 0 8 ≠ imm.extractLsb' 0 8 → e.extractLsb' 0 8 ≠ 0xFF#8 → nx = (e.extractLsb' 8 8).toNat →
        ∃ t t', exec (.findStdCap imm) s = .next t ∧
          ReadOnly (s.cur &&& 0xFC) 2
            (if s.trip = 0 ∨ nx < 0x40 then .complete .finishNotFound else .walk .main .entry) s t' ∧
          t = { t' with cur := nx, trip := s.trip - 1 })

/-- FIND_EXT_CAP at a header, in the fields of R39. At an offset that is no multiple of 4 it raises ALIGNMENT_VIOLATION. A
header of all zeros or all ones goes to NOT_FOUND, whatever the ID looked for; the ID in bits [15:0] goes to OK with the
offset; otherwise the next-pointer is bits [31:20], with bits [1:0] cleared under MASK. It ends the walk when it is 0, CUR or
below 256, and under STOP when it is no multiple of 4; otherwise CUR moves to it, and the walk goes on unless the trip counter
is used up or the header would not fit in the size (R167 to R169). That these last two tests are made in the step of the read
before them is the model's reading of a step (log 8). -/
def Obligations.FindExtCapTakesTheHeader : Prop :=
  ∀ (imm : Half) (s : State) (h : Word), s.seq = .run .extEntry →
    (s.cur % 4 ≠ 0 →
      ∃ t, exec (.findExtCap imm) s = .next t ∧ Completed s t 2#4 0#2 0#64 0#64 s.cur ∧ KeptByCompletion s t ∧
        t.log = .completion (.raised (.alignmentViolation s.cur)) :: s.log) ∧
    (s.port.event.reply = .ok → s.cur % 4 = 0 → h = Memory.readLE s.seenCs s.cur 4 →
      (h.extractLsb' 0 16 = imm → h ≠ 0x00000000#32 → h ≠ 0xFFFFFFFF#32 →
        ∃ t, exec (.findExtCap imm) s = .next t ∧
          ReadOnly s.cur 4 (.complete (.finishOk (BitVec.ofNat 64 s.cur) 0#64)) s t) ∧
      (h = 0x00000000#32 ∨ h = 0xFFFFFFFF#32 →
        ∃ t, exec (.findExtCap imm) s = .next t ∧ ReadOnly s.cur 4 (.complete .finishNotFound) s t) ∧
      ∀ nx, h.extractLsb' 0 16 ≠ imm → h ≠ 0x00000000#32 → h ≠ 0xFFFFFFFF#32 →
        (s.params.extNextAlign = .mask → nx = (h.extractLsb' 20 12 &&& 0xFFC#12).toNat) →
        (s.params.extNextAlign = .fault ∨ s.params.extNextAlign = .stop → nx = (h.extractLsb' 20 12).toNat) →
        (nx = 0 ∨ nx = s.cur ∨ nx < 256 ∨ s.params.extNextAlign = .stop ∧ nx % 4 ≠ 0 →
          ∃ t, exec (.findExtCap imm) s = .next t ∧ ReadOnly s.cur 4 (.complete .finishNotFound) s t) ∧
        (256 ≤ nx → nx ≠ s.cur → (s.params.extNextAlign = .stop → nx % 4 = 0) →
          ∃ t t', exec (.findExtCap imm) s = .next t ∧
            ReadOnly s.cur 4
              (if s.trip = 0 ∨ s.lOpa.toNat < nx + 4 then .complete .finishNotFound else .extEntry) s t' ∧
            t = { t' with cur := nx, trip := s.trip - 1 }))

/-- From a state of the invariant the extended walk reads at 0x100 to 0xFFF and inside the size it was given (R170), and an
entry of the standard walk is read at 0x40 to 0xFC (R38). -/
def Obligations.WalkReadsStayInTheirRegions : Prop :=
  (∀ (imm : Half) (s t : State) (tr : Transaction) (a : Answer), s.inv = true →
    decode s.lCmd = .ok (.findExtCap imm) → exec (.findExtCap imm) s = .next t → t.log = .transaction tr a :: s.log →
    0x100 ≤ tr.off ∧ tr.off ≤ 0xFFF ∧ tr.off + 4 ≤ s.lOpa.toNat) ∧
  (∀ (i : Instr) (s t : State) (site : Site) (tr : Transaction) (a : Answer), s.inv = true →
    decode s.lCmd = .ok i → s.seq = .run (.walk site .entry) → exec i s = .next t →
    t.log = .transaction tr a :: s.log → 0x40 ≤ tr.off ∧ tr.off ≤ 0xFC ∧ tr.off % 4 = 0)

/-! ### Link controller (42_link_controller.md) -/

/-- R195 and R197: the codes 1 to 6 name themselves, the six GT/s patterns name them in order, and nothing else is a
speed. -/
def Obligations.SpeedTables : Prop :=
  ∀ (a : Quad) (c : BitVec 4),
    (normSpeed .byCode a = some c ↔ 1 ≤ a.toNat ∧ a.toNat ≤ 6 ∧ c.toNat = a.toNat) ∧
    (normSpeed .bySpeed a = some c ↔ gts c = some a) ∧
    ((gts c).isSome = true ↔ 1 ≤ c.toNat ∧ c.toNat ≤ 6) ∧
    (gts c = some 0x4004000000000000#64 ↔ c = 1#4) ∧ (gts c = some 0x4014000000000000#64 ↔ c = 2#4) ∧
    (gts c = some 0x4020000000000000#64 ↔ c = 3#4) ∧ (gts c = some 0x4030000000000000#64 ↔ c = 4#4) ∧
    (gts c = some 0x4040000000000000#64 ↔ c = 5#4) ∧ (gts c = some 0x4050000000000000#64 ↔ c = 6#4)

/-- LINK_ENABLE's write: Link Control as read, with bit 4 clear, to BASE + 0x10 and nowhere else (R192). -/
def Obligations.LinkEnableClearsLinkDisable : Prop :=
  ∀ s : State, s.seq = .run .rmwWrite → s.base % 2 = 0 → s.port.event.reply = .ok → Memory.wf s.cs = true →
    ∃ t, exec .linkEnable s = .next t ∧
      WroteOnly (s.base + 0x10) 2 ((s.v.setWidth 16 &&& ~~~0x0010#16).setWidth 32)
        (.complete (.finishOk 0#64 0#64)) s t

/-- LINK_DISABLE's write: Link Control as read, with bit 4 set, to BASE + 0x10 and nowhere else (R193). -/
def Obligations.LinkDisableSetsLinkDisable : Prop :=
  ∀ s : State, s.seq = .run .rmwWrite → s.base % 2 = 0 → s.port.event.reply = .ok → Memory.wf s.cs = true →
    ∃ t, exec .linkDisable s = .next t ∧
      WroteOnly (s.base + 0x10) 2 ((s.v.setWidth 16 ||| 0x0010#16).setWidth 32)
        (.complete (.finishOk 0#64 0#64)) s t

/-- LINK_RETRAIN's writes: bit 5 set; with clearAfter then, from a fresh read under REREAD or from the first under REUSE,
bit 5 clear; each to BASE + 0x10 and nowhere else (R194). -/
def Obligations.LinkRetrainSetsThenClears : Prop :=
  ∀ (f : Bool) (s : State), s.base % 2 = 0 → s.port.event.reply = .ok → Memory.wf s.cs = true →
    (s.seq = .run .rmwWrite →
      ∃ t, exec (.linkRetrain f) s = .next t ∧
        WroteOnly (s.base + 0x10) 2 ((s.v.setWidth 16 ||| 0x0020#16).setWidth 32)
          (if f = false then .complete (.finishOk 0#64 0#64)
            else if s.params.retrainClear = .reread then .clearRead else .clearWrite) s t) ∧
    (s.seq = .run .clearRead → f = true →
      ∃ t t', exec (.linkRetrain f) s = .next t ∧ ReadOnly (s.base + 0x10) 2 .clearWrite s t' ∧
        t = { t' with v := Memory.readLE s.seenCs (s.base + 0x10) 2 }) ∧
    (s.seq = .run .clearWrite → f = true →
      ∃ t, exec (.linkRetrain f) s = .next t ∧
        WroteOnly (s.base + 0x10) 2 ((s.v.setWidth 16 &&& ~~~0x0020#16).setWidth 32)
          (.complete (.finishOk 0#64 0#64)) s t)

/-- LINK_SET_CONTROL_BITS's write: Link Control as read with the mask's bits set (enable) or clear, to BASE + 0x10 and
nowhere else (R201). -/
def Obligations.LinkSetControlBitsAppliesMask : Prop :=
  ∀ (f : Bool) (imm : Half) (s : State), s.seq = .run .rmwWrite → s.base % 2 = 0 → s.port.event.reply = .ok →
    Memory.wf s.cs = true →
    ∃ t, exec (.linkSetControlBits f imm) s = .next t ∧
      WroteOnly (s.base + 0x10) 2
        ((if f then s.v.setWidth 16 ||| imm else s.v.setWidth 16 &&& ~~~imm).setWidth 32)
        (.complete (.finishOk 0#64 0#64)) s t

/-- Step 1 of every Link Control read-modify-write: one 2-byte read at BASE + 0x10 into V, then the write (R82, R192 to
R194, R196, R201). -/
def Obligations.LinkControlIsReadFirst : Prop :=
  ∀ (i : Instr) (s : State),
    i = .linkEnable ∨ i = .linkDisable ∨ (∃ f, i = .linkRetrain f) ∨ (∃ f imm, i = .linkSetControlBits f imm) ∨
      (∃ k, i = .linkSetTargetSpeed k true ∧ normSpeed k s.lOpa ≠ none) →
    s.seq = .run .rmwRead → s.base % 2 = 0 → s.port.event.reply = .ok →
    ∃ t t', exec i s = .next t ∧ ReadOnly (s.base + 0x10) 2 .rmwWrite s t' ∧
      t = { t' with v := Memory.readLE s.seenCs (s.base + 0x10) 2 }

/-- LINK_ENABLE, LINK_DISABLE, LINK_RETRAIN and LINK_SET_CONTROL_BITS, run on the ideal port over a device with the PCI
Express capability at an even offset: they complete OK, Link Control ends at the value the rules give (after both writes,
where LINK_RETRAIN clears the bit again), and no other byte of the configuration space has changed (R190 to R194, R201,
R202). -/
def Obligations.LinkControlCommandsRun : Prop :=
  ∀ (i : Instr) (f : Half → Half) (s : State) (b : Nat),
    (i = .linkEnable ∧ f = fun lc => lc &&& ~~~0x0010#16) ∨ (i = .linkDisable ∧ f = fun lc => lc ||| 0x0010#16) ∨
      (i = .linkRetrain false ∧ f = fun lc => lc ||| 0x0020#16) ∨
      (i = .linkRetrain true ∧ f = fun lc => lc &&& ~~~0x0020#16) ∨
      (∃ imm, i = .linkSetControlBits true imm ∧ f = fun lc => lc ||| imm) ∨
      (∃ imm, i = .linkSetControlBits false imm ∧ f = fun lc => lc &&& ~~~imm) →
    s.seq = .run .start → idealPort s → Memory.wf s.cs = true →
    stdWalk s.cs s.params.stdTripLimit s.params.pcieCapId = some b → b % 2 = 0 →
    ∃ k t, runExec i k s = .next t ∧ Completed s t 0#4 0#2 0#64 0#64 0 ∧
      Memory.readLE t.cs (b + 0x10) 2 = (f ((Memory.readLE s.cs (b + 0x10) 2).setWidth 16)).setWidth 32 ∧
      ∀ a, a < b + 0x10 ∨ b + 0x12 ≤ a → Memory.read t.cs a = Memory.read s.cs a

/-- LINK_SET_TARGET_SPEED's write: Link Control 2 as read with the speed code in bits [3:0], to BASE + 0x30 and nowhere
else; then, with retrain, a walk of its own, and otherwise the completion (R196). -/
def Obligations.SetTargetSpeedWritesLinkControl2 : Prop :=
  ∀ (k : SpeedKind) (f : Bool) (s : State) (code : BitVec 4), normSpeed k s.lOpa = some code → s.base % 2 = 0 →
    s.port.event.reply = .ok → Memory.wf s.cs = true →
    (s.seq = .run .speedRead →
      ∃ t t', exec (.linkSetTargetSpeed k f) s = .next t ∧ ReadOnly (s.base + 0x30) 2 .speedWrite s t' ∧
        t = { t' with v := Memory.readLE s.seenCs (s.base + 0x30) 2 }) ∧
    (s.seq = .run .speedWrite →
      ∃ t, exec (.linkSetTargetSpeed k f) s = .next t ∧
        WroteOnly (s.base + 0x30) 2 (((s.v.setWidth 16 &&& 0xFFF0#16) ||| code.setWidth 16).setWidth 32)
          (if f then .walk .retrain .status else .complete (.finishOk 0#64 0#64)) s t) ∧
    (s.seq = .run .rmwWrite → f = true →
      ∃ t, exec (.linkSetTargetSpeed k f) s = .next t ∧
        WroteOnly (s.base + 0x10) 2 ((s.v.setWidth 16 ||| 0x0020#16).setWidth 32)
          (.complete (.finishOk 0#64 0#64)) s t)

/-- LINK_SET_TARGET_SPEED, run on the ideal port over a device with a capability of version 2 or more at an even offset:
Link Control 2 takes the code in bits [3:0], its other bits kept. Without retrain that is all and it completes OK. With
retrain, the capability is walked to again over the bytes that write left: at an even offset, bit 5 of Link Control there is
set too, no other byte has changed, and it completes OK; at an odd offset it completes ALIGNMENT_VIOLATION at Link Control.
Where other agents have changed bytes about that write and the second walk finds no capability, it completes NOT_FOUND. In
both these ends Link Control 2 is written already (R43, R196). -/
def Obligations.SetTargetSpeedRuns : Prop :=
  (∀ (k : SpeedKind) (code : BitVec 4) (s : State) (b : Nat) (m : Memory), normSpeed k s.lOpa = some code →
    s.seq = .run .start → idealPort s → Memory.wf s.cs = true →
    stdWalk s.cs s.params.stdTripLimit s.params.pcieCapId = some b → b % 2 = 0 →
    2#4 ≤ (Memory.readLE s.cs (b + 2) 2).extractLsb' 0 4 →
    m = Memory.writeLE s.cs (b + 0x30) 2 ((Memory.readLE s.cs (b + 0x30) 2 &&& 0xFFFFFFF0#32) ||| code.setWidth 32) →
    (∃ n t, runExec (.linkSetTargetSpeed k false) n s = .next t ∧ Completed s t 0#4 0#2 0#64 0#64 0 ∧ t.cs = m) ∧
    (∀ c, stdWalk m s.params.stdTripLimit s.params.pcieCapId = some c →
      (c % 2 = 0 → ∃ n t, runExec (.linkSetTargetSpeed k true) n s = .next t ∧ Completed s t 0#4 0#2 0#64 0#64 0 ∧
        Memory.readLE t.cs (c + 0x10) 2 = Memory.readLE m (c + 0x10) 2 ||| 0x00000020#32 ∧
        ∀ a, a < c + 0x10 ∨ c + 0x12 ≤ a → Memory.read t.cs a = Memory.read m a) ∧
      (c % 2 = 1 → ∃ n t, runExec (.linkSetTargetSpeed k true) n s = .next t ∧
        Completed s t 2#4 0#2 0#64 0#64 (c + 0x10) ∧ t.cs = m))) ∧
  ∀ (k : SpeedKind) (code : BitVec 4) (s : State) (first second : PortEvent) (v : Word) (m : Memory),
    normSpeed k s.lOpa = some code → s.seq = .run .speedWrite → s.base % 2 = 0 →
    s.port.script = [first, second] → s.port.tail = .ideal → first.reply = .ok → second.reply = .ok →
    v = ((s.v.setWidth 16 &&& 0xFFF0#16) ||| code.setWidth 16).setWidth 32 →
    m = Memory.apply (Memory.writeLE (Memory.apply s.cs first.others) (s.base + 0x30) 2 v) second.others →
    stdWalk m s.params.stdTripLimit s.params.pcieCapId = none →
    ∃ n t, runExec (.linkSetTargetSpeed k true) n s = .next t ∧ Completed s t 1#4 0#2 0#64 0#64 0 ∧ t.cs = m ∧
      .transaction (.write (s.base + 0x30) 2 v) (.ok v) ∈ t.log

/-- R256: UNSUPPORTED_OPERATION comes after the one read that decides it and before any write: LINK_SET_TARGET_SPEED when
the capability version is below 2, HOT_RESET when the header type is not 1; otherwise both go on. LINK_SET_TARGET_SPEED, run
on the ideal port over a device with a capability of version 0 or 1 at an even offset, completes so without a write (R196). -/
def Obligations.UnsupportedOperationBeforeWrites : Prop :=
  (∀ s : State, s.port.event.reply = .ok →
    (∀ (k : SpeedKind) (f : Bool), s.seq = .run .version → s.base % 2 = 0 → normSpeed k s.lOpa ≠ none →
      ∃ t, exec (.linkSetTargetSpeed k f) s = .next t ∧
        ReadOnly (s.base + 0x02) 2
          (if (Memory.readLE s.seenCs (s.base + 0x02) 2).extractLsb' 0 4 < 2#4
            then .complete (.raised .unsupportedOperation) else .speedRead) s t) ∧
    (s.seq = .run .start →
      ∃ t, exec .hotReset s = .next t ∧
        ReadOnly 0x0E 1
          (if (Memory.readLE s.seenCs 0x0E 1).extractLsb' 0 7 = 1#7
            then .rmwRead else .complete (.raised .unsupportedOperation)) s t)) ∧
  ∀ (k : SpeedKind) (f : Bool) (s : State) (b : Nat), s.seq = .run .start → idealPort s → normSpeed k s.lOpa ≠ none →
    stdWalk s.cs s.params.stdTripLimit s.params.pcieCapId = some b → b % 2 = 0 →
    (Memory.readLE s.cs (b + 2) 2).extractLsb' 0 4 < 2#4 →
    ∃ n t, runExec (.linkSetTargetSpeed k f) n s = .next t ∧ Completed s t 4#4 0#2 0#64 0#64 0 ∧ t.cs = s.cs ∧
      NoWriteSince s t

/-- LINK_READ_STATUS at its read: RES packs the fields of Link Status as R198 lays them out, RES2 is the speed's binary64
pattern or 0, and no byte is written. Run on the ideal port over a device with the capability at an even offset, it
completes OK with those results. -/
def Obligations.LinkReadStatusDecodes : Prop :=
  ∀ (s : State) (ls : Word), ∃ res res2,
    res.toNat = ls.toNat % 16 + (if 1 ≤ ls.toNat % 16 ∧ ls.toNat % 16 ≤ 6 then 2 ^ 4 else 0) +
      ls.toNat / 2 ^ 4 % 2 ^ 6 * 2 ^ 5 + ls.toNat / 2 ^ 11 % 2 * 2 ^ 11 + ls.toNat / 2 ^ 13 % 2 * 2 ^ 12 +
      ls.toNat % 2 ^ 16 * 2 ^ 16 ∧
    (gts (ls.extractLsb' 0 4) = some res2 ∨ (gts (ls.extractLsb' 0 4) = none ∧ res2 = 0#64)) ∧
    (s.seq = .run .statusRead → s.base % 2 = 0 → s.port.event.reply = .ok →
      ls = Memory.readLE s.seenCs (s.base + 0x12) 2 →
      ∃ t, exec .linkReadStatus s = .next t ∧ ReadOnly (s.base + 0x12) 2 (.complete (.finishOk res res2)) s t) ∧
    (∀ b, s.seq = .run .start → idealPort s → stdWalk s.cs s.params.stdTripLimit s.params.pcieCapId = some b →
      b % 2 = 0 → ls = Memory.readLE s.cs (b + 0x12) 2 →
      ∃ n t, runExec .linkReadStatus n s = .next t ∧ Completed s t 0#4 0#2 res res2 0 ∧ t.cs = s.cs)

/-- LINK_WAIT_FOR_TRAINING, step by step: the deadline is one sample of NOW plus L_OPA; a poll that reads LT = 0 goes to OK
with RES = 1; a poll that reads LT = 1 goes to a sample, which at or past the deadline goes to OK with RES = 0 and otherwise
to a Sleep of L_OPB, or straight to the next poll when that is 0 (R83, R199, R264). -/
def Obligations.WaitForTrainingSteps : Prop :=
  ∀ s : State,
    (s.seq = .run .start →
      ∃ t, exec .linkWaitForTraining s = .next t ∧ t.deadline = t.now + s.lOpa.toNat ∧
        t = { s with
          now := s.now + s.clock.tick, clock := s.clock.advance, deadline := t.deadline,
          seq := .run (.walk .main .status), log := .now t.now :: s.log }) ∧
    (s.seq = .run .statusRead → s.base % 2 = 0 → s.port.event.reply = .ok →
      ∃ t t', exec .linkWaitForTraining s = .next t ∧
        ReadOnly (s.base + 0x12) 2
          (if (Memory.readLE s.seenCs (s.base + 0x12) 2).getLsbD 11 then .deadlineCheck
            else .complete (.finishOk 1#64 0#64)) s t' ∧
        t = { t' with v := Memory.readLE s.seenCs (s.base + 0x12) 2 }) ∧
    (s.seq = .run .deadlineCheck →
      ∃ t, exec .linkWaitForTraining s = .next t ∧
        t = { s with
          now := s.now + s.clock.tick, clock := s.clock.advance, log := .now t.now :: s.log,
          seq := .run (if s.deadline ≤ t.now then .complete (.finishOk 0#64 0#64)
            else if s.lOpb = 0#64 then .walk .main .status else .sleepStart) }) ∧
    (s.seq = .run .sleepStart →
      ∃ t, exec .linkWaitForTraining s = .next t ∧
        t = { s with
          now := s.now + s.clock.tick, clock := s.clock.advance, log := .now t.now :: s.log,
          seq := .sleep (t.now + s.lOpb.toNat) (.walk .main .status) })

/-- LINK_WAIT_FOR_TRAINING, run on the ideal port and the ideal clock over a device with the capability at an even offset:
OK with RES = 1 when Link Training reads 0; OK with RES = 0 when it stays 1 and the timeout is 0 or the poll interval is not
(R199, R264; the ideal clock is the model's, log 6). -/
def Obligations.WaitForTrainingRuns : Prop :=
  ∀ (s : State) (b : Nat), s.seq = .run .start → idealPort s → idealClock s →
    stdWalk s.cs s.params.stdTripLimit s.params.pcieCapId = some b → b % 2 = 0 →
    ((Memory.readLE s.cs (b + 0x12) 2).getLsbD 11 = false →
      ∃ n t, runExec .linkWaitForTraining n s = .next t ∧ Completed s t 0#4 0#2 1#64 0#64 0 ∧ t.cs = s.cs ∧
        t.now = s.now) ∧
    ((Memory.readLE s.cs (b + 0x12) 2).getLsbD 11 = true → s.lOpa = 0#64 ∨ s.lOpb ≠ 0#64 →
      ∃ n t, runExec .linkWaitForTraining n s = .next t ∧ Completed s t 0#4 0#2 0#64 0#64 0 ∧ t.cs = s.cs ∧
        s.now + s.lOpa.toNat ≤ t.now)

/-- HOT_RESET's writes to Bridge Control: bit 6 set, then, past the Sleep of the delay, clear, from a fresh read under REREAD
or from the first under REUSE; each to 0x3E and nowhere else (R37, R83, R200). The Sleep begins with a sample of NOW and
holds the point it resumes at. -/
def Obligations.HotResetPulsesSecondaryBusReset : Prop :=
  ∀ s : State, s.port.event.reply = .ok → Memory.wf s.cs = true →
    (s.seq = .run .rmwRead →
      ∃ t t', exec .hotReset s = .next t ∧ ReadOnly 0x3E 2 .rmwWrite s t' ∧
        t = { t' with v := Memory.readLE s.seenCs 0x3E 2 }) ∧
    (s.seq = .run .rmwWrite →
      ∃ t, exec .hotReset s = .next t ∧
        WroteOnly 0x3E 2 ((s.v.setWidth 16 ||| 0x0040#16).setWidth 32)
          (if s.lOpa ≠ 0#64 then .sleepStart
            else if s.params.hotResetClear = .reread then .clearRead else .clearWrite) s t) ∧
    (s.seq = .run .sleepStart →
      ∃ t, exec .hotReset s = .next t ∧
        t = { s with
          now := s.now + s.clock.tick, clock := s.clock.advance, log := .now t.now :: s.log,
          seq := .sleep (t.now + s.lOpa.toNat)
            (if s.params.hotResetClear = .reread then .clearRead else .clearWrite) }) ∧
    (s.seq = .run .clearRead →
      ∃ t t', exec .hotReset s = .next t ∧ ReadOnly 0x3E 2 .clearWrite s t' ∧
        t = { t' with v := Memory.readLE s.seenCs 0x3E 2 }) ∧
    (s.seq = .run .clearWrite →
      ∃ t, exec .hotReset s = .next t ∧
        WroteOnly 0x3E 2 ((s.v.setWidth 16 &&& ~~~0x0040#16).setWidth 32) (.complete (.finishOk 0#64 0#64)) s t)

/-- HOT_RESET, run on the ideal port and the ideal clock over a bridge: it completes OK, at least the delay later, with bit
6 of Bridge Control clear, its other bits kept, and no other byte changed (R200; the ideal clock is the model's, log 6). -/
def Obligations.HotResetRuns : Prop :=
  ∀ s : State, s.seq = .run .start → idealPort s → idealClock s → Memory.wf s.cs = true →
    (Memory.readLE s.cs 0x0E 1).extractLsb' 0 7 = 1#7 →
    ∃ n t, runExec .hotReset n s = .next t ∧ Completed s t 0#4 0#2 0#64 0#64 0 ∧ s.now + s.lOpa.toNat ≤ t.now ∧
      Memory.readLE t.cs 0x3E 2 = Memory.readLE s.cs 0x3E 2 &&& ~~~0x00000040#32 ∧
      ∀ a, a < 0x3E ∨ 0x40 ≤ a → Memory.read t.cs a = Memory.read s.cs a

/-- R83: `Sleep(0)` takes no step; `Sleep(d)` is a sample `t`, then SLEEP(t + d); a sleeping command issues nothing and
resumes at its point at a sample that has reached the wake time, never earlier, whatever the command. -/
def Obligations.SleepLastsAtLeastItsTime : Prop :=
  (∀ (d : Quad) (p : Point) (s : State), sleepNext d p s = (if d = 0#64 then goto p s else goto .sleepStart s)) ∧
  (∀ (d : Quad) (p : Point) (s : State),
    (beginSleep d p s).seq = .sleep ((beginSleep d p s).now + d.toNat) p ∧
    (beginSleep d p s).log = .now (beginSleep d p s).now :: s.log) ∧
  (∀ (i : Instr) (s : State) (wake : Nat) (p : Point), s.seq = .sleep wake p →
    ∃ t, exec i s = .next t ∧ s.now ≤ t.now ∧
      t = { s with now := t.now, clock := s.clock.advance, seq := t.seq, log := t.log } ∧
      (wake ≤ t.now → t.seq = .run p ∧ t.log = .wake t.now :: s.log) ∧
      (t.now < wake → t.seq = s.seq ∧ t.log = s.log))

/-- A link command whose BASE is odd raises ALIGNMENT_VIOLATION at the first 2-byte access after its walk, with no
transaction there; so does LINK_SET_TARGET_SPEED at the read of Link Control after the second walk (R191, R196). -/
def Obligations.OddBaseIsMisaligned : Prop :=
  ∀ (i : Instr) (p : Point) (d : Nat) (s : State), s.seq = .run p → s.base % 2 = 1 →
    (p = .rmwRead ∧ d = 0x10 ∧
      (i = .linkEnable ∨ i = .linkDisable ∨ (∃ f, i = .linkRetrain f) ∨ (∃ f imm, i = .linkSetControlBits f imm) ∨
        ∃ k, i = .linkSetTargetSpeed k true ∧ normSpeed k s.lOpa ≠ none)) ∨
    (p = .statusRead ∧ d = 0x12 ∧ (i = .linkReadStatus ∨ i = .linkWaitForTraining)) ∨
    (p = .version ∧ d = 0x02 ∧ ∃ k f, i = .linkSetTargetSpeed k f ∧ normSpeed k s.lOpa ≠ none) →
    ∃ t, exec i s = .next t ∧ Completed s t 2#4 0#2 0#64 0#64 (s.base + d) ∧ KeptByCompletion s t ∧
      t.log = .completion (.raised (.alignmentViolation (s.base + d))) :: s.log

/-- Every link command but HOT_RESET, run on the ideal port over a device without the PCI Express capability, completes
NOT_FOUND, and nothing it adds to the record is a write (R190; a bad speed is VALUE_OUT_OF_RANGE before it). -/
def Obligations.AbsentCapabilityIsNotFound : Prop :=
  ∀ (i : Instr) (s : State),
    i = .linkEnable ∨ i = .linkDisable ∨ (∃ f, i = .linkRetrain f) ∨ (∃ f imm, i = .linkSetControlBits f imm) ∨
      i = .linkReadStatus ∨ i = .linkWaitForTraining ∨
      (∃ k f, i = .linkSetTargetSpeed k f ∧ normSpeed k s.lOpa ≠ none) →
    s.seq = .run .start → idealPort s → stdWalk s.cs s.params.stdTripLimit s.params.pcieCapId = none →
    ∃ n t, runExec i n s = .next t ∧ Completed s t 1#4 0#2 0#64 0#64 0 ∧ t.cs = s.cs ∧ NoWriteSince s t

/-- R111: LINK_ENABLE, LINK_DISABLE and LINK_RETRAIN 0 take the same steps as LINK_SET_CONTROL_BITS with their mask, on
every port answer. -/
def Obligations.EquivalentCommands : Prop :=
  ∀ (n : Nat) (s : State),
    runExec .linkEnable n s = runExec (.linkSetControlBits false 0x0010#16) n s ∧
    runExec .linkDisable n s = runExec (.linkSetControlBits true 0x0010#16) n s ∧
    runExec (.linkRetrain false) n s = runExec (.linkSetControlBits true 0x0020#16) n s

/-! ### The assembler (30_encoding.md) -/

/-- R109: the host writes that each line assembles to, their CMD words as its arithmetic gives them; and the refusal of
every operand that does not fit its field. That OPA and OPB operands of 2^64 and above do not fit is the model's reading
(log 16). -/
def Obligations.AssembledWords : Prop :=
  (∀ (k off : Nat), k < 4 → off < 2 ^ 16 → ∀ v < 2 ^ 64,
    assemble (.cfgRead (2 ^ k) off) = some [.write 0 (BitVec.ofNat 64 (0x01 + k * 2 ^ 5 + off * 2 ^ 16))] ∧
    assemble (.cfgWrite (2 ^ k) off v) =
      some [.write 2 (BitVec.ofNat 64 v), .write 0 (BitVec.ofNat 64 (0x02 + k * 2 ^ 5 + off * 2 ^ 16))]) ∧
  (∀ id < 2 ^ 8, assemble (.findStdCap id) = some [.write 0 (BitVec.ofNat 64 (0x03 + id * 2 ^ 16))]) ∧
  (∀ id < 2 ^ 16, ∀ size < 2 ^ 64,
    assemble (.findExtCap id size) =
      some [.write 2 (BitVec.ofNat 64 size), .write 0 (BitVec.ofNat 64 (0x04 + id * 2 ^ 16))]) ∧
  assemble .linkEnable = some [.write 0 0x05#64] ∧ assemble .linkDisable = some [.write 0 0x06#64] ∧
  assemble .linkReadStatus = some [.write 0 0x09#64] ∧
  (∀ f < 2, assemble (.linkRetrain f) = some [.write 0 (BitVec.ofNat 64 (0x07 + f * 2 ^ 7))] ∧
    (∀ c < 2 ^ 64, assemble (.setSpeedCode c f) =
      some [.write 2 (BitVec.ofNat 64 c), .write 0 (BitVec.ofNat 64 (0x08 + f * 2 ^ 7))]) ∧
    (∀ x : Quad, assemble (.setSpeedGts x f) =
      some [.write 2 x, .write 0 (BitVec.ofNat 64 (0x08 + f * 2 ^ 7 + 2 ^ 8))]) ∧
    ∀ mask < 2 ^ 16,
      assemble (.setControlBits mask f) = some [.write 0 (BitVec.ofNat 64 (0x0C + f * 2 ^ 7 + mask * 2 ^ 16))]) ∧
  (∀ t < 2 ^ 64, ∀ p < 2 ^ 64,
    assemble (.linkWaitForTraining t p) =
      some [.write 2 (BitVec.ofNat 64 t), .write 3 (BitVec.ofNat 64 p), .write 0 0x0A#64] ∧
    assemble (.hotReset t) = some [.write 2 (BitVec.ofNat 64 t), .write 0 0x0B#64]) ∧
  (∀ n off, n ∉ [1, 2, 4, 8] ∨ 2 ^ 16 ≤ off →
    assemble (.cfgRead n off) = none ∧ ∀ v, assemble (.cfgWrite n off v) = none) ∧
  (∀ w : Word, assemble (.word w) = some [.write 0 (w.setWidth 64)]) ∧
  (∀ x : Quad, assemble (.opa x) = some [.write 2 x] ∧ assemble (.opb x) = some [.write 3 x]) ∧
  (∀ id, 2 ^ 8 ≤ id → assemble (.findStdCap id) = none) ∧
  (∀ id size, 2 ^ 16 ≤ id ∨ 2 ^ 64 ≤ size → assemble (.findExtCap id size) = none) ∧
  (∀ f, 2 ≤ f → assemble (.linkRetrain f) = none) ∧
  (∀ c f, 2 ^ 64 ≤ c ∨ 2 ≤ f → assemble (.setSpeedCode c f) = none) ∧
  (∀ (x : Quad) (f : Nat), 2 ≤ f → assemble (.setSpeedGts x f) = none) ∧
  (∀ n off v, 2 ^ 64 ≤ v → assemble (.cfgWrite n off v) = none) ∧
  (∀ t p, 2 ^ 64 ≤ t ∨ 2 ^ 64 ≤ p → assemble (.linkWaitForTraining t p) = none) ∧
  (∀ d, 2 ^ 64 ≤ d → assemble (.hotReset d) = none) ∧
  ∀ mask f, 2 ^ 16 ≤ mask ∨ 2 ≤ f → assemble (.setControlBits mask f) = none

/-- R110: the pseudo-commands expand as its table shows; LINK_RETRAIN_AND_WAIT is two commands with a wait for DONE
between. That FIND_PCIE_CAP keeps the literal 0x10 under every P_PCIE_CAP_ID is the model's choice (log 17). -/
def Obligations.PseudoCommands : Prop :=
  assemble .findPcieCap = assemble (.findStdCap 0x10) ∧
  (∀ t p a b, assemble (.linkRetrain 0) = some a → assemble (.linkWaitForTraining t p) = some b →
    assemble (.retrainAndWait t p) = some (a ++ [.awaitDone] ++ b)) ∧
  ∀ g, assemble (.setSpeedAndRetrain g) = assemble (.setSpeedGts g 1)

/-! ### The whole machine -/

/-- R33: NOW never decreases, whatever happens in a step. -/
def Obligations.TimeNeverDecreases : Prop :=
  ∀ s t : State, step s = .next t → s.now ≤ t.now

/-- The invariant holds after reset (the values of what reset does not set are the model's, log 1, 2). -/
def Obligations.ResetHasInvariant : Prop := State.reset.inv = true

/-- Every step keeps the invariant, in every state that has it: the configuration space stays in canonical form; the
reserved bits of STATUS stay 0, BUSY and DONE exclude each other and BUSY says whether a command runs; CODE, IOKIND, RES,
RES2 and ERRADDR agree; the program point belongs to the latched command, with CUR in its range (R23 to R27, R30). -/
def Obligations.StepKeepsInvariant : Prop :=
  ∀ s t : State, s.inv = true → step s = .next t → t.inv = true

/-- In a state of the invariant no step faults. -/
def Obligations.NoFaultUnderInvariant : Prop :=
  ∀ (s : State) (f : Fault), s.inv = true → step s ≠ .fault f

/-- R303: every command other than LINK_WAIT_FOR_TRAINING and HOT_RESET completes, within a number of steps set by the trip
limits alone, whatever the port answers, provided it answers. -/
def Obligations.CommandsTerminate : Prop :=
  ∀ (i : Instr) (s : State), i ≠ .linkWaitForTraining → i ≠ .hotReset → s.seq = .run .start →
    s.port.tail = .ideal → (∀ e ∈ s.port.script, e.reply ≠ .silent) →
    ∃ k t, k ≤ 2 * (3 + s.params.stdTripLimit) + extTripLimit s.params.extTrip s.lOpa.toNat + 8 ∧
      runExec i k s = .next t ∧ t.seq = .idle ∧ statusDone t.status = true

/-- R31 and R291: what CUR, TRIP, BASE, V and DEADLINE held when a command was issued never matters: every step of the
command goes the same way and shows the same, but for those registers themselves. -/
def Obligations.StaleRegistersNeverMatter : Prop :=
  ∀ (i : Instr) (n : Nat) (s t : State) (cur trip base deadline : Nat) (v : Word), s.seq = .run .start →
    runExec i n s = .next t →
    ∃ t', runExec i n { s with cur := cur, trip := trip, base := base, v := v, deadline := deadline } = .next t' ∧
      { t' with cur := t.cur, trip := t.trip, base := t.base, v := t.v, deadline := t.deadline } = t
end

