-- ==== Sys2Proof/Laws/Decode.lean ====
section
/-! SUPPORT. Everything the decoder can answer (30_encoding.md R104 to R106). -/

namespace Sys2Proof

/-- A word that decodes selects a row of the map, and the row reads its operands (R104, R105). -/
theorem decode_ok {w : Word} {i : Instr} (h : decode w = .ok i) :
    ∃ r ∈ opcodeMap, w &&& r.mask = r.pattern ∧ i = r.read w := by
  unfold decode at h
  split at h
  · next r hr =>
    cases h
    exact ⟨r, List.mem_of_find?_eq_some hr, by simpa [OpcodeRow.selects] using List.find?_some hr, rfl⟩
  · split at h <;> cases h

/-- The illegal words are those that select no row (R105, R106). -/
theorem decode_error_iff (w : Word) :
    (∃ e, decode w = .error e) ↔ ∀ r ∈ opcodeMap, w &&& r.mask ≠ r.pattern := by
  unfold decode
  split
  · next r hr =>
    refine ⟨fun he => (nomatch he), fun h => absurd ?_ (h r (List.mem_of_find?_eq_some hr))⟩
    simpa [OpcodeRow.selects] using List.find?_some hr
  · next hr =>
    refine ⟨fun _ r hm => by simpa [OpcodeRow.selects] using List.find?_eq_none.mp hr r hm, fun _ => ?_⟩
    split <;> exact ⟨_, rfl⟩

end Sys2Proof
end

