-- ==== Sys2Proof/Laws/Memory.lean ====
section
/-! SUPPORT. Bytes of configuration space: read after write, what a write leaves alone, little-endian round trips, and
that every operation keeps the canonical form. -/

namespace Sys2Proof.Machine

/-! ### One byte -/

@[simp] theorem Memory.read_nil (a : Nat) : Memory.read [] a = Memory.unlisted := rfl

theorem Memory.read_cons (k : Nat) (b : Byte) (m : Memory) (a : Nat) :
    Memory.read ((k, b) :: m) a = if k = a then b else Memory.read m a := rfl

/-- A write leaves every other byte alone. -/
theorem Memory.read_write_of_ne (m : Memory) {a c : Nat} (b : Byte) (h : c ≠ a) :
    Memory.read (Memory.write m a b) c = Memory.read m c := by
  induction m with
  | nil => by_cases hb : b = Memory.unlisted <;> simp [Memory.write, Memory.read, hb, Ne.symm h]
  | cons e m ih =>
    obtain ⟨k, x⟩ := e
    unfold Memory.write
    split
    · split <;> simp [Memory.read, Ne.symm h]
    · split
      · next hk => subst hk; split <;> simp [Memory.read, Ne.symm h]
      · simp [Memory.read, ih]

/-- Below its first possible offset a canonical memory lists nothing. -/
theorem Memory.read_of_wfFrom_lt {m : Memory} {lo a : Nat} (h : Memory.wfFrom lo m = true) (ha : a < lo) :
    Memory.read m a = Memory.unlisted := by
  induction m generalizing lo with
  | nil => rfl
  | cons e m ih =>
    obtain ⟨k, x⟩ := e
    simp only [Memory.wfFrom, Bool.and_eq_true, decide_eq_true_eq] at h
    rw [Memory.read_cons, if_neg (by omega), ih h.2 (by omega)]

/-- A byte reads as it was written. -/
theorem Memory.read_write_same {m : Memory} {lo : Nat} (h : Memory.wfFrom lo m = true) (a : Nat) (b : Byte) :
    Memory.read (Memory.write m a b) a = b := by
  induction m generalizing lo with
  | nil => by_cases hb : b = Memory.unlisted <;> simp [Memory.write, Memory.read, hb]
  | cons e m ih =>
    obtain ⟨k, x⟩ := e
    simp only [Memory.wfFrom, Bool.and_eq_true, decide_eq_true_eq] at h
    unfold Memory.write
    split
    · split
      · next hb =>
        rw [Memory.read_cons, if_neg (by omega), Memory.read_of_wfFrom_lt h.2 (by omega), hb]
      · simp [Memory.read]
    · split
      · next hk =>
        split
        · next hb => rw [Memory.read_of_wfFrom_lt h.2 (by omega), hb]
        · simp [Memory.read]
      · rw [Memory.read_cons, if_neg (by omega), ih h.2]

/-! ### The canonical form -/

theorem Memory.wfFrom_mono {m : Memory} {lo lo' : Nat} (h : Memory.wfFrom lo m = true) (hl : lo' ≤ lo) :
    Memory.wfFrom lo' m = true := by
  cases m with
  | nil => rfl
  | cons e m =>
    simp only [Memory.wfFrom, Bool.and_eq_true, decide_eq_true_eq] at h ⊢
    exact ⟨⟨by omega, h.1.2⟩, h.2⟩

theorem Memory.wfFrom_write {m : Memory} {lo a : Nat} (b : Byte) (h : Memory.wfFrom lo m = true) (ha : lo ≤ a) :
    Memory.wfFrom lo (Memory.write m a b) = true := by
  induction m generalizing lo with
  | nil => by_cases hb : b = Memory.unlisted <;> simp [Memory.write, Memory.wfFrom, hb, ha]
  | cons e m ih =>
    obtain ⟨k, x⟩ := e
    have h' := h
    simp only [Memory.wfFrom, Bool.and_eq_true, decide_eq_true_eq] at h
    unfold Memory.write
    split
    · split
      · exact h'
      · next hb =>
        simp only [Memory.wfFrom, Bool.and_eq_true, decide_eq_true_eq]
        exact ⟨⟨ha, hb⟩, ⟨by omega, h.1.2⟩, h.2⟩
    · split
      · next hk =>
        split
        · exact Memory.wfFrom_mono h.2 (by omega)
        · next hb =>
          simp only [Memory.wfFrom, Bool.and_eq_true, decide_eq_true_eq]
          exact ⟨⟨ha, hb⟩, hk ▸ h.2⟩
      · simp only [Memory.wfFrom, Bool.and_eq_true, decide_eq_true_eq]
        exact ⟨h.1, ih h.2 (by omega)⟩

theorem Memory.wf_write {m : Memory} (a : Nat) (b : Byte) (h : Memory.wf m = true) :
    Memory.wf (Memory.write m a b) = true :=
  Memory.wfFrom_write b h (Nat.zero_le a)

theorem Memory.wf_apply {m : Memory} (cells : List Host.Cell) (h : Memory.wf m = true) :
    Memory.wf (Memory.apply m cells) = true := by
  induction cells generalizing m with
  | nil => exact h
  | cons c cells ih => exact ih (Memory.wf_write c.1 c.2 h)

theorem Memory.wf_writeLE {m : Memory} (off n : Nat) (v : Word) (h : Memory.wf m = true) :
    Memory.wf (Memory.writeLE m off n v) = true := by
  induction n generalizing m off v with
  | zero => exact h
  | succ n ih => exact ih _ _ (Memory.wf_write _ _ h)

theorem Memory.wf_leave {m : Memory} (off n : Nat) (left : List Byte) (h : Memory.wf m = true) :
    Memory.wf (Memory.leave m off n left) = true := by
  induction n generalizing m off left with
  | zero => exact h
  | succ n ih =>
    cases left with
    | nil => exact h
    | cons b left => exact ih _ _ (Memory.wf_write _ _ h)

theorem Transaction.wf_effect (t : Transaction) (r : Reply) {m : Memory} (h : Memory.wf m = true) :
    Memory.wf (t.effect r m) = true := by
  cases t <;> cases r <;> simp only [Transaction.effect]
  all_goals first | exact h | exact Memory.wf_writeLE _ _ _ h | exact Memory.wf_leave _ _ _ h

theorem seenCs_wf {s : State} (h : Memory.wf s.cs = true) : Memory.wf s.seenCs = true := Memory.wf_apply _ h

theorem abandon_wf (t : Option Transaction) (left : List Byte) {m : Memory} (h : Memory.wf m = true) :
    Memory.wf (abandon t left m) = true := by
  rcases t with _ | t
  · exact h
  · cases t
    · exact h
    · exact Memory.wf_leave _ _ _ h

/-- Canonical memories that read alike are equal. -/
theorem Memory.eq_of_read {m m' : Memory} {lo lo' : Nat} (h : Memory.wfFrom lo m = true)
    (h' : Memory.wfFrom lo' m' = true) (hr : ∀ a, Memory.read m a = Memory.read m' a) : m = m' := by
  induction m generalizing m' lo lo' with
  | nil =>
    cases m' with
    | nil => rfl
    | cons e m' =>
      obtain ⟨k, x⟩ := e
      simp only [Memory.wfFrom, Bool.and_eq_true, decide_eq_true_eq] at h'
      exact absurd (by simpa [Memory.read] using (hr k).symm) h'.1.2
  | cons e m ih =>
    obtain ⟨k, x⟩ := e
    simp only [Memory.wfFrom, Bool.and_eq_true, decide_eq_true_eq] at h
    cases m' with
    | nil => exact absurd (by simpa [Memory.read] using hr k) h.1.2
    | cons e' m' =>
      obtain ⟨k', x'⟩ := e'
      simp only [Memory.wfFrom, Bool.and_eq_true, decide_eq_true_eq] at h'
      have hk : k = k' := by
        rcases Nat.lt_trichotomy k k' with hlt | heq | hgt
        · have := hr k
          rw [Memory.read_cons, if_pos rfl, Memory.read_cons, if_neg (by omega),
            Memory.read_of_wfFrom_lt h'.2 (by omega)] at this
          exact absurd this h.1.2
        · exact heq
        · have := hr k'
          rw [Memory.read_cons, if_neg (by omega), Memory.read_of_wfFrom_lt h.2 (by omega), Memory.read_cons,
            if_pos rfl] at this
          exact absurd this.symm h'.1.2
      subst hk
      have hx : x = x' := by simpa [Memory.read] using hr k
      subst hx
      congr 1
      refine ih h.2 h'.2 fun a => ?_
      by_cases ha : k = a
      · subst ha
        rw [Memory.read_of_wfFrom_lt h.2 (by omega), Memory.read_of_wfFrom_lt h'.2 (by omega)]
      · simpa [Memory.read, ha] using hr a

/-! ### Ranges -/

/-- A little-endian store leaves every byte outside its range alone (R63). -/
theorem Memory.read_writeLE_outside (m : Memory) (off n : Nat) (v : Word) {a : Nat} (h : a < off ∨ off + n ≤ a) :
    Memory.read (Memory.writeLE m off n v) a = Memory.read m a := by
  induction n generalizing m off v with
  | zero => rfl
  | succ n ih =>
    rw [Memory.writeLE, ih _ _ _ (by omega), Memory.read_write_of_ne _ _ (by omega)]

/-- A failed write leaves every byte outside its range alone (R70). -/
theorem Memory.read_leave_outside (m : Memory) (off n : Nat) (left : List Byte) {a : Nat} (h : a < off ∨ off + n ≤ a) :
    Memory.read (Memory.leave m off n left) a = Memory.read m a := by
  induction n generalizing m off left with
  | zero => rfl
  | succ n ih =>
    cases left with
    | nil => rfl
    | cons b left => rw [Memory.leave, ih _ _ _ (by omega), Memory.read_write_of_ne _ _ (by omega)]

/-- A failed write's bytes are the ones it left (R70). -/
theorem Memory.read_leave_inside {m : Memory} (hm : Memory.wf m = true) (off n : Nat) (left : List Byte) {j : Nat}
    (hj : j < n) (hl : j < left.length) : Memory.read (Memory.leave m off n left) (off + j) = left[j] := by
  induction n generalizing m off left j with
  | zero => omega
  | succ n ih =>
    cases left with
    | nil => simp at hl
    | cons b left =>
      rw [Memory.leave]
      cases j with
      | zero => rw [Memory.read_leave_outside _ _ _ _ (by omega)]; exact Memory.read_write_same hm _ _
      | succ j =>
        have := ih (Memory.wf_write off b hm) (off + 1) left (j := j) (by omega) (by simpa using hl)
        rw [show off + (j + 1) = off + 1 + j by omega, this]
        rfl

/-- A little-endian read depends on the bytes of its range only. -/
theorem Memory.readLE_congr {m m' : Memory} {off n : Nat}
    (h : ∀ a, off ≤ a → a < off + n → Memory.read m a = Memory.read m' a) :
    Memory.readLE m off n = Memory.readLE m' off n := by
  induction n generalizing off with
  | zero => rfl
  | succ n ih =>
    rw [Memory.readLE, Memory.readLE, h off (by omega) (by omega), ih fun a h1 h2 => h a (by omega) (by omega)]

theorem Memory.readLE_writeLE_disjoint (m : Memory) {off n off' n' : Nat} (v : Word)
    (h : off + n ≤ off' ∨ off' + n' ≤ off) :
    Memory.readLE (Memory.writeLE m off' n' v) off n = Memory.readLE m off n :=
  Memory.readLE_congr fun a h1 h2 => Memory.read_writeLE_outside _ _ _ _ (by omega)

/-- What a little-endian store of `n` bytes reads back as (R63): the low `n` bytes of the value. -/
theorem Memory.readLE_writeLE {m : Memory} (hm : Memory.wf m = true) (off n : Nat) (v : Word) (hn : n ≤ 4) :
    Memory.readLE (Memory.writeLE m off n v) off n = (v.setWidth (8 * n)).setWidth 32 := by
  induction n generalizing m off v with
  | zero => ext i hi; simp [Memory.readLE]
  | succ n ih =>
    rw [Memory.writeLE, Memory.readLE, ih (Memory.wf_write _ _ hm) _ _ (by omega),
      Memory.read_writeLE_outside _ _ _ _ (by omega), Memory.read_write_same hm]
    ext i hi
    simp only [BitVec.getElem_or, BitVec.getElem_setWidth, BitVec.getLsbD_setWidth, BitVec.getElem_shiftLeft,
      BitVec.getLsbD_ushiftRight]
    by_cases h8 : i < 8
    · simp [h8]; omega
    · have h1 : 8 + (i - 8) = i := by omega
      simp only [h8, decide_false, Bool.false_and, Bool.false_or, h1]
      by_cases hb : i < 8 * (n + 1)
      · have : i - 8 < 8 * n := by omega
        simp [hb, this]
      · have : ¬ i - 8 < 8 * n := by omega
        simp [hb, this]

/-- A little-endian read of `n` bytes fits them (R63). -/
theorem Memory.readLE_lt (m : Memory) (off n : Nat) (hn : n ≤ 4) : (Memory.readLE m off n).toNat < 2 ^ (8 * n) := by
  induction n generalizing off with
  | zero => simp [Memory.readLE]
  | succ n ih =>
    have h := ih (off + 1) (by omega)
    rw [Memory.readLE, BitVec.toNat_or]
    refine Nat.or_lt_two_pow ?_ ?_
    · rw [BitVec.toNat_setWidth]
      have h1 : (Memory.read m off).toNat < 2 ^ 8 := (Memory.read m off).isLt
      have h2 : 2 ^ 8 ≤ 2 ^ (8 * (n + 1)) := Nat.pow_le_pow_right (by omega) (by omega)
      exact lt_of_le_of_lt (Nat.mod_le _ _) (by omega)
    · rw [BitVec.toNat_shiftLeft, Nat.shiftLeft_eq]
      have h2 : 2 ^ (8 * (n + 1)) = 2 ^ (8 * n) * 2 ^ 8 := by rw [← pow_add]; ring_nf
      refine lt_of_le_of_lt (Nat.mod_le _ _) ?_
      rw [h2]
      exact Nat.mul_lt_mul_of_pos_right h (by norm_num)

end Sys2Proof.Machine
end

