-- ==== Sys2Proof/Laws/State.lean ====
section
/-! SUPPORT. What each shared update of the state does to each field: one lemma per field per update. -/

namespace Sys2Proof.Machine

/-! ### Fields after `goto` (R30) -/

@[simp] theorem goto_status (p : Point) (s : State) : (goto p s).status = s.status := rfl
@[simp] theorem goto_opa (p : Point) (s : State) : (goto p s).opa = s.opa := rfl
@[simp] theorem goto_opb (p : Point) (s : State) : (goto p s).opb = s.opb := rfl
@[simp] theorem goto_res (p : Point) (s : State) : (goto p s).res = s.res := rfl
@[simp] theorem goto_res2 (p : Point) (s : State) : (goto p s).res2 = s.res2 := rfl
@[simp] theorem goto_errAddr (p : Point) (s : State) : (goto p s).errAddr = s.errAddr := rfl
@[simp] theorem goto_seq (p : Point) (s : State) : (goto p s).seq = .run p := rfl
@[simp] theorem goto_lCmd (p : Point) (s : State) : (goto p s).lCmd = s.lCmd := rfl
@[simp] theorem goto_lOpa (p : Point) (s : State) : (goto p s).lOpa = s.lOpa := rfl
@[simp] theorem goto_lOpb (p : Point) (s : State) : (goto p s).lOpb = s.lOpb := rfl
@[simp] theorem goto_cur (p : Point) (s : State) : (goto p s).cur = s.cur := rfl
@[simp] theorem goto_trip (p : Point) (s : State) : (goto p s).trip = s.trip := rfl
@[simp] theorem goto_base (p : Point) (s : State) : (goto p s).base = s.base := rfl
@[simp] theorem goto_v (p : Point) (s : State) : (goto p s).v = s.v := rfl
@[simp] theorem goto_deadline (p : Point) (s : State) : (goto p s).deadline = s.deadline := rfl
@[simp] theorem goto_cs (p : Point) (s : State) : (goto p s).cs = s.cs := rfl
@[simp] theorem goto_now (p : Point) (s : State) : (goto p s).now = s.now := rfl
@[simp] theorem goto_inFlight (p : Point) (s : State) : (goto p s).inFlight = s.inFlight := rfl
@[simp] theorem goto_params (p : Point) (s : State) : (goto p s).params = s.params := rfl
@[simp] theorem goto_port (p : Point) (s : State) : (goto p s).port = s.port := rfl
@[simp] theorem goto_clock (p : Point) (s : State) : (goto p s).clock = s.clock := rfl
@[simp] theorem goto_host (p : Point) (s : State) : (goto p s).host = s.host := rfl
@[simp] theorem goto_log (p : Point) (s : State) : (goto p s).log = s.log := rfl

/-! ### Fields after a completion (R250, R251) -/

@[simp] theorem complete_status (c : Completion) (s : State) :
    (complete c s).status =
      completedStatus s.status c := rfl
@[simp] theorem complete_opa (c : Completion) (s : State) : (complete c s).opa = s.opa := rfl
@[simp] theorem complete_opb (c : Completion) (s : State) : (complete c s).opb = s.opb := rfl
@[simp] theorem complete_res (c : Completion) (s : State) : (complete c s).res = c.res := rfl
@[simp] theorem complete_res2 (c : Completion) (s : State) : (complete c s).res2 = c.res2 := rfl
@[simp] theorem complete_errAddr (c : Completion) (s : State) : (complete c s).errAddr = BitVec.ofNat 32 c.addr := rfl
@[simp] theorem complete_seq (c : Completion) (s : State) : (complete c s).seq = .idle := rfl
@[simp] theorem complete_lCmd (c : Completion) (s : State) : (complete c s).lCmd = s.lCmd := rfl
@[simp] theorem complete_lOpa (c : Completion) (s : State) : (complete c s).lOpa = s.lOpa := rfl
@[simp] theorem complete_lOpb (c : Completion) (s : State) : (complete c s).lOpb = s.lOpb := rfl
@[simp] theorem complete_cur (c : Completion) (s : State) : (complete c s).cur = s.cur := rfl
@[simp] theorem complete_trip (c : Completion) (s : State) : (complete c s).trip = s.trip := rfl
@[simp] theorem complete_base (c : Completion) (s : State) : (complete c s).base = s.base := rfl
@[simp] theorem complete_v (c : Completion) (s : State) : (complete c s).v = s.v := rfl
@[simp] theorem complete_deadline (c : Completion) (s : State) : (complete c s).deadline = s.deadline := rfl
@[simp] theorem complete_cs (c : Completion) (s : State) : (complete c s).cs = s.cs := rfl
@[simp] theorem complete_now (c : Completion) (s : State) : (complete c s).now = s.now := rfl
@[simp] theorem complete_inFlight (c : Completion) (s : State) : (complete c s).inFlight = s.inFlight := rfl
@[simp] theorem complete_params (c : Completion) (s : State) : (complete c s).params = s.params := rfl
@[simp] theorem complete_port (c : Completion) (s : State) : (complete c s).port = s.port := rfl
@[simp] theorem complete_clock (c : Completion) (s : State) : (complete c s).clock = s.clock := rfl
@[simp] theorem complete_host (c : Completion) (s : State) : (complete c s).host = s.host := rfl
@[simp] theorem complete_log (c : Completion) (s : State) : (complete c s).log = .completion c :: s.log := rfl

/-! ### Fields after an issue (R21) -/

@[simp] theorem issue_status (w : Word) (s : State) : (issue w s).status = issuedStatus s.status := rfl
@[simp] theorem issue_opa (w : Word) (s : State) : (issue w s).opa = s.opa := rfl
@[simp] theorem issue_opb (w : Word) (s : State) : (issue w s).opb = s.opb := rfl
@[simp] theorem issue_res (w : Word) (s : State) : (issue w s).res = 0#64 := rfl
@[simp] theorem issue_res2 (w : Word) (s : State) : (issue w s).res2 = 0#64 := rfl
@[simp] theorem issue_errAddr (w : Word) (s : State) : (issue w s).errAddr = 0#32 := rfl
@[simp] theorem issue_seq (w : Word) (s : State) : (issue w s).seq = .run .start := rfl
@[simp] theorem issue_lCmd (w : Word) (s : State) : (issue w s).lCmd = w := rfl
@[simp] theorem issue_lOpa (w : Word) (s : State) : (issue w s).lOpa = s.opa := rfl
@[simp] theorem issue_lOpb (w : Word) (s : State) : (issue w s).lOpb = s.opb := rfl
@[simp] theorem issue_cur (w : Word) (s : State) : (issue w s).cur = s.cur := rfl
@[simp] theorem issue_trip (w : Word) (s : State) : (issue w s).trip = s.trip := rfl
@[simp] theorem issue_base (w : Word) (s : State) : (issue w s).base = s.base := rfl
@[simp] theorem issue_v (w : Word) (s : State) : (issue w s).v = s.v := rfl
@[simp] theorem issue_deadline (w : Word) (s : State) : (issue w s).deadline = s.deadline := rfl
@[simp] theorem issue_cs (w : Word) (s : State) : (issue w s).cs = s.cs := rfl
@[simp] theorem issue_now (w : Word) (s : State) : (issue w s).now = s.now := rfl
@[simp] theorem issue_inFlight (w : Word) (s : State) : (issue w s).inFlight = s.inFlight := rfl
@[simp] theorem issue_params (w : Word) (s : State) : (issue w s).params = s.params := rfl
@[simp] theorem issue_port (w : Word) (s : State) : (issue w s).port = s.port := rfl
@[simp] theorem issue_clock (w : Word) (s : State) : (issue w s).clock = s.clock := rfl
@[simp] theorem issue_host (w : Word) (s : State) : (issue w s).host = s.host := rfl
@[simp] theorem issue_log (w : Word) (s : State) : (issue w s).log = s.log := rfl

/-! ### Fields after one event of the port (R62) -/

@[simp] theorem afterTransaction_status (t : Transaction) (s : State) :
    (afterTransaction t s).status =
      s.status := rfl
@[simp] theorem afterTransaction_opa (t : Transaction) (s : State) : (afterTransaction t s).opa = s.opa := rfl
@[simp] theorem afterTransaction_opb (t : Transaction) (s : State) : (afterTransaction t s).opb = s.opb := rfl
@[simp] theorem afterTransaction_res (t : Transaction) (s : State) : (afterTransaction t s).res = s.res := rfl
@[simp] theorem afterTransaction_res2 (t : Transaction) (s : State) : (afterTransaction t s).res2 = s.res2 := rfl
@[simp] theorem afterTransaction_errAddr (t : Transaction) (s : State) :
    (afterTransaction t s).errAddr =
      s.errAddr := rfl
@[simp] theorem afterTransaction_seq (t : Transaction) (s : State) : (afterTransaction t s).seq = s.seq := rfl
@[simp] theorem afterTransaction_lCmd (t : Transaction) (s : State) : (afterTransaction t s).lCmd = s.lCmd := rfl
@[simp] theorem afterTransaction_lOpa (t : Transaction) (s : State) : (afterTransaction t s).lOpa = s.lOpa := rfl
@[simp] theorem afterTransaction_lOpb (t : Transaction) (s : State) : (afterTransaction t s).lOpb = s.lOpb := rfl
@[simp] theorem afterTransaction_cur (t : Transaction) (s : State) : (afterTransaction t s).cur = s.cur := rfl
@[simp] theorem afterTransaction_trip (t : Transaction) (s : State) : (afterTransaction t s).trip = s.trip := rfl
@[simp] theorem afterTransaction_base (t : Transaction) (s : State) : (afterTransaction t s).base = s.base := rfl
@[simp] theorem afterTransaction_v (t : Transaction) (s : State) : (afterTransaction t s).v = s.v := rfl
@[simp] theorem afterTransaction_deadline (t : Transaction) (s : State) :
    (afterTransaction t s).deadline =
      s.deadline := rfl
@[simp] theorem afterTransaction_cs (t : Transaction) (s : State) :
    (afterTransaction t s).cs =
      t.effect s.port.event.reply s.seenCs := rfl
@[simp] theorem afterTransaction_now (t : Transaction) (s : State) : (afterTransaction t s).now = s.now := rfl
@[simp] theorem afterTransaction_inFlight (t : Transaction) (s : State) :
    (afterTransaction t s).inFlight =
      if s.port.event.reply = .silent then some t else none := rfl
@[simp] theorem afterTransaction_params (t : Transaction) (s : State) :
    (afterTransaction t s).params =
      s.params := rfl
@[simp] theorem afterTransaction_port (t : Transaction) (s : State) :
    (afterTransaction t s).port =
      s.port.advance := rfl
@[simp] theorem afterTransaction_clock (t : Transaction) (s : State) : (afterTransaction t s).clock = s.clock := rfl
@[simp] theorem afterTransaction_host (t : Transaction) (s : State) : (afterTransaction t s).host = s.host := rfl
@[simp] theorem afterTransaction_log (t : Transaction) (s : State) :
    (afterTransaction t s).log =
      if s.port.event.reply = .silent then s.log else .transaction t (answerTo t s) :: s.log := rfl

/-! ### Fields after a host read (R28) -/

@[simp] theorem recordRead_status (r : Nat) (s : State) : (recordRead r s).status = s.status := rfl
@[simp] theorem recordRead_opa (r : Nat) (s : State) : (recordRead r s).opa = s.opa := rfl
@[simp] theorem recordRead_opb (r : Nat) (s : State) : (recordRead r s).opb = s.opb := rfl
@[simp] theorem recordRead_res (r : Nat) (s : State) : (recordRead r s).res = s.res := rfl
@[simp] theorem recordRead_res2 (r : Nat) (s : State) : (recordRead r s).res2 = s.res2 := rfl
@[simp] theorem recordRead_errAddr (r : Nat) (s : State) : (recordRead r s).errAddr = s.errAddr := rfl
@[simp] theorem recordRead_seq (r : Nat) (s : State) : (recordRead r s).seq = s.seq := rfl
@[simp] theorem recordRead_lCmd (r : Nat) (s : State) : (recordRead r s).lCmd = s.lCmd := rfl
@[simp] theorem recordRead_lOpa (r : Nat) (s : State) : (recordRead r s).lOpa = s.lOpa := rfl
@[simp] theorem recordRead_lOpb (r : Nat) (s : State) : (recordRead r s).lOpb = s.lOpb := rfl
@[simp] theorem recordRead_cur (r : Nat) (s : State) : (recordRead r s).cur = s.cur := rfl
@[simp] theorem recordRead_trip (r : Nat) (s : State) : (recordRead r s).trip = s.trip := rfl
@[simp] theorem recordRead_base (r : Nat) (s : State) : (recordRead r s).base = s.base := rfl
@[simp] theorem recordRead_v (r : Nat) (s : State) : (recordRead r s).v = s.v := rfl
@[simp] theorem recordRead_deadline (r : Nat) (s : State) : (recordRead r s).deadline = s.deadline := rfl
@[simp] theorem recordRead_cs (r : Nat) (s : State) : (recordRead r s).cs = s.cs := rfl
@[simp] theorem recordRead_now (r : Nat) (s : State) : (recordRead r s).now = s.now := rfl
@[simp] theorem recordRead_inFlight (r : Nat) (s : State) : (recordRead r s).inFlight = s.inFlight := rfl
@[simp] theorem recordRead_params (r : Nat) (s : State) : (recordRead r s).params = s.params := rfl
@[simp] theorem recordRead_port (r : Nat) (s : State) : (recordRead r s).port = s.port := rfl
@[simp] theorem recordRead_clock (r : Nat) (s : State) : (recordRead r s).clock = s.clock := rfl
@[simp] theorem recordRead_host (r : Nat) (s : State) : (recordRead r s).host = s.host := rfl
@[simp] theorem recordRead_log (r : Nat) (s : State) :
    (recordRead r s).log =
      .hostRead r (hostRead r s) :: s.log := rfl

/-! ### Fields after reset (R45, R290) -/

@[simp] theorem assertReset_status (left : List Byte) (s : State) : (assertReset left s).status = 0#32 := rfl
@[simp] theorem assertReset_opa (left : List Byte) (s : State) : (assertReset left s).opa = 0#64 := rfl
@[simp] theorem assertReset_opb (left : List Byte) (s : State) : (assertReset left s).opb = 0#64 := rfl
@[simp] theorem assertReset_res (left : List Byte) (s : State) : (assertReset left s).res = 0#64 := rfl
@[simp] theorem assertReset_res2 (left : List Byte) (s : State) : (assertReset left s).res2 = 0#64 := rfl
@[simp] theorem assertReset_errAddr (left : List Byte) (s : State) : (assertReset left s).errAddr = 0#32 := rfl
@[simp] theorem assertReset_seq (left : List Byte) (s : State) : (assertReset left s).seq = .idle := rfl
@[simp] theorem assertReset_lCmd (left : List Byte) (s : State) : (assertReset left s).lCmd = 0#32 := rfl
@[simp] theorem assertReset_lOpa (left : List Byte) (s : State) : (assertReset left s).lOpa = 0#64 := rfl
@[simp] theorem assertReset_lOpb (left : List Byte) (s : State) : (assertReset left s).lOpb = 0#64 := rfl
@[simp] theorem assertReset_cur (left : List Byte) (s : State) : (assertReset left s).cur = 0 := rfl
@[simp] theorem assertReset_trip (left : List Byte) (s : State) : (assertReset left s).trip = 0 := rfl
@[simp] theorem assertReset_base (left : List Byte) (s : State) : (assertReset left s).base = 0 := rfl
@[simp] theorem assertReset_v (left : List Byte) (s : State) : (assertReset left s).v = 0#32 := rfl
@[simp] theorem assertReset_deadline (left : List Byte) (s : State) : (assertReset left s).deadline = 0 := rfl
@[simp] theorem assertReset_cs (left : List Byte) (s : State) :
    (assertReset left s).cs =
      abandon s.inFlight left s.cs := rfl
@[simp] theorem assertReset_now (left : List Byte) (s : State) : (assertReset left s).now = s.now := rfl
@[simp] theorem assertReset_inFlight (left : List Byte) (s : State) : (assertReset left s).inFlight = none := rfl
@[simp] theorem assertReset_params (left : List Byte) (s : State) : (assertReset left s).params = s.params := rfl
@[simp] theorem assertReset_port (left : List Byte) (s : State) : (assertReset left s).port = s.port := rfl
@[simp] theorem assertReset_clock (left : List Byte) (s : State) : (assertReset left s).clock = s.clock := rfl
@[simp] theorem assertReset_host (left : List Byte) (s : State) : (assertReset left s).host = s.host := rfl
@[simp] theorem assertReset_log (left : List Byte) (s : State) : (assertReset left s).log = s.log := rfl

end Sys2Proof.Machine
end

