-- ==== Sys2Proof/Laws/Status.lean ====
section
/-! SUPPORT. The fields of the STATUS words the core writes (10_state.md R23). -/

namespace Sys2Proof.Machine

@[simp] theorem statusBusy_statusWord (b d p : Bool) (c : BitVec 4) (k : BitVec 2) :
    statusBusy (statusWord b d p c k) = b := by
  simp only [statusBusy, statusWord, BitVec.getLsbD_append]
  simp

@[simp] theorem statusDone_statusWord (b d p : Bool) (c : BitVec 4) (k : BitVec 2) :
    statusDone (statusWord b d p c k) = d := by
  simp only [statusDone, statusWord, BitVec.getLsbD_append]
  simp

@[simp] theorem statusPf_statusWord (b d p : Bool) (c : BitVec 4) (k : BitVec 2) :
    statusPf (statusWord b d p c k) = p := by
  simp only [statusPf, statusWord, BitVec.getLsbD_append]
  simp

@[simp] theorem statusCode_statusWord (b d p : Bool) (c : BitVec 4) (k : BitVec 2) :
    statusCode (statusWord b d p c k) = c := by
  ext i hi
  simp only [statusCode, statusWord, BitVec.getElem_extractLsb', BitVec.getLsbD_append]
  interval_cases i <;> simp

@[simp] theorem statusKind_statusWord (b d p : Bool) (c : BitVec 4) (k : BitVec 2) :
    statusKind (statusWord b d p c k) = k := by
  ext i hi
  simp only [statusKind, statusWord, BitVec.getElem_extractLsb', BitVec.getLsbD_append]
  interval_cases i <;> simp

/-- A STATUS word has no reserved bit set (R23). -/
theorem statusWord_reserved (b d p : Bool) (c : BitVec 4) (k : BitVec 2) :
    statusWord b d p c k &&& ~~~statusMask = 0#32 := by
  revert b d p c k
  decide

@[simp] theorem statusBusy_protocolFault (w : Word) : statusBusy (protocolFaultStatus w) = statusBusy w := by
  simp [statusBusy, protocolFaultStatus]

@[simp] theorem statusDone_protocolFault (w : Word) : statusDone (protocolFaultStatus w) = statusDone w := by
  simp [statusDone, protocolFaultStatus]

@[simp] theorem statusPf_protocolFault (w : Word) : statusPf (protocolFaultStatus w) = true := by
  simp [statusPf, protocolFaultStatus]

@[simp] theorem statusCode_protocolFault (w : Word) : statusCode (protocolFaultStatus w) = statusCode w := by
  ext i hi
  simp only [statusCode, protocolFaultStatus, BitVec.getElem_extractLsb', BitVec.getLsbD_or]
  interval_cases i <;> simp

@[simp] theorem statusKind_protocolFault (w : Word) : statusKind (protocolFaultStatus w) = statusKind w := by
  ext i hi
  simp only [statusKind, protocolFaultStatus, BitVec.getElem_extractLsb', BitVec.getLsbD_or]
  interval_cases i <;> simp

/-- Setting PF sets no reserved bit (R23, R259). -/
theorem protocolFault_reserved (w : Word) : protocolFaultStatus w &&& ~~~statusMask = w &&& ~~~statusMask := by
  ext i hi
  simp only [protocolFaultStatus, statusMask, BitVec.getElem_and, BitVec.getElem_or]
  interval_cases i <;> simp

@[simp] theorem statusBusy_completed (w : Word) (c : Completion) : statusBusy (completedStatus w c) = false := by
  simp [completedStatus]

@[simp] theorem statusDone_completed (w : Word) (c : Completion) : statusDone (completedStatus w c) = true := by
  simp [completedStatus]

@[simp] theorem statusPf_completed (w : Word) (c : Completion) : statusPf (completedStatus w c) = statusPf w := by
  simp [completedStatus]

@[simp] theorem statusCode_completed (w : Word) (c : Completion) : statusCode (completedStatus w c) = c.code.bits := by
  simp [completedStatus]

@[simp] theorem statusKind_completed (w : Word) (c : Completion) :
    statusKind (completedStatus w c) = ioKindBits c.kind := by
  simp [completedStatus]

@[simp] theorem statusBusy_issued (w : Word) : statusBusy (issuedStatus w) = true := by simp [issuedStatus]

@[simp] theorem statusDone_issued (w : Word) : statusDone (issuedStatus w) = false := by simp [issuedStatus]

@[simp] theorem statusPf_issued (w : Word) : statusPf (issuedStatus w) = statusPf w := by simp [issuedStatus]

@[simp] theorem statusCode_issued (w : Word) : statusCode (issuedStatus w) = 0#4 := by simp [issuedStatus]

@[simp] theorem statusKind_issued (w : Word) : statusKind (issuedStatus w) = 0#2 := by simp [issuedStatus]

end Sys2Proof.Machine
end

