-- ==== Sys2Proof/Laws/Ops.lean ====
section
/-! SUPPORT. Each shared operation said once: everything it can come to. Proofs cite these instead of unfolding. -/

namespace Sys2Proof.Machine

/-! ### The port -/

theorem answerTo_read_ok {off n : Nat} {s : State} (h : s.port.event.reply = .ok) :
    answerTo (.read off n) s = .ok (Memory.readLE s.seenCs off n) := by
  simp [answerTo, Transaction.answer, h]

theorem answerTo_write_ok {off n : Nat} {v : Word} {s : State} (h : s.port.event.reply = .ok) :
    answerTo (.write off n v) s = .ok v := by
  simp [answerTo, Transaction.answer, h]

theorem answerTo_fail {t : Transaction} {s : State} {kind : IoKind} {left : List Byte}
    (h : s.port.event.reply = .fail kind left) : answerTo t s = .fail kind := by
  simp [answerTo, Transaction.answer, h]

theorem answerTo_silent {t : Transaction} {s : State} (h : s.port.event.reply = .silent) :
    answerTo t s = .pending := by
  simp [answerTo, Transaction.answer, h]

/-- The answer says what the port's event was. -/
theorem answerTo_cases (t : Transaction) (s : State) :
    (∃ v, answerTo t s = .ok v ∧ s.port.event.reply = .ok) ∨
      (∃ kind left, answerTo t s = .fail kind ∧ s.port.event.reply = .fail kind left) ∨
        (answerTo t s = .pending ∧ s.port.event.reply = .silent) := by
  cases h : s.port.event.reply with
  | ok =>
    cases t with
    | read off n => exact .inl ⟨_, answerTo_read_ok h, rfl⟩
    | write off n v => exact .inl ⟨_, answerTo_write_ok h, rfl⟩
  | fail kind left => exact .inr (.inl ⟨kind, left, answerTo_fail h, rfl⟩)
  | silent => exact .inr (.inr ⟨answerTo_silent h, rfl⟩)

/-- Everything a transaction can come to (R62): its answer goes on, its failure raises next, or it stays in flight. -/
theorem withTransaction_cases (t : Transaction) (s : State) (k : Word → State → State) :
    (∃ v, answerTo t s = .ok v ∧ s.port.event.reply = .ok ∧ withTransaction t s k = k v (afterTransaction t s)) ∨
      (∃ kind left, s.port.event.reply = .fail kind left ∧
        withTransaction t s k = raiseNext (.ioFailure kind t.off) (afterTransaction t s)) ∨
        (s.port.event.reply = .silent ∧ withTransaction t s k = afterTransaction t s) := by
  rcases answerTo_cases t s with ⟨v, ha, h⟩ | ⟨kind, left, ha, h⟩ | ⟨ha, h⟩
  · exact .inl ⟨v, ha, h, by simp [withTransaction, ha]⟩
  · exact .inr (.inl ⟨kind, left, h, by simp [withTransaction, ha]⟩)
  · exact .inr (.inr ⟨h, by simp [withTransaction, ha]⟩)

theorem withTransaction_ok {t : Transaction} {s : State} {k : Word → State → State} {v : Word}
    (h : answerTo t s = .ok v) : withTransaction t s k = k v (afterTransaction t s) := by
  simp [withTransaction, h]

theorem withTransaction_fail {t : Transaction} {s : State} {k : Word → State → State} {kind : IoKind}
    {left : List Byte} (h : s.port.event.reply = .fail kind left) :
    withTransaction t s k = raiseNext (.ioFailure kind t.off) (afterTransaction t s) := by
  simp [withTransaction, answerTo_fail h]

theorem withTransaction_silent {t : Transaction} {s : State} {k : Word → State → State}
    (h : s.port.event.reply = .silent) : withTransaction t s k = afterTransaction t s := by
  simp [withTransaction, answerTo_silent h]

/-! ### Checked accesses -/

theorem checked_aligned {off n : Nat} {s go : State} (h : aligned off n = true) : checked off n s go = go := by
  simp [checked, h]

theorem checked_misaligned {off n : Nat} {s go : State} (h : aligned off n = false) :
    checked off n s go = raise (.alignmentViolation off) s := by
  simp [checked, h]

theorem cfgReadThen_ok {off n : Nat} {s : State} {k : Word → State → State} (ha : aligned off n = true)
    (h : s.port.event.reply = .ok) :
    cfgReadThen off n s k = k (Memory.readLE s.seenCs off n) (afterTransaction (.read off n) s) := by
  rw [cfgReadThen, checked_aligned ha, withTransaction_ok (answerTo_read_ok h)]

theorem cfgWriteThen_ok {off n : Nat} {v : Word} {s : State} {k : State → State} (ha : aligned off n = true)
    (h : s.port.event.reply = .ok) :
    cfgWriteThen off n v s k = k (afterTransaction (.write off n v) s) := by
  rw [cfgWriteThen, checked_aligned ha, withTransaction_ok (answerTo_write_ok h)]

theorem cfgReadThen_misaligned {off n : Nat} {s : State} {k : Word → State → State} (ha : aligned off n = false) :
    cfgReadThen off n s k = raise (.alignmentViolation off) s := checked_misaligned ha

theorem cfgWriteThen_misaligned {off n : Nat} {v : Word} {s : State} {k : State → State}
    (ha : aligned off n = false) : cfgWriteThen off n v s k = raise (.alignmentViolation off) s :=
  checked_misaligned ha

/-- Everything a checked read can come to (R65, R67). -/
theorem cfgReadThen_cases (off n : Nat) (s : State) (k : Word → State → State) :
    (aligned off n = false ∧ cfgReadThen off n s k = raise (.alignmentViolation off) s) ∨
      (aligned off n = true ∧ s.port.event.reply = .ok ∧
        cfgReadThen off n s k = k (Memory.readLE s.seenCs off n) (afterTransaction (.read off n) s)) ∨
      (∃ kind left, aligned off n = true ∧ s.port.event.reply = .fail kind left ∧
        cfgReadThen off n s k = raiseNext (.ioFailure kind off) (afterTransaction (.read off n) s)) ∨
      (aligned off n = true ∧ s.port.event.reply = .silent ∧
        cfgReadThen off n s k = afterTransaction (.read off n) s) := by
  cases ha : aligned off n with
  | false => exact .inl ⟨rfl, cfgReadThen_misaligned ha⟩
  | true =>
    cases h : s.port.event.reply with
    | ok => exact .inr (.inl ⟨rfl, rfl, cfgReadThen_ok ha h⟩)
    | fail kind left =>
      exact .inr (.inr (.inl ⟨kind, left, rfl, rfl, by
        rw [cfgReadThen, checked_aligned ha, withTransaction_fail h]; rfl⟩))
    | silent =>
      exact .inr (.inr (.inr ⟨rfl, rfl, by rw [cfgReadThen, checked_aligned ha, withTransaction_silent h]⟩))

/-- Everything a checked write can come to (R65, R68). -/
theorem cfgWriteThen_cases (off n : Nat) (v : Word) (s : State) (k : State → State) :
    (aligned off n = false ∧ cfgWriteThen off n v s k = raise (.alignmentViolation off) s) ∨
      (aligned off n = true ∧ s.port.event.reply = .ok ∧
        cfgWriteThen off n v s k = k (afterTransaction (.write off n v) s)) ∨
      (∃ kind left, aligned off n = true ∧ s.port.event.reply = .fail kind left ∧
        cfgWriteThen off n v s k = raiseNext (.ioFailure kind off) (afterTransaction (.write off n v) s)) ∨
      (aligned off n = true ∧ s.port.event.reply = .silent ∧
        cfgWriteThen off n v s k = afterTransaction (.write off n v) s) := by
  cases ha : aligned off n with
  | false => exact .inl ⟨rfl, cfgWriteThen_misaligned ha⟩
  | true =>
    cases h : s.port.event.reply with
    | ok => exact .inr (.inl ⟨rfl, rfl, cfgWriteThen_ok ha h⟩)
    | fail kind left =>
      exact .inr (.inr (.inl ⟨kind, left, rfl, rfl, by
        rw [cfgWriteThen, checked_aligned ha, withTransaction_fail h]; rfl⟩))
    | silent =>
      exact .inr (.inr (.inr ⟨rfl, rfl, by rw [cfgWriteThen, checked_aligned ha, withTransaction_silent h]⟩))

/-- After an answered transaction nothing is in flight and the record has grown by it. -/
theorem afterTransaction_answered {t : Transaction} {s : State} (h : s.port.event.reply ≠ .silent) :
    (afterTransaction t s).inFlight = none ∧ (afterTransaction t s).log = .transaction t (answerTo t s) :: s.log := by
  simp [h]

@[simp] theorem effect_read (off n : Nat) (r : Reply) (m : Memory) : (Transaction.read off n).effect r m = m := by
  cases r <;> rfl

@[simp] theorem effect_write_ok (off n : Nat) (v : Word) (m : Memory) :
    (Transaction.write off n v).effect .ok m = Memory.writeLE m off n v := rfl

/-- A transaction changes no byte outside its range (R63, R70). -/
theorem Transaction.read_effect_outside (t : Transaction) (r : Reply) (m : Memory) {a : Nat}
    (h : a < t.off ∨ t.off + t.bytes ≤ a) : Memory.read (t.effect r m) a = Memory.read m a := by
  cases t with
  | read off n => rw [effect_read]
  | write off n v =>
    cases r with
    | ok => exact Memory.read_writeLE_outside m off n v h
    | fail kind left => exact Memory.read_leave_outside m off n left h
    | silent => rfl

/-! ### The ideal port (R80) -/

theorem Port.event_ideal {p : Port} (hs : p.script = []) (ht : p.tail = .ideal) : p.event = PortEvent.quiet := by
  simp [Port.event, hs, ht]

theorem Port.advance_ideal {p : Port} (hs : p.script = []) (ht : p.tail = .ideal) : p.advance = p := by
  simp [Port.advance, hs, ht]

/-- Under the ideal port the configuration space is seen as it is. -/
theorem seenCs_ideal {s : State} (hs : s.port.script = []) (ht : s.port.tail = .ideal) : s.seenCs = s.cs := by
  simp [State.seenCs, Port.event_ideal hs ht, PortEvent.quiet, Memory.apply]

/-! ### Positions, completions, time -/

theorem atPoint_idle {s : State} {f : Point → Host.Outcome State Fault Refusal} (h : s.seq = .idle) :
    atPoint s f = .fault .noCommand := by
  simp [atPoint, h]

theorem atPoint_sleep {s : State} {f : Point → Host.Outcome State Fault Refusal} {wake : Nat} {p : Point}
    (h : s.seq = .sleep wake p) : atPoint s f = .next (sleepTurn wake p s) := by
  simp [atPoint, h]

theorem atPoint_complete {s : State} {f : Point → Host.Outcome State Fault Refusal} {c : Completion}
    (h : s.seq = .run (.complete c)) : atPoint s f = .next (complete c s) := by
  simp [atPoint, h]

theorem atPoint_run {s : State} {f : Point → Host.Outcome State Fault Refusal} {p : Point} (h : s.seq = .run p)
    (hp : ∀ c, p ≠ .complete c) : atPoint s f = f p := by
  unfold atPoint
  rw [h]
  cases p <;> first | rfl | exact absurd rfl (hp _)

@[simp] theorem raise_eq (e : Err) (s : State) : raise e s = complete (.raised e) s := rfl

@[simp] theorem raiseNext_eq (e : Err) (s : State) : raiseNext e s = goto (.complete (.raised e)) s := rfl

@[simp] theorem finishNext_eq (r r2 : Quad) (s : State) : finishNext r r2 s = goto (.complete (.finishOk r r2)) s := rfl

@[simp] theorem notFoundNext_eq (s : State) : notFoundNext s = goto (.complete .finishNotFound) s := rfl

theorem sleepNext_zero (resume : Point) (s : State) : sleepNext 0#64 resume s = goto resume s := by simp [sleepNext]

theorem sleepNext_of_ne {d : Quad} (h : d ≠ 0#64) (resume : Point) (s : State) :
    sleepNext d resume s = goto .sleepStart s := by
  simp [sleepNext, h]

/-- A sleeping sequencer wakes when NOW has reached the wake time, and otherwise only time passes (R83). -/
theorem sleepTurn_cases (wake : Nat) (p : Point) (s : State) :
    ∃ now, s.now ≤ now ∧
      ((wake ≤ now ∧ sleepTurn wake p s =
          { s with now := now, clock := s.clock.advance, seq := .run p, log := .wake now :: s.log }) ∨
        (now < wake ∧ sleepTurn wake p s = { s with now := now, clock := s.clock.advance })) := by
  refine ⟨s.now + s.clock.tickAsleep s.now wake, Nat.le_add_right _ _, ?_⟩
  by_cases h : wake ≤ s.now + s.clock.tickAsleep s.now wake
  · exact .inl ⟨h, by simp [sleepTurn, h]⟩
  · exact .inr ⟨Nat.lt_of_not_le h, by simp [sleepTurn, h]⟩

end Sys2Proof.Machine
end

