-- ==== Sys2Proof/Laws/Walker.lean ====
section
/-! SUPPORT. Everything a step of the standard or of the extended walk can come to (41_capability_walker.md). -/

namespace Sys2Proof.Machine

/-- The head of the standard loop ends NOT_FOUND, or goes on to an entry at 0x40 or above (R160, R161). -/
theorem stdHead_cases (at_ : WalkPoint → Point) (s : State) :
    ∃ n, stdHead at_ s = goto (.complete .finishNotFound) { s with trip := n } ∨
      (s.trip = n + 1 ∧ 0x40 ≤ s.cur ∧ stdHead at_ s = goto (at_ .entry) { s with trip := n }) := by
  by_cases h : s.trip = 0
  · exact ⟨s.trip, .inl (by rw [stdHead, if_pos h]; rfl)⟩
  · refine ⟨s.trip - 1, ?_⟩
    by_cases hc : s.cur < 0x40
    · exact .inl (by simp [stdHead, h, hc])
    · exact .inr ⟨by omega, by omega, by simp [stdHead, h, hc]⟩

/-- The head of the extended loop ends NOT_FOUND, or goes on to a header inside the size (R167). -/
theorem extHead_cases (size : Nat) (s : State) :
    ∃ n, extHead size s = goto (.complete .finishNotFound) { s with trip := n } ∨
      (s.trip = n + 1 ∧ s.cur + 4 ≤ size ∧ extHead size s = goto .extEntry { s with trip := n }) := by
  by_cases h : s.trip = 0
  · exact ⟨s.trip, .inl (by rw [extHead, if_pos h]; rfl)⟩
  · refine ⟨s.trip - 1, ?_⟩
    by_cases hc : size < s.cur + 4
    · exact .inl (by simp [extHead, h, hc])
    · exact .inr ⟨by omega, by omega, by simp [extHead, h, hc]⟩

/-- The head of the standard loop as one expression (R160). -/
theorem stdHead_eq (at_ : WalkPoint → Point) (s : State) :
    stdHead at_ s = goto (if s.trip = 0 ∨ s.cur < 0x40 then .complete .finishNotFound else at_ .entry)
      { s with trip := s.trip - 1 } := by
  unfold stdHead
  by_cases h : s.trip = 0
  · simp [h, goto]
  · by_cases hc : s.cur < 0x40 <;> simp [h, hc]

/-- The head of the extended loop as one expression (R167). -/
theorem extHead_eq (size : Nat) (s : State) :
    extHead size s = goto (if s.trip = 0 ∨ size < s.cur + 4 then .complete .finishNotFound else .extEntry)
      { s with trip := s.trip - 1 } := by
  unfold extHead
  by_cases h : s.trip = 0
  · simp [h, goto]
  · by_cases hc : size < s.cur + 4 <;> simp [h, hc]

/-- A masked entry offset is a multiple of 4, so its read is aligned (R160). -/
theorem aligned_entry (c : Nat) : aligned (c &&& 0xFC) 2 = true := by
  have : (c &&& 0xFC) % 2 ^ 1 = 0 := by rw [Nat.and_mod_two_pow]; simp
  simpa [aligned] using this

/-- The trip function never gives 0 (R5). -/
theorem extTripLimit_pos (t : ExtTrip) (cs : Nat) : 1 ≤ extTripLimit t cs := le_max_left _ _

/-- The default of P_EXT_TRIP is the formula of R5. -/
theorem extTripLimit_default (cs : Nat) : extTripLimit Params.default.extTrip cs = max 1 ((cs - 256) / 8) := rfl

/-- Every function of the size is a trip expression, on the sizes below any bound: the table of its values. -/
theorem extTripValue_surjective (f : Nat → Nat) (n : Nat) : ∃ t, ∀ cs < n, extTripValue t cs = f cs := by
  induction n with
  | zero => exact ⟨.size, fun _ h => absurd h (Nat.not_lt_zero _)⟩
  | succ n ih =>
    obtain ⟨t, ht⟩ := ih
    refine ⟨.ifLt .size (.lit n) t (.lit (f n)), fun cs hcs => ?_⟩
    by_cases h : cs < n
    · simp [extTripValue, h, ht cs h]
    · simp [extTripValue, show cs = n by omega]

/-- Every legal P_EXT_TRIP, a total function with values at least 1 (R5), is a choice of the parameter, at every size that
OPA can hold. -/
theorem extTripLimit_surjective (f : Nat → Nat) (hf : ∀ cs, 1 ≤ f cs) :
    ∃ t, ∀ size : Quad, extTripLimit t size.toNat = f size.toNat := by
  obtain ⟨t, ht⟩ := extTripValue_surjective f (2 ^ 64)
  exact ⟨t, fun size => by rw [extTripLimit, ht _ size.isLt, max_eq_right (hf _)]⟩

/-- A next-pointer the walk follows lies at 0x100 or above (R167). -/
theorem nextEnds_false {a : NextAlign} {cur nx : Nat} (h : nextEnds a cur nx = false) : 256 ≤ nx ∧ nx ≠ cur := by
  simp only [nextEnds, Bool.or_eq_false_iff, decide_eq_false_iff_not, beq_eq_false_iff_ne] at h
  exact ⟨by omega, h.1.1.2⟩

/-- A next-pointer has 12 bits, masked or not (R39, R169). -/
theorem takenNext_le (a : NextAlign) (h : Word) : takenNext a (headerNext h) ≤ 0xFFF := by
  have hn : headerNext h ≤ 0xFFF := by
    have := (h.extractLsb' 20 12).isLt
    simp only [headerNext]
    omega
  unfold takenNext
  split
  · exact le_trans Nat.and_le_left hn
  · exact hn

/-- The first extended step is a completion, or the read at 0x100 (R167). -/
theorem extStart_cases (size : Nat) (id : Half) (s : State) :
    (∃ c n, extStart size id s = complete .finishNotFound { s with cur := c, trip := n }) ∨
      ∃ n, 260 ≤ size ∧ extTripLimit s.params.extTrip size = n + 1 ∧
        extStart size id s = extRead size id (goto .extEntry { s with cur := 256, trip := n }) := by
  by_cases hs : size ≤ 256
  · exact .inl ⟨s.cur, s.trip, by rw [extStart, if_pos hs]⟩
  · obtain ⟨n, h | ⟨ht, hc, h⟩⟩ :=
      extHead_cases size { s with cur := 256, trip := extTripLimit s.params.extTrip size }
    · refine .inl ⟨256, n, ?_⟩
      rw [extStart, if_neg hs, h]
      rfl
    · refine .inr ⟨n, by simpa using hc, by simpa using ht, ?_⟩
      rw [extStart, if_neg hs, h]
      rfl

end Sys2Proof.Machine
end

