-- ==== Sys2Proof/Laws/Exec.lean ====
section
/-! SUPPORT. Everything one step of a command can do (00_scope.md R11): a completion, one transaction, one sample of NOW,
or one turn of a sleep, and what each leaves alone. -/

namespace Sys2Proof.Machine

/-- `t` is `s` after the port's event for `tr`, but for the sequencer's own registers. -/
def Transacted (tr : Transaction) (s t : State) : Prop :=
  ∃ q cur trip base v, t = { afterTransaction tr s with seq := q, cur := cur, trip := trip, base := base, v := v }

/-- `t` is `s` after the first step of FIND_EXT_CAP while the port is silent: its read is in flight, and the walk stands
at its first header (R167, R303; log 8). -/
def ExtStartHeld (i : Instr) (tr : Transaction) (s t : State) : Prop :=
  (∃ imm, i = .findExtCap imm) ∧ s.seq = .run .start ∧ tr = .read 256 4 ∧
    t = { afterTransaction tr s with
      seq := .run .extEntry, cur := 256, trip := extTripLimit s.params.extTrip s.lOpa.toNat - 1 }

/-- The forms of one step of a command. -/
inductive Shape (i : Instr) (s t : State) : Prop where
  /-- a completion (R250, R251) -/
  | completes (c : Completion) (cur trip : Nat) (h : t = complete c { s with cur := cur, trip := trip })
  /-- one transaction of 1, 2 or 4 bytes (R62); a failure goes to `raise IO_FAILURE` (R257) -/
  | transacts (tr : Transaction) (h : Transacted tr s t) (hb : tr.bytes = 1 ∨ tr.bytes = 2 ∨ tr.bytes = 4)
      (hf : ∀ kind left, s.port.event.reply = .fail kind left →
        t.seq = .run (.complete (.raised (.ioFailure kind tr.off))))
      (hs : s.port.event.reply = .silent → t = afterTransaction tr s ∨ ExtStartHeld i tr s t)
  /-- one sample of NOW (R33) -/
  | samples (q : Seq) (d : Nat)
      (h : t = { s with
        now := s.now + s.clock.tick, clock := s.clock.advance, log := .now (s.now + s.clock.tick) :: s.log,
        seq := q, deadline := d })
  /-- one turn of a sleep (R83) -/
  | sleeps (wake : Nat) (p : Point) (hq : s.seq = .sleep wake p) (h : t = sleepTurn wake p s)

theorem Transacted.goto {tr : Transaction} {s t : State} (h : Transacted tr s t) (p : Point) :
    Transacted tr s (goto p t) := by
  obtain ⟨q, cur, trip, base, v, rfl⟩ := h
  exact ⟨.run p, cur, trip, base, v, rfl⟩

theorem Transacted.refl (tr : Transaction) (s : State) : Transacted tr s (afterTransaction tr s) :=
  ⟨s.seq, s.cur, s.trip, s.base, s.v, rfl⟩

theorem Transacted.cur {tr : Transaction} {s t : State} (h : Transacted tr s t) (c : Nat) :
    Transacted tr s { t with cur := c } := by
  obtain ⟨q, cur, trip, base, v, rfl⟩ := h
  exact ⟨q, c, trip, base, v, rfl⟩

theorem Transacted.trip {tr : Transaction} {s t : State} (h : Transacted tr s t) (n : Nat) :
    Transacted tr s { t with trip := n } := by
  obtain ⟨q, cur, trip, base, v, rfl⟩ := h
  exact ⟨q, cur, n, base, v, rfl⟩

theorem Transacted.base {tr : Transaction} {s t : State} (h : Transacted tr s t) (b : Nat) :
    Transacted tr s { t with base := b } := by
  obtain ⟨q, cur, trip, base, v, rfl⟩ := h
  exact ⟨q, cur, trip, b, v, rfl⟩

theorem Transacted.v {tr : Transaction} {s t : State} (h : Transacted tr s t) (x : Word) :
    Transacted tr s { t with v := x } := by
  obtain ⟨q, cur, trip, base, v, rfl⟩ := h
  exact ⟨q, cur, trip, base, x, rfl⟩

theorem Transacted.stdHead {tr : Transaction} {s t : State} (h : Transacted tr s t) (at_ : WalkPoint → Point) :
    Transacted tr s (stdHead at_ t) := by
  obtain ⟨n, e | ⟨-, -, e⟩⟩ := stdHead_cases at_ t <;> rw [e] <;> exact (h.trip n).goto _

theorem Transacted.extHead {tr : Transaction} {s t : State} (h : Transacted tr s t) (size : Nat) :
    Transacted tr s (extHead size t) := by
  obtain ⟨n, e | ⟨-, -, e⟩⟩ := extHead_cases size t <;> rw [e] <;> exact (h.trip n).goto _

variable {i : Instr}

/-- A transaction is one step of the second form, whatever comes after its answer. -/
theorem withTransaction_shape {tr : Transaction} {s : State} {k : Word → State → State}
    (hb : tr.bytes = 1 ∨ tr.bytes = 2 ∨ tr.bytes = 4)
    (hk : ∀ v, Transacted tr s (k v (afterTransaction tr s))) : Shape i s (withTransaction tr s k) := by
  rcases withTransaction_cases tr s k with ⟨v, -, hr, e⟩ | ⟨kind, left, hr, e⟩ | ⟨hr, e⟩ <;> rw [e]
  · exact .transacts tr (hk v) hb (by simp [hr]) (by simp [hr])
  · refine .transacts tr ((Transacted.refl tr s).goto _) hb ?_ (by simp [hr])
    rintro kind' left' h
    rw [hr] at h
    cases h
    rfl
  · exact .transacts tr (Transacted.refl tr s) hb (by simp [hr]) fun _ => .inl rfl

theorem raise_shape (e : Err) (s : State) : Shape i s (raise e s) := .completes (.raised e) s.cur s.trip rfl

theorem checked_shape {off n : Nat} {s go : State} (h : Shape i s go) : Shape i s (checked off n s go) := by
  unfold checked
  split
  · exact h
  · exact raise_shape _ s

theorem cfgReadThen_shape {off n : Nat} {s : State} {k : Word → State → State} (hn : n = 1 ∨ n = 2 ∨ n = 4)
    (hk : ∀ v, Transacted (.read off n) s (k v (afterTransaction (.read off n) s))) :
    Shape i s (cfgReadThen off n s k) :=
  checked_shape (withTransaction_shape hn hk)

theorem cfgWriteThen_shape {off n : Nat} {v : Word} {s : State} {k : State → State} (hn : n = 1 ∨ n = 2 ∨ n = 4)
    (hk : Transacted (.write off n v) s (k (afterTransaction (.write off n v) s))) :
    Shape i s (cfgWriteThen off n v s k) :=
  checked_shape (withTransaction_shape hn fun _ => hk)

theorem rmwReadThen_shape (off : Nat) (after : Point) (s : State) : Shape i s (rmwReadThen off after s) :=
  cfgReadThen_shape (by simp) fun v => ((Transacted.refl _ s).v v).goto after

theorem rmwWriteThen_shape (off : Nat) (set clr : Half) (s : State) {k : State → State}
    (hk : ∀ tr, Transacted tr s (k (afterTransaction tr s))) : Shape i s (rmwWriteThen off set clr s k) :=
  cfgWriteThen_shape (by simp) (hk _)

theorem findStd_shape (id : Byte) (at_ : WalkPoint → Point) (found : State → State) (w : WalkPoint) (s : State)
    (hf : ∀ tr, Transacted tr s (found (afterTransaction tr s))) : Shape i s (findStd id at_ found w s) := by
  cases w <;> refine cfgReadThen_shape (by simp) fun v => ?_
  · split <;> exact (Transacted.refl _ s).goto _
  · split <;> exact (Transacted.refl _ s).goto _
  · split
    · exact ((Transacted.refl _ s).cur 0).goto _
    · exact (((Transacted.refl _ s).cur _).trip _).stdHead _
  · split
    · exact (Transacted.refl _ s).goto _
    · split
      · exact hf _
      · exact ((Transacted.refl _ s).cur _).stdHead _

/-- The extended read raises at a misaligned CUR, or is one transaction (R167, R169). -/
theorem extRead_forms (size : Nat) (id : Half) (s : State) :
    extRead size id s = complete (.raised (.alignmentViolation s.cur)) s ∨
      Transacted (.read s.cur 4) s (extRead size id s) ∧
        (∀ kind left, s.port.event.reply = .fail kind left →
          (extRead size id s).seq = .run (.complete (.raised (.ioFailure kind s.cur)))) ∧
        (s.port.event.reply = .silent → extRead size id s = afterTransaction (.read s.cur 4) s) := by
  unfold extRead
  rcases cfgReadThen_cases s.cur 4 s _ with ⟨-, e⟩ | ⟨-, hr, e⟩ | ⟨kind, left, -, hr, e⟩ | ⟨-, hr, e⟩
  · exact .inl e
  · rw [e]
    refine .inr ⟨?_, by simp [hr], by simp [hr]⟩
    split
    · exact (Transacted.refl _ s).goto _
    · split
      · exact (Transacted.refl _ s).goto _
      · split
        · exact (Transacted.refl _ s).goto _
        · exact ((Transacted.refl _ s).cur _).extHead _
  · rw [e]
    refine .inr ⟨(Transacted.refl _ s).goto _, ?_, by simp [hr]⟩
    rintro kind' left' h
    rw [hr] at h
    cases h
    rfl
  · rw [e]
    exact .inr ⟨Transacted.refl _ s, by simp [hr], fun _ => rfl⟩

theorem extRead_shape (size : Nat) (id : Half) (s : State) : Shape i s (extRead size id s) := by
  rcases extRead_forms size id s with e | ⟨ht, hf, hs⟩
  · rw [e]; exact .completes _ s.cur s.trip rfl
  · exact .transacts _ ht (.inr (.inr rfl)) hf fun hr => .inl (hs hr)

theorem extStart_shape {id : Half} {s : State} (hq : s.seq = .run .start) :
    Shape (.findExtCap id) s (extStart s.lOpa.toNat id s) := by
  rcases extStart_cases s.lOpa.toNat id s with ⟨c, n, e⟩ | ⟨n, -, hn, e⟩ <;> rw [e]
  · exact .completes _ c n rfl
  · rcases extRead_forms s.lOpa.toNat id (goto .extEntry { s with cur := 256, trip := n }) with
      e | ⟨⟨q, cur, trip, base, v, h⟩, hf, hs⟩
    · rw [e]; exact .completes _ 256 n rfl
    · refine .transacts (.read 256 4) ⟨q, cur, trip, base, v, h⟩ (.inr (.inr rfl)) hf fun hr => .inr ?_
      refine ⟨⟨id, rfl⟩, hq, rfl, ?_⟩
      rw [hs hr, hn, Nat.add_sub_cancel]
      rfl

theorem withSample_shape {s : State} {k : Nat → State → State}
    (hk : ∀ now t, ∃ q d, k now t = { t with seq := q, deadline := d }) : Shape i s (withSample s k) := by
  obtain ⟨q, d, h⟩ := hk (s.now + s.clock.tick)
    { s with now := s.now + s.clock.tick, clock := s.clock.advance, log := .now (s.now + s.clock.tick) :: s.log }
  exact .samples q d (by rw [withSample, h])

theorem sleepNext_transacted {tr : Transaction} {s t : State} (h : Transacted tr s t) (d : Quad) (resume : Point) :
    Transacted tr s (sleepNext d resume t) := by
  unfold sleepNext
  split <;> exact h.goto _

theorem findPcie_shape (site : Site) (after : Point) (w : WalkPoint) (s : State) : Shape i s (findPcie site after w s) :=
  findStd_shape _ _ _ w s fun tr => ((Transacted.refl tr s).base _).goto after

/-- At a program point of its own every command takes a step of one of the forms. -/
theorem atPoint_shape {s t : State} {f : Point → Host.Outcome State Fault Refusal} (h : atPoint s f = .next t)
    (hf : ∀ p, s.seq = .run p → f p = .next t → Shape i s t) : Shape i s t := by
  unfold atPoint at h
  split at h
  · cases h
  · next wake p hq => cases h; exact .sleeps wake p hq rfl
  · next c hq => cases h; exact .completes c s.cur s.trip rfl
  · next p _ hq => exact hf p hq h

theorem linkRmw_shape {set clr : Half} {last : State → State} {p : Point} {s t : State}
    (h : linkRmw set clr last p s = .next t) (hl : ∀ tr, Transacted tr s (last (afterTransaction tr s))) :
    Shape i s t := by
  unfold linkRmw at h
  split at h <;> first | (cases h; done) | skip
  · cases h; exact findPcie_shape ..
  · cases h; exact findPcie_shape ..
  · cases h; exact rmwReadThen_shape ..
  · cases h; exact rmwWriteThen_shape _ _ _ _ hl

/-- Everything one step of a command can do (R11): it is of one of the four forms. -/
theorem exec_shape {s t : State} (h : exec i s = .next t) : Shape i s t := by
  cases i with
  | cfgRead n off =>
    refine atPoint_shape h fun p _ hp => ?_
    split at hp <;> cases hp
    · exact checked_shape (withTransaction_shape (by simp [Transaction.bytes]) fun v => (Transacted.refl _ s).goto _)
    · next hn =>
      refine cfgReadThen_shape ?_ fun v => (Transacted.refl _ s).goto _
      cases n with
      | w1 => exact .inl rfl
      | w2 => exact .inr (.inl rfl)
      | w4 => exact .inr (.inr rfl)
      | w8 => exact (hn rfl).elim
    · exact withTransaction_shape (by simp [Transaction.bytes]) fun v => (Transacted.refl _ s).goto _
  | cfgWrite n off =>
    refine atPoint_shape h fun p _ hp => ?_
    split at hp <;> cases hp
    · refine checked_shape ?_
      split
      · refine withTransaction_shape ?_ fun v => ?_
        · cases n <;> simp [Transaction.bytes, Width.bytes]
        · split <;> exact (Transacted.refl _ s).goto _
      · exact raise_shape _ s
    · exact withTransaction_shape (by simp [Transaction.bytes]) fun v => (Transacted.refl _ s).goto _
  | findStdCap imm =>
    refine atPoint_shape h fun p _ hp => ?_
    split at hp <;> cases hp <;> exact findStd_shape _ _ _ _ s fun tr => (Transacted.refl tr s).goto _
  | findExtCap imm =>
    refine atPoint_shape h fun p hq hp => ?_
    split at hp <;> cases hp
    · exact extStart_shape hq
    · exact extRead_shape ..
  | linkEnable => exact atPoint_shape h fun p _ hp => linkRmw_shape hp fun tr => (Transacted.refl tr s).goto _
  | linkDisable => exact atPoint_shape h fun p _ hp => linkRmw_shape hp fun tr => (Transacted.refl tr s).goto _
  | linkRetrain f =>
    refine atPoint_shape h fun p _ hp => ?_
    split at hp
    · cases hp; exact rmwReadThen_shape ..
    · cases hp; exact rmwWriteThen_shape _ _ _ _ fun tr => (Transacted.refl tr s).goto _
    · refine linkRmw_shape hp fun tr => ?_
      split <;> exact (Transacted.refl tr s).goto _
  | linkSetTargetSpeed k f =>
    refine atPoint_shape h fun p _ hp => ?_
    split at hp
    · cases hp; exact raise_shape _ s
    · split at hp <;> cases hp
      · exact findPcie_shape ..
      · exact findPcie_shape ..
      · refine cfgReadThen_shape (by simp) fun v => ?_
        split <;> exact (Transacted.refl _ s).goto _
      · exact rmwReadThen_shape ..
      · refine cfgWriteThen_shape (by simp) ?_
        split <;> exact (Transacted.refl _ s).goto _
      · exact findPcie_shape ..
      · exact rmwReadThen_shape ..
      · exact rmwWriteThen_shape _ _ _ _ fun tr => (Transacted.refl tr s).goto _
  | linkReadStatus =>
    refine atPoint_shape h fun p _ hp => ?_
    split at hp <;> cases hp
    · exact findPcie_shape ..
    · exact findPcie_shape ..
    · exact cfgReadThen_shape (by simp) fun v => (Transacted.refl _ s).goto _
  | linkWaitForTraining =>
    refine atPoint_shape h fun p _ hp => ?_
    split at hp <;> cases hp
    · exact withSample_shape fun now t => ⟨_, _, rfl⟩
    · exact findPcie_shape ..
    · refine cfgReadThen_shape (by simp) fun v => ?_
      split <;> exact ((Transacted.refl _ s).v v).goto _
    · refine withSample_shape fun now t => ?_
      split
      · exact ⟨_, t.deadline, rfl⟩
      · unfold sleepNext
        split <;> exact ⟨_, t.deadline, rfl⟩
    · exact withSample_shape fun now t => ⟨_, t.deadline, rfl⟩
  | hotReset =>
    refine atPoint_shape h fun p _ hp => ?_
    split at hp <;> cases hp
    · refine cfgReadThen_shape (by simp) fun v => ?_
      split <;> exact (Transacted.refl _ s).goto _
    · exact rmwReadThen_shape ..
    · exact rmwWriteThen_shape _ _ _ _ fun tr => sleepNext_transacted (Transacted.refl tr s) _ _
    · exact withSample_shape fun now t => ⟨_, t.deadline, rfl⟩
    · exact rmwReadThen_shape ..
    · exact rmwWriteThen_shape _ _ _ _ fun tr => (Transacted.refl tr s).goto _
  | linkSetControlBits f imm =>
    exact atPoint_shape h fun p _ hp => linkRmw_shape hp fun tr => (Transacted.refl tr s).goto _

end Sys2Proof.Machine
end

