-- ==== Sys2Proof/Laws/PerInstr.lean ====
section
/-! SUPPORT. Statements about every command, one lemma per constructor. -/

namespace Sys2Proof

/-- The low five bits of a command's CMD word are its opcode, bits [15:9] are 0, and the opcode is 0x01 to 0x0C (R101,
R104). -/
def Laws.CmdWord.Statement (i : Instr) : Prop :=
  fieldOp (encode i) = i.opcode ∧ (encode i).extractLsb' 9 7 = 0#7 ∧ 0x01#5 ≤ i.opcode ∧ i.opcode ≤ 0x0C#5

/-- The fields below IMM of a word put together by `cmd32` (R101). -/
theorem cmd32_low (op : BitVec 5) (w : BitVec 2) (f k : Bool) (imm : Half) :
    fieldOp (cmd32 op w f k imm) = op ∧ (cmd32 op w f k imm).extractLsb' 9 7 = 0#7 := by
  refine ⟨?_, ?_⟩ <;> ext j hj <;> simp only [fieldOp, cmd32, BitVec.getElem_extractLsb', BitVec.getLsbD_append] <;>
    interval_cases j <;> simp

theorem opcode_range (i : Instr) : 0x01#5 ≤ i.opcode ∧ i.opcode ≤ 0x0C#5 := by
  cases i <;> exact ⟨by simp only [Instr.opcode]; decide, by simp only [Instr.opcode]; decide⟩

theorem cmdWord_of {i : Instr} {w : BitVec 2} {f k : Bool} {imm : Half} (h : encode i = cmd32 i.opcode w f k imm) :
    Laws.CmdWord.Statement i := by
  rw [Laws.CmdWord.Statement, h]
  exact ⟨(cmd32_low ..).1, (cmd32_low ..).2, opcode_range i⟩

theorem Laws.CmdWord.cfgRead (n : Width) (off : Half) : Laws.CmdWord.Statement (.cfgRead n off) :=
  cmdWord_of rfl

theorem Laws.CmdWord.cfgWrite (n : Width) (off : Half) : Laws.CmdWord.Statement (.cfgWrite n off) :=
  cmdWord_of rfl

theorem Laws.CmdWord.findStdCap (imm : Half) : Laws.CmdWord.Statement (.findStdCap imm) := cmdWord_of rfl

theorem Laws.CmdWord.findExtCap (imm : Half) : Laws.CmdWord.Statement (.findExtCap imm) := cmdWord_of rfl

theorem Laws.CmdWord.linkEnable : Laws.CmdWord.Statement .linkEnable := cmdWord_of rfl

theorem Laws.CmdWord.linkDisable : Laws.CmdWord.Statement .linkDisable := cmdWord_of rfl

theorem Laws.CmdWord.linkRetrain (f : Bool) : Laws.CmdWord.Statement (.linkRetrain f) := cmdWord_of rfl

theorem Laws.CmdWord.linkSetTargetSpeed (k : SpeedKind) (f : Bool) :
    Laws.CmdWord.Statement (.linkSetTargetSpeed k f) :=
  cmdWord_of rfl

theorem Laws.CmdWord.linkReadStatus : Laws.CmdWord.Statement .linkReadStatus := cmdWord_of rfl

theorem Laws.CmdWord.linkWaitForTraining : Laws.CmdWord.Statement .linkWaitForTraining := cmdWord_of rfl

theorem Laws.CmdWord.hotReset : Laws.CmdWord.Statement .hotReset := cmdWord_of rfl

theorem Laws.CmdWord.linkSetControlBits (f : Bool) (imm : Half) :
    Laws.CmdWord.Statement (.linkSetControlBits f imm) :=
  cmdWord_of rfl

end Sys2Proof
end

