-- ==== Sys2Proof/Laws/Run.lean ====
section
/-! SUPPORT. The end and the outcome of a run (70_reset_and_hazards.md R294). -/

namespace Sys2Proof.Machine

/-- The actions that issue a command are the writes of CMD. -/
theorem HostAct.issues_iff (a : HostAct) : a.issues = true ↔ ∃ x, a = .write 0 x := by
  cases a <;> simp [HostAct.issues]

/-- A run has ended when no write of CMD is left and STATUS shows DONE = 1 with BUSY = 0. -/
theorem runEnded_iff (s : State) :
    runEnded s = true ↔
      (∀ a ∈ s.host, ∀ x, a ≠ .write 0 x) ∧ statusDone s.status = true ∧ statusBusy s.status = false := by
  simp only [runEnded, Bool.and_eq_true, Bool.not_eq_true', List.any_eq_false, HostAct.issues_iff, and_assoc, not_exists]

/-- A host access other than a write of CMD keeps STATUS, the record and the schedule. -/
theorem hostWrite_kept {r : Nat} (hr : r ≠ 0) (x : Quad) (s : State) :
    (hostWrite r x s).status = s.status ∧ (hostWrite r x s).log = s.log ∧ (hostWrite r x s).host = s.host := by
  unfold hostWrite
  rw [if_neg hr]
  split
  · exact ⟨rfl, rfl, rfl⟩
  · split <;> exact ⟨rfl, rfl, rfl⟩

/-- The outcome and the end of a run depend on the schedule, the record and STATUS only; a value the host reads is no part
of the outcome. -/
theorem runOutcome_recordRead (r : Nat) (s : State) : runOutcome (recordRead r s) = runOutcome s := by
  simp [runOutcome, recordRead, Event.completionView, Event.answered]

/-- A run that has ended stays ended with its outcome, whatever the host still does, until it resets the core. -/
theorem step_ended {s t : State} (he : runEnded s = true) (hq : s.seq = .idle)
    (hr : ∀ left rest, s.host ≠ .reset left :: rest) (h : step s = .next t) :
    runEnded t = true ∧ runOutcome t = runOutcome s := by
  rw [runEnded_iff] at he ⊢
  obtain ⟨hi, hd, hb⟩ := he
  unfold step sequencerTurn at h
  split at h
  · split at h <;> rename_i hh
    · rw [hq] at h
      cases h
      exact ⟨⟨hi, hd, hb⟩, rfl⟩
    · simp only [hq] at h
      cases h
      exact ⟨⟨fun a ha => hi a (by simp [hh, ha]), hd, hb⟩, rfl⟩
    · cases h
      exact ⟨⟨fun a ha => hi a (by simp [hh, ha]), hd, hb⟩, rfl⟩
    · next r x rest =>
      cases h
      have h0 : r ≠ 0 := fun e => hi (.write r x) (by simp [hh]) x (by rw [e])
      obtain ⟨e1, e2, e3⟩ := hostWrite_kept h0 x { s with host := rest }
      simp only [e1, e3]
      exact ⟨⟨fun a ha => hi a (by simp [hh, ha]), hd, hb⟩, by simp only [runOutcome, e1, e2]⟩
    · cases h
      exact ⟨⟨fun a ha => hi a (by rw [hh]; exact List.mem_cons_of_mem _ ha), hd, hb⟩, runOutcome_recordRead _ _⟩
    · exact absurd hh (hr _ _)
  · cases h

end Sys2Proof.Machine
end

