-- ==== Sys2Proof/Tests/Slice0.lean ====
section
/-! SUPPORT. The model's own tests: one step each, on the images and with the results of 95_test_vectors.md (named in each
docstring), and for every obligation with hypotheses a concrete case that meets them. -/

namespace Sys2Proof.Machine.Tests

/-! ### Images (95_test_vectors.md section 0) and small states -/

/-- Image B. -/
def imageB : Memory :=
  [(0, 0x11#8), (1, 0x22#8), (2, 0x33#8), (3, 0x44#8), (4, 0x55#8), (5, 0x66#8), (6, 0x77#8), (7, 0x88#8)]

/-- Image S. -/
def imageS : Memory :=
  [(0x06, 0x10#8), (0x34, 0x50#8), (0x50, 0x01#8), (0x51, 0x60#8), (0x60, 0x10#8), (0x61, 0x70#8), (0x70, 0xFF#8)]

/-- Image X. -/
def imageX : Memory := [(0x100, 0x10#8), (0x103, 0x20#8), (0x200, 0x01#8)]

/-- Image L, with the bytes of `more` changed. -/
def imageL (more : List Host.Cell) : Memory :=
  Memory.apply
    [(0x06, 0x10#8), (0x34, 0x40#8), (0x3E, 0x03#8), (0x40, 0x01#8), (0x41, 0x50#8), (0x50, 0x10#8), (0x52, 0x02#8),
      (0x60, 0x40#8), (0x62, 0x43#8), (0x80, 0x02#8)] more

/-- A running command at `p`, with an operand, over the bytes `m`, on the ideal port and the ideal clock. BASE is that of
image L. -/
def run (m : Memory) (p : Point) (a : Quad) : State :=
  { State.reset with
    status := 0x00000001#32, seq := .run p, cs := m, lOpa := a, base := 0x50
    port := { script := [], tail := .ideal, drawn := 0 }
    clock := { script := [], tail := .ideal, drawn := 0 } }

/-- `run` with a port that gives `r` next. -/
def runReply (m : Memory) (p : Point) (a : Quad) (r : Reply) : State :=
  { run m p a with port := { script := [{ others := [], reply := r }], tail := .ideal, drawn := 0 } }

/-- An idle core over the bytes `m` whose host does `h`. -/
def idleWith (m : Memory) (h : List HostAct) : State :=
  { run m .start 0#64 with status := 0#32, seq := .idle, host := h }

/-- The state an outcome gives, if it gives one. -/
def got (o : Host.Outcome State Fault Refusal) : Option State :=
  match o with
  | .next t => some t
  | .fault _ => none
  | .refused _ => none

/-- Where one step of a command leaves the sequencer. -/
def seqAfter (i : Instr) (s : State) : Option Seq := (got (exec i s)).map (·.seq)

/-- The newest entry of the record after one step of a command. -/
def eventAfter (i : Instr) (s : State) : Option Event := (got (exec i s)).bind (·.log.head?)

/-- STATUS after one step of a command. -/
def statusAfter (i : Instr) (s : State) : Option Word := (got (exec i s)).map (·.status)

/-- `OK` with these results comes next. -/
def okNext (r r2 : Quad) : Option Seq := some (.run (.complete (.finishOk r r2)))

/-- A 2-byte write was the step's event. -/
def wrote2 (off : Nat) (v : Word) : Option Event := some (.transaction (.write off 2 v) (.ok v))

/-! ### Well-formedness and decoding -/

/-- R103, R106: FIND_STD_CAP with `IMM[15:8]` not 0 has no encoding. -/
theorem test_illFormed_findStdCap : (Instr.findStdCap 0x0110#16).wellFormed = false := by decide

theorem test_wellFormed_findStdCap : (Instr.findStdCap 0x00FF#16).wellFormed = true := by decide

/-! Words written out from R101 and R104: IMM, RSV, K, F, W, OP. -/

theorem test_decode_cfgRead : decode 0b0000000001100000_0000000_0_0_01_00001#32 = .ok (.cfgRead .w2 0x0060#16) := by
  decide

theorem test_decode_cfgWrite : decode 0b0000000000001100_0000000_0_0_11_00010#32 = .ok (.cfgWrite .w8 0x000C#16) := by
  decide

theorem test_decode_findStdCap : decode 0b0000000000010000_0000000_0_0_00_00011#32 = .ok (.findStdCap 0x0010#16) := by
  decide

theorem test_decode_findExtCap : decode 0b0001001000110100_0000000_0_0_00_00100#32 = .ok (.findExtCap 0x1234#16) := by
  decide

theorem test_decode_linkEnable : decode 0b0000000000000000_0000000_0_0_00_00101#32 = .ok .linkEnable := by decide

theorem test_decode_linkDisable : decode 0b0000000000000000_0000000_0_0_00_00110#32 = .ok .linkDisable := by decide

theorem test_decode_linkRetrain : decode 0b0000000000000000_0000000_0_1_00_00111#32 = .ok (.linkRetrain true) := by
  decide

theorem test_decode_linkSetTargetSpeed :
    decode 0b0000000000000000_0000000_1_0_00_01000#32 = .ok (.linkSetTargetSpeed .bySpeed false) ∧
      decode 0b0000000000000000_0000000_0_1_00_01000#32 = .ok (.linkSetTargetSpeed .byCode true) := by
  decide

theorem test_decode_linkReadStatus : decode 0b0000000000000000_0000000_0_0_00_01001#32 = .ok .linkReadStatus := by
  decide

theorem test_decode_linkWaitForTraining :
    decode 0b0000000000000000_0000000_0_0_00_01010#32 = .ok .linkWaitForTraining := by decide

theorem test_decode_hotReset : decode 0b0000000000000000_0000000_0_0_00_01011#32 = .ok .hotReset := by decide

theorem test_decode_linkSetControlBits :
    decode 0b0000000001000001_0000000_0_0_00_01100#32 = .ok (.linkSetControlBits false 0x0041#16) ∧
      decode 0b0000000000000011_0000000_0_1_00_01100#32 = .ok (.linkSetControlBits true 0x0003#16) := by
  decide

/-- A word is illegal. -/
def isIllegal (w : Word) : Bool :=
  match decode w with
  | .ok _ => false
  | .error _ => true

/-- T-DEC-1 to T-DEC-7, T-STD-23, and the words of P4 lines 7 and 8. -/
theorem test_illegal_words :
    [0x00000000#32, 0x0000000D#32, 0x0000001F#32, 0x00000200#32, 0x00000025#32, 0x00000085#32, 0x00010005#32,
      0x00000089#32, 0x00010009#32, 0x00000107#32, 0x0000008B#32, 0x0000010C#32, 0x00000180#32, 0x00000208#32,
      0x01000003#32, 0x00200087#32].all isIllegal = true := by
  decide

theorem test_decodeTableWord :
    decodeTableWord 32 0x0041000C = some (.linkSetControlBits false 0x0041#16) ∧ decodeTableWord 32 0x0D = none := by
  decide

/-! ### One step of each command -/

/-- T-CFG-2. -/
theorem test_cfgRead_two_bytes : seqAfter (.cfgRead .w2 0#16) (run imageB .start 0#64) = okNext 0x2211#64 0#64 := by
  decide

/-- T-CFG-4: the high word is read second and lands above the low one. -/
theorem test_cfgRead_high_half :
    seqAfter (.cfgRead .w8 0#16) (run imageB (.readHigh 0x44332211#32) 0#64) = okNext 0x8877665544332211#64 0#64 := by
  decide

/-- T-CFG-12: 0x100 does not fit one byte. -/
theorem test_cfgWrite_out_of_range :
    statusAfter (.cfgWrite .w1 0x10#16) (run [] .start 0x100#64) = some 0x00000032#32 := by
  decide

/-- T-CFG-21: the high half of an 8-byte write. -/
theorem test_cfgWrite_high_half :
    eventAfter (.cfgWrite .w8 0x100#16) (run [] .writeHigh 0x1122334455667788#64) =
      some (.transaction (.write 0x104 4 0x11223344#32) (.ok 0x11223344#32)) := by
  decide

/-- T-STD-11: the entry is read at the masked offset, and RES is the pre-masked one. -/
theorem test_findStdCap_premasked :
    seqAfter (.findStdCap 0x10#16) { run [(0x50, 0x10#8), (0x51, 0x60#8)] (.walk .main .entry) 0#64 with cur := 0x52 } =
      okNext 0x52#64 0#64 := by
  decide

/-- T-STD-13: the sentinel ends the walk before the match. -/
theorem test_findStdCap_sentinel :
    seqAfter (.findStdCap 0xFF#16) { run imageS (.walk .main .entry) 0#64 with cur := 0x70 } =
      some (.run (.complete .finishNotFound)) := by
  decide

/-- R5: the default of P_EXT_TRIP, at the largest space and at one with no room for a second header. -/
theorem test_extTrip_default :
    extTripLimit Params.default.extTrip 4096 = 480 ∧ extTripLimit Params.default.extTrip 260 = 1 := by decide

/-- R5: another total function as the parameter, cs / 8. -/
theorem test_extTrip_given : extTripLimit (.div .size (.lit 8)) 4096 = 512 := by decide

/-- T-EXT-6. -/
theorem test_findExtCap_first : seqAfter (.findExtCap 0x10#16) (run imageX .start 4096#64) = okNext 0x100#64 0#64 := by
  decide

/-- T-EXT-4: the one trip is used up. -/
theorem test_findExtCap_trip :
    seqAfter (.findExtCap 0x1#16) (run imageX .start 260#64) = some (.run (.complete .finishNotFound)) := by
  decide

/-- T-LNK-1 with LC = 0x0050. -/
theorem test_linkEnable : eventAfter .linkEnable { run [] .rmwWrite 0#64 with v := 0x0050#32 } = wrote2 0x60 0x0040#32 := by
  decide

/-- T-LNK-3. -/
theorem test_linkDisable : eventAfter .linkDisable { run [] .rmwWrite 0#64 with v := 0x0040#32 } = wrote2 0x60 0x0050#32 := by
  decide

/-- T-LNK-5. -/
theorem test_linkRetrain_set :
    eventAfter (.linkRetrain false) { run [] .rmwWrite 0#64 with v := 0x0040#32 } = wrote2 0x60 0x0060#32 := by
  decide

/-- T-LNK-6. -/
theorem test_linkRetrain_clear :
    eventAfter (.linkRetrain true) { run [] .clearWrite 0#64 with v := 0x0060#32 } = wrote2 0x60 0x0040#32 := by
  decide

/-- T-LNK-15: bits [15:4] are kept. -/
theorem test_linkSetTargetSpeed_keeps :
    eventAfter (.linkSetTargetSpeed .byCode false) { run [] .speedWrite 6#64 with v := 0xABC5#32 } =
      wrote2 0x80 0xABC6#32 := by
  decide

/-- T-LNK-22: the pattern after that of 8.0 is no speed. -/
theorem test_linkSetTargetSpeed_range :
    statusAfter (.linkSetTargetSpeed .bySpeed false) (run (imageL []) .start 0x4020000000000001#64) =
      some 0x00000032#32 := by
  decide

/-- T-LNK-30. -/
theorem test_linkReadStatus :
    seqAfter .linkReadStatus (run (imageL [(0x62, 0x04#8), (0x63, 0x29#8)]) .statusRead 0#64) =
      okNext 0x29041A14#64 0x4030000000000000#64 := by
  decide

/-- T-LNK-32: an unknown speed code. -/
theorem test_linkReadStatus_unknown :
    seqAfter .linkReadStatus (run (imageL [(0x62, 0xFF#8), (0x63, 0xFF#8)]) .statusRead 0#64) =
      okNext 0xFFFF1FEF#64 0#64 := by
  decide

/-- T-WT-5: at the deadline the wait times out. -/
theorem test_linkWaitForTraining_deadline :
    seqAfter .linkWaitForTraining { run [] .deadlineCheck 30#64 with now := 30, deadline := 30, lOpb := 10#64 } =
      okNext 0#64 0#64 := by
  decide

/-- T-WT-3: the Sleep's own sample sets the wake time. -/
theorem test_linkWaitForTraining_sleep :
    seqAfter .linkWaitForTraining { run [] .sleepStart 1000#64 with now := 10, deadline := 1000, lOpb := 10#64 } =
      some (.sleep 20 (.walk .main .status)) := by
  decide

/-- T-HR-1: bit 6 set. -/
theorem test_hotReset_set :
    eventAfter .hotReset { run (imageL []) .rmwWrite 0#64 with v := 0x0003#32 } = wrote2 0x3E 0x0043#32 := by
  decide

/-- T-HR-4: header type 0. -/
theorem test_hotReset_not_a_bridge :
    seqAfter .hotReset (run (imageL []) .start 0#64) = some (.run (.complete (.raised .unsupportedOperation))) := by
  decide

/-- T-LNK-37. -/
theorem test_linkSetControlBits_set :
    eventAfter (.linkSetControlBits true 0x0003#16) { run [] .rmwWrite 0#64 with v := 0x0040#32 } =
      wrote2 0x60 0x0043#32 := by
  decide

/-- T-LNK-38. -/
theorem test_linkSetControlBits_clear :
    eventAfter (.linkSetControlBits false 0x0041#16) { run [] .rmwWrite 0#64 with v := 0x0043#32 } =
      wrote2 0x60 0x0002#32 := by
  decide

/-! ### Issue, protocol, reset, memory -/

/-- The machine's next state, if it has one. -/
def stepped (s : State) : Option State := got (step s)

/-- T-ISS-1: what issue leaves, after an IO_FAILURE with PF set. -/
theorem test_issue :
    (stepped { idleWith imageB [.write 0 0x01#64] with status := 0x00000356#32, errAddr := 0x104#32 }).map
        (fun t => (t.status, t.res, t.errAddr, t.lCmd, t.seq)) =
      some (0x00000005#32, 0#64, 0#32, 0x01#32, .run .start) := by
  decide

/-- T-PF-1: a CMD write while a command sleeps. -/
theorem test_protocol_fault :
    (stepped { run (imageL []) .start 1000#64 with
        seq := .sleep 10 (.walk .main .status), host := [.write 0 0x09#64], lCmd := 0x0A#32 }).map
        (fun t => (t.status, t.lCmd, t.seq)) =
      some (0x00000005#32, 0x0A#32, .sleep 10 (.walk .main .status)) := by
  decide

/-- T-RST-1. -/
theorem test_reset :
    (stepped { run imageB .start 5#64 with status := 0x00000005#32, opa := 1#64, now := 7, host := [.reset []] }).map
        (fun t => (t.status, t.opa, t.seq, t.now, Memory.read t.cs 2)) = some (0#32, 0#64, .idle, 7, 0x33#8) := by
  decide

/-- R45: what reset leaves, as the host reads it. -/
theorem test_reset_reads_zero : (List.range 8).map (fun r => hostRead r State.reset) = List.replicate 8 0#64 := by decide

/-- The word placed by `withFetchWord` runs at the next step. -/
theorem test_withFetchWord :
    (stepped ((idleWith imageB [.read 4]).withFetchWord 32 0x21)).map (fun t => (t.seq, t.host)) =
      some (.run (.complete (.finishOk 0x2211#64 0#64)), [.read 4]) := by
  decide

/-- R63, and the canonical form: a stored 0 leaves no entry. -/
theorem test_memory :
    Memory.writeLE [] 0x100 4 0x20000010#32 = [(0x100, 0x10#8), (0x103, 0x20#8)] ∧
      Memory.readLE imageX 0x100 4 = 0x20000010#32 ∧ Memory.write [(5, 1#8)] 5 0#8 = [] ∧
      Memory.wf (imageL []) = true := by
  decide

/-- R44 on images: Link Disable first, then Link Training. -/
theorem test_linkState :
    linkState 0x0050#16 0x0843#16 = .disabled ∧ linkState 0x0040#16 0x0843#16 = .enabledTraining ∧
      linkState 0x0040#16 0x0043#16 = .enabledNotTraining := by
  decide

/-! ### Cases that meet the obligations' hypotheses, one per clause -/

/-- The port answers the next transaction. -/
def answers (s : State) : Prop := s.port.event.reply = .ok

theorem witness_DecodeEncodeAgree : (Instr.findStdCap 0x00FF#16).wellFormed = true := by decide

theorem witness_EncodeDecodeAgree : decode 0xFFFF008C#32 = .ok (.linkSetControlBits true 0xFFFF#16) := by decide

theorem witness_IllegalWordsExactly :
    ∃ s : State, (∃ r, decode s.lCmd = .error r) ∧ s.seq = .run .start ∧ s.host = [] ∧ paramsLegal s.params = true :=
  ⟨{ run [] .start 0#64 with lCmd := 0x0D#32 }, ⟨.reservedOpcode, by decide⟩, rfl, rfl, by decide⟩

theorem witness_StepRunsDecodedCommand :
    ∃ (s : State) (i : Instr), paramsLegal s.params = true ∧ s.seq ≠ .idle ∧ decode s.lCmd = .ok i ∧ s.host = [] :=
  ⟨{ run imageB .start 0#64 with lCmd := 0x21#32 }, .cfgRead .w2 0#16, by decide, by decide, by decide, rfl⟩

theorem witness_StepRunsDecodedCommand_waiting :
    ∃ (s : State) (i : Instr), paramsLegal s.params = true ∧ s.seq ≠ .idle ∧ decode s.lCmd = .ok i ∧
      s.host = [.awaitDone, .pass] ∧ statusDone s.status = false :=
  ⟨{ run imageB .start 0#64 with lCmd := 0x21#32, host := [.awaitDone, .pass] }, .cfgRead .w2 0#16, by decide, by decide,
    by decide, rfl, by decide⟩

theorem witness_StepRunsDecodedCommand_pass :
    ∃ (s : State) (i : Instr), paramsLegal s.params = true ∧ s.seq ≠ .idle ∧ decode s.lCmd = .ok i ∧ s.host = [.pass] :=
  ⟨{ run imageB .start 0#64 with lCmd := 0x21#32, host := [.pass] }, .cfgRead .w2 0#16, by decide, by decide, by decide,
    rfl⟩

theorem witness_CmdWriteIssues :
    ∃ s : State, paramsLegal s.params = true ∧ s.host = [.write 0 0x21#64] ∧ statusBusy s.status = false :=
  ⟨idleWith imageB [.write 0 0x21#64], by decide, rfl, by decide⟩

theorem witness_CmdWriteWhileBusyOnlySetsPf :
    ∃ s : State, paramsLegal s.params = true ∧ s.host = [.write 0 0x21#64] ∧ statusBusy s.status = true :=
  ⟨{ run imageB .start 0#64 with host := [.write 0 0x21#64] }, by decide, rfl, by decide⟩

theorem witness_CmdWriteWhileBusyOnlySetsPf_sticky :
    ∃ s t : State, step s = .next t ∧ statusPf s.status = true ∧ ∀ left rest, s.host ≠ .reset left :: rest :=
  ⟨{ run imageB .start 0#64 with status := 0x00000005#32, lCmd := 0x21#32 }, _, rfl, by decide,
    fun _ _ h => nomatch h⟩

theorem witness_CmdWriteWhileBusyOnlySetsPf_reset :
    ∃ s : State, paramsLegal s.params = true ∧ s.host = [.reset []] := ⟨idleWith [] [.reset []], by decide, rfl⟩

theorem witness_ReadsAndReadOnlyWritesChangeNothing :
    ∃ s : State, paramsLegal s.params = true ∧ s.host = [.write 6 1#64, .read 1] :=
  ⟨idleWith [] [.write 6 1#64, .read 1], by decide, rfl⟩

theorem witness_ReadsAndReadOnlyWritesChangeNothing_read :
    ∃ s : State, paramsLegal s.params = true ∧ s.host = [.read 1] := ⟨idleWith [] [.read 1], by decide, rfl⟩

theorem witness_RunningCommandReadsLatchedOperands :
    ∃ s : State, paramsLegal s.params = true ∧ s.host = [.write 2 0x33#64, .write 3 0#64] :=
  ⟨{ run [] .start 0x22#64 with host := [.write 2 0x33#64, .write 3 0#64] }, by decide, rfl⟩

theorem witness_ResetAbandonsAndClears :
    ∃ s : State, paramsLegal s.params = true ∧ s.host = [.reset [7#8, 0#8]] ∧ Memory.wf s.cs = true ∧
      s.inFlight = some (.write 0x60 2 0x40#32) :=
  ⟨{ run (imageL []) .rmwWrite 0#64 with host := [.reset [7#8, 0#8]], inFlight := some (.write 0x60 2 0x40#32) },
    by decide, rfl, by decide, rfl⟩

theorem witness_CompletionIsOneStep (c : Completion) : ∃ s : State, s.seq = .run (.complete c) :=
  ⟨run [] (.complete c) 0#64, rfl⟩

/-- R294: the last command's completion ends the run, with the host's wait and its reads still to come; one more write of
CMD to come and it has not ended. -/
theorem test_runEnded :
    (got (exec .linkEnable { run [] (.complete .finishNotFound) 0#64 with host := [.awaitDone, .read 4] })).map runEnded =
        some true ∧
      (got (exec .linkEnable { run [] (.complete .finishNotFound) 0#64 with host := [.awaitDone, .write 0 5#64] })).map
        runEnded = some false := by
  decide

/-- R294: the outcome after a failed read and its completion. -/
theorem test_runOutcome :
    (got (exec (.cfgRead .w4 0#16) (runReply imageB .start 0#64 (.fail .permissionDenied [])))).bind (fun t =>
        (got (exec (.cfgRead .w4 0#16) t)).map runOutcome) =
      some { completions := [{ code := 5#4, kind := 2#2, res := 0#64, res2 := 0#64, errAddr := 0#32 }]
             transactions := [(.read 0 4, .fail .permissionDenied)], pf := false } := by
  decide

theorem witness_MalformedParametersRefused : ∃ s : State, s.params.stdTripLimit = 0 :=
  ⟨{ State.reset with params := { Params.default with stdTripLimit := 0 } }, rfl⟩

theorem witness_LittleEndian : (0xFF#32).toNat < 2 ^ (8 * 1) ∧ (0xFFFF#32).toNat < 2 ^ (8 * 2) ∧
    (0xFFFFFFFF#32).toNat < 2 ^ (8 * 4) ∧ Memory.wf imageB = true := by
  decide

/-- A step of a command that reads, for the statements about every step. -/
theorem witness_StepIsAtMostOneEvent :
    ∃ t tr a, exec (.cfgRead .w2 0#16) (run imageB .start 0#64) = .next t ∧ t.log = .transaction tr a :: [] :=
  ⟨_, .read 0 2, .ok 0x2211#32, rfl, by decide⟩

/-- T-CFG-22. -/
theorem witness_PortFailureEndsCommand :
    ∃ t, exec (.cfgRead .w4 0#16) (runReply imageB .start 0#64 (.fail .resourceNotFound [])) = .next t ∧
      t.log = .transaction (.read 0 4) (.fail .resourceNotFound) :: [] :=
  ⟨_, rfl, by decide⟩

theorem witness_FailedWriteLeavesAnyValue :
    ∃ t, exec (.cfgWrite .w2 0#16) (runReply imageB .start 5#64 (.fail .ioError [0xAA#8, 0xBB#8])) = .next t ∧
      t.log = .transaction (.write 0 2 5#32) (.fail .ioError) :: [] :=
  ⟨_, rfl, by decide⟩

theorem witness_FailedWriteLeavesAnyValue_bytes :
    ∃ s : State, Memory.wf s.cs = true ∧ s.port.event.reply = .fail .ioError [0xAA#8, 0#8] :=
  ⟨runReply imageB .start 5#64 (.fail .ioError [0xAA#8, 0#8]), by decide, rfl⟩

theorem witness_SilentPortHoldsCommand :
    ∃ s t, s.seq = .run .start ∧ s.port.event.reply = .silent ∧ exec .linkEnable s = .next t ∧
      t.inFlight = some (.read 0x06 2) ∧ t.log = s.log :=
  ⟨runReply imageB .start 0#64 .silent, _, rfl, rfl, rfl, by decide, by decide⟩

/-- The first step of FIND_EXT_CAP, at the smallest size whose walk reads. -/
theorem witness_SilentPortHoldsCommand_extended :
    ∃ s t, s.seq = .run .start ∧ s.port.event.reply = .silent ∧ exec (.findExtCap 1#16) s = .next t ∧
      t.inFlight = some (.read 0x100 4) ∧ t.log = s.log :=
  ⟨runReply imageX .start 260#64 .silent, _, rfl, rfl, rfl, by decide, by decide⟩

theorem witness_RegisterFrame :
    ∃ t, exec .linkEnable (run (imageL []) .rmwRead 0#64) = .next t ∧ t.seq ≠ .idle := ⟨_, rfl, by decide⟩

theorem witness_MemoryFrame : ∃ t, exec .linkEnable (run (imageL []) .rmwWrite 0#64) = .next t := ⟨_, rfl⟩

theorem witness_ReadingCommandsNeverWrite : ∃ t, exec .linkReadStatus (run (imageL []) .statusRead 0#64) = .next t :=
  ⟨_, rfl⟩

theorem witness_CfgReadReads :
    (∃ s : State, answers s ∧ s.seq = .run .start ∧ (0x0006#16).toNat % Width.w2.bytes = 0) ∧
      (∃ s : State, answers s ∧ s.seq = .run .start ∧ (0xFFFC#16).toNat % 4 = 0) ∧
      ∃ s : State, answers s ∧ s.seq = .run (.readHigh 0xFFFFFFFF#32) :=
  ⟨⟨run imageB .start 0#64, rfl, rfl, by decide⟩, ⟨run imageB .start 0#64, rfl, rfl, by decide⟩,
    ⟨run imageB (.readHigh 0xFFFFFFFF#32) 0#64, rfl, rfl⟩⟩

theorem witness_CfgWriteWrites :
    (∃ s : State, answers s ∧ Memory.wf s.cs = true ∧ s.seq = .run .start ∧ (0x12#16).toNat % Width.w2.bytes = 0 ∧
      s.lOpa.toNat < 2 ^ (8 * Width.w2.bytes)) ∧
      ∃ s : State, answers s ∧ Memory.wf s.cs = true ∧ s.seq = .run .writeHigh :=
  ⟨⟨run imageB .start 0xFFFF#64, rfl, by decide, rfl, by decide, by decide⟩,
    ⟨run imageB .writeHigh 0xFFFFFFFFFFFFFFFF#64, rfl, by decide, rfl⟩⟩

theorem witness_MisalignedAccessIssuesNothing :
    (run imageB .start 0#64).seq = .run .start ∧ (0x0002#16).toNat % min Width.w8.bytes 4 ≠ 0 ∧
      (0x0001#16).toNat % min Width.w2.bytes 4 ≠ 0 := by
  decide

/-- T-CFG-12, T-LNK-20, T-LNK-23. -/
theorem witness_ValueOutOfRangeBeforeTransactions :
    (run [] .start 0x100#64).seq = .run .start ∧ (0x10#16).toNat % min Width.w1.bytes 4 = 0 ∧
      2 ^ (8 * Width.w1.bytes) ≤ (run [] .start 0x100#64).lOpa.toNat ∧ 6 < (7#64).toNat ∧
      (0xC020000000000000#64) ∉ [0x4004000000000000#64, 0x4014000000000000#64, 0x4020000000000000#64,
        0x4030000000000000#64, 0x4040000000000000#64, 0x4050000000000000#64] := by
  decide

theorem witness_WriteThenReadBack :
    ∃ (off : Half) (v : Quad) (s : State), paramsLegal s.params = true ∧ idealPort s ∧ Memory.wf s.cs = true ∧
      s.seq = .idle ∧ statusBusy s.status = false ∧ v.toNat < 2 ^ (8 * Width.w8.bytes) ∧
      s.host = [.write 2 v, .write 0 ((encode (.cfgWrite .w8 off)).setWidth 64), .awaitDone,
        .write 0 ((encode (.cfgRead .w8 off)).setWidth 64), .awaitDone] ∧ off.toNat % min Width.w8.bytes 4 = 0 :=
  ⟨0x1C#16, 0x0123456789ABCDEF#64,
    idleWith [] [.write 2 0x0123456789ABCDEF#64, .write 0 ((encode (.cfgWrite .w8 0x1C#16)).setWidth 64), .awaitDone,
      .write 0 ((encode (.cfgRead .w8 0x1C#16)).setWidth 64), .awaitDone],
    by decide, ⟨rfl, rfl⟩, by decide, rfl, by decide, by decide, rfl, by decide⟩

theorem witness_WriteThenReadBack_misaligned :
    ∃ (off : Half) (v : Quad) (s : State), paramsLegal s.params = true ∧ idealPort s ∧ Memory.wf s.cs = true ∧
      s.seq = .idle ∧ statusBusy s.status = false ∧ v.toNat < 2 ^ (8 * Width.w8.bytes) ∧
      s.host = [.write 2 v, .write 0 ((encode (.cfgWrite .w8 off)).setWidth 64), .awaitDone,
        .write 0 ((encode (.cfgRead .w8 off)).setWidth 64), .awaitDone] ∧ off.toNat % min Width.w8.bytes 4 ≠ 0 :=
  ⟨0x1E#16, 1#64,
    idleWith [] [.write 2 1#64, .write 0 ((encode (.cfgWrite .w8 0x1E#16)).setWidth 64), .awaitDone,
      .write 0 ((encode (.cfgRead .w8 0x1E#16)).setWidth 64), .awaitDone],
    by decide, ⟨rfl, rfl⟩, by decide, rfl, by decide, by decide, rfl, by decide⟩

theorem witness_FindStdCapIsTheStandardWalk :
    ∃ s : State, s.seq = .run .start ∧ idealPort s ∧ stdWalk s.cs s.params.stdTripLimit 0x10#8 = some 0x60 ∧
      stdWalk s.cs s.params.stdTripLimit 0x05#8 = none :=
  ⟨run imageS .start 0#64, rfl, ⟨rfl, rfl⟩, by decide, by decide⟩

theorem witness_FindExtCapIsTheExtendedWalk :
    ∃ s : State, s.seq = .run .start ∧ idealPort s ∧ extWalk s.cs s.params s.lOpa.toNat 0x0001#16 = .found 0x200 :=
  ⟨run imageX .start 0x204#64, rfl, ⟨rfl, rfl⟩, by decide⟩

/-- T-EXT-11 and T-EXT-2: the other two outcomes. -/
theorem witness_FindExtCapIsTheExtendedWalk_others :
    extWalk [(0x100, 0x01#8), (0x102, 0x70#8), (0x103, 0x20#8)] Params.default 0x300 0x0002#16 = .misaligned 0x207 ∧
      extWalk imageX Params.default 257 0x0001#16 = .notFound := by
  decide

theorem witness_FindStdCapTakesTheEntry :
    ∃ s : State, s.seq = .run (.walk .main .entry) ∧ answers s ∧
      (Memory.readLE s.seenCs (s.cur &&& 0xFC) 2).extractLsb' 0 8 = (0x0010#16).extractLsb' 0 8 :=
  ⟨{ run imageS (.walk .main .entry) 0#64 with cur := 0x63 }, rfl, rfl, by decide⟩

theorem witness_FindStdCapTakesTheEntry_before :
    (∃ s : State, answers s ∧ s.seq = .run (.walk .main .status)) ∧
      (∃ s : State, answers s ∧ s.seq = .run (.walk .main .header)) ∧
      ∃ s : State, answers s ∧ s.seq = .run (.walk .main (.pointer 0x14)) :=
  ⟨⟨run imageS (.walk .main .status) 0#64, rfl, rfl⟩, ⟨run imageS (.walk .main .header) 0#64, rfl, rfl⟩,
    ⟨run imageS (.walk .main (.pointer 0x14)) 0#64, rfl, rfl⟩⟩

/-- The entry at 0x50 of image S, for the ID 0x10. -/
theorem witness_FindStdCapTakesTheEntry_next :
    ∃ s : State, answers s ∧ s.seq = .run (.walk .main .entry) ∧
      (Memory.readLE s.seenCs (s.cur &&& 0xFC) 2).extractLsb' 0 8 ≠ (0x0010#16).extractLsb' 0 8 ∧
      (Memory.readLE s.seenCs (s.cur &&& 0xFC) 2).extractLsb' 0 8 ≠ 0xFF#8 :=
  ⟨{ run imageS (.walk .main .entry) 0#64 with cur := 0x50, trip := 1 }, rfl, rfl, by decide, by decide⟩

theorem witness_FindStdCapTakesTheEntry_sentinel :
    ∃ s : State, s.seq = .run (.walk .main .entry) ∧ answers s ∧
      (Memory.readLE s.seenCs (s.cur &&& 0xFC) 2).extractLsb' 0 8 = 0xFF#8 :=
  ⟨{ run imageS (.walk .main .entry) 0#64 with cur := 0x70 }, rfl, rfl, by decide⟩

theorem witness_FindExtCapTakesTheHeader :
    ∃ s : State, s.seq = .run .extEntry ∧ answers s ∧ s.cur % 4 = 0 ∧
      (Memory.readLE s.seenCs s.cur 4).extractLsb' 0 16 = 0x0001#16 :=
  ⟨{ run imageX .extEntry 4096#64 with cur := 0x200 }, rfl, rfl, by decide, by decide⟩

theorem witness_FindExtCapTakesTheHeader_end :
    ∃ s : State, s.seq = .run .extEntry ∧ answers s ∧ s.cur % 4 = 0 ∧ Memory.readLE s.seenCs s.cur 4 = 0#32 :=
  ⟨{ run imageX .extEntry 4096#64 with cur := 0xFFC }, rfl, rfl, by decide, by decide⟩

theorem witness_FindExtCapTakesTheHeader_misaligned : ∃ s : State, s.seq = .run .extEntry ∧ s.cur % 4 ≠ 0 :=
  ⟨{ run imageX .extEntry 4096#64 with cur := 0x207 }, rfl, by decide⟩

/-- The header at 0x100 of T-EXT-11, whose next-pointer is 0x207: followed under FAULT, masked to 0x204 under MASK, the end
of the walk under STOP. -/
theorem witness_FindExtCapTakesTheHeader_next (a : NextAlign) :
    ∃ s : State, s.seq = .run .extEntry ∧ answers s ∧ s.cur % 4 = 0 ∧ s.params.extNextAlign = a ∧
      Memory.readLE s.seenCs s.cur 4 = 0x20700001#32 ∧ (0x20700001#32).extractLsb' 0 16 ≠ 0x0002#16 ∧
      ((0x20700001#32).extractLsb' 20 12).toNat = 0x207 ∧
      ((0x20700001#32).extractLsb' 20 12 &&& 0xFFC#12).toNat = 0x204 :=
  ⟨{ run [(0x100, 0x01#8), (0x102, 0x70#8), (0x103, 0x20#8)] .extEntry 0x300#64 with
      cur := 0x100, trip := 5, params := { Params.default with extNextAlign := a } },
    rfl, rfl, by cases a <;> decide, rfl, by cases a <;> decide, by decide, by decide, by decide⟩

theorem witness_WalkReadsStayInTheirRegions :
    ∃ s t a, s.inv = true ∧ decode s.lCmd = .ok (.findExtCap 0x0001#16) ∧ exec (.findExtCap 0x0001#16) s = .next t ∧
      t.log = .transaction (.read 0x1FC 4) a :: s.log :=
  ⟨{ run imageX .extEntry 0x200#64 with cur := 0x1FC, lCmd := 0x00010004#32 }, _, .ok 0#32, by decide, by decide, rfl,
    by decide⟩

theorem witness_WalkReadsStayInTheirRegions_standard :
    ∃ s t a, s.inv = true ∧ decode s.lCmd = .ok .linkEnable ∧ s.seq = .run (.walk .main .entry) ∧
      exec .linkEnable s = .next t ∧ t.log = .transaction (.read 0xFC 2) a :: s.log :=
  ⟨{ run imageS (.walk .main .entry) 0#64 with cur := 0xFF, lCmd := 0x05#32 }, _, .ok 0#32, by decide, by decide, rfl, rfl,
    by decide⟩

/-- The hypotheses of the statements about one step at a link register: the point `p`, BASE even, the port answering. -/
theorem witness_link_steps (p : Point) :
    ∃ s : State, s.seq = .run p ∧ s.base % 2 = 0 ∧ answers s ∧ Memory.wf s.cs = true :=
  ⟨run [(0x60, 0x40#8)] p 0#64, rfl, by simp [run], rfl, by simp only [run]; decide⟩

theorem witness_LinkControlIsReadFirst :
    ∃ s : State, s.seq = .run .rmwRead ∧ s.base % 2 = 0 ∧ answers s ∧ normSpeed .byCode s.lOpa ≠ none :=
  ⟨run [] .rmwRead 6#64, rfl, by decide, rfl, by decide⟩

theorem witness_SetTargetSpeedWritesLinkControl2 :
    ∃ s : State, s.seq = .run .speedWrite ∧ s.base % 2 = 0 ∧ answers s ∧ Memory.wf s.cs = true ∧
      normSpeed .bySpeed s.lOpa = some 3#4 :=
  ⟨run [(0x60, 0x40#8)] .speedWrite 0x4020000000000000#64, rfl, by decide, rfl, by decide, by decide⟩

theorem witness_UnsupportedOperationBeforeWrites :
    (∃ s : State, answers s ∧ s.seq = .run .version ∧ s.base % 2 = 0 ∧ normSpeed .byCode s.lOpa ≠ none) ∧
      ∃ s : State, answers s ∧ s.seq = .run .start :=
  ⟨⟨run [] .version 1#64, rfl, rfl, by decide, by decide⟩, ⟨run [] .start 0#64, rfl, rfl⟩⟩

theorem witness_UnsupportedOperationBeforeWrites_run :
    ∃ s : State, s.seq = .run .start ∧ idealPort s ∧ normSpeed .byCode s.lOpa ≠ none ∧
      stdWalk s.cs s.params.stdTripLimit s.params.pcieCapId = some 0x50 ∧
      (Memory.readLE s.cs 0x52 2).extractLsb' 0 4 < 2#4 :=
  ⟨run (imageL [(0x52, 0xF1#8)]) .start 1#64, rfl, ⟨rfl, rfl⟩, by decide, by decide, by decide⟩

/-- The hypotheses of the statements about a whole link command, on image L with `more`. -/
theorem witness_link_runs :
    ∃ s : State, s.seq = .run .start ∧ idealPort s ∧ idealClock s ∧ Memory.wf s.cs = true ∧
      stdWalk s.cs s.params.stdTripLimit s.params.pcieCapId = some 0x50 ∧
      (Memory.readLE s.cs 0x62 2).getLsbD 11 = false :=
  ⟨run (imageL []) .start 0#64, rfl, ⟨rfl, rfl⟩, ⟨rfl, rfl⟩, by decide, by decide, by decide⟩

theorem witness_WaitForTrainingRuns_training :
    ∃ s : State, s.seq = .run .start ∧ idealPort s ∧ idealClock s ∧
      stdWalk s.cs s.params.stdTripLimit s.params.pcieCapId = some 0x50 ∧
      (Memory.readLE s.cs 0x62 2).getLsbD 11 = true ∧ s.lOpa = 0#64 :=
  ⟨run (imageL [(0x63, 0x08#8)]) .start 0#64, rfl, ⟨rfl, rfl⟩, ⟨rfl, rfl⟩, by decide, by decide, rfl⟩

theorem witness_SetTargetSpeedRuns :
    ∃ s : State, normSpeed .byCode s.lOpa = some 6#4 ∧ s.seq = .run .start ∧ idealPort s ∧ Memory.wf s.cs = true ∧
      stdWalk s.cs s.params.stdTripLimit s.params.pcieCapId = some 0x50 ∧
      2#4 ≤ (Memory.readLE s.cs 0x52 2).extractLsb' 0 4 ∧
      stdWalk (Memory.writeLE s.cs 0x80 2 6#32) s.params.stdTripLimit s.params.pcieCapId = some 0x50 :=
  ⟨run (imageL []) .start 6#64, by decide, rfl, ⟨rfl, rfl⟩, by decide, by decide, by decide, by decide⟩

/-- With the capability ID at 0x12, the write of Link Control 2 turns the entry at 0x80, reached by the pointer 0x83, into
the first one that matches. -/
theorem witness_SetTargetSpeedRuns_odd :
    ∃ s : State, normSpeed .byCode s.lOpa = some 2#4 ∧ s.seq = .run .start ∧ idealPort s ∧ Memory.wf s.cs = true ∧
      stdWalk s.cs s.params.stdTripLimit s.params.pcieCapId = some 0x50 ∧
      2#4 ≤ (Memory.readLE s.cs 0x52 2).extractLsb' 0 4 ∧
      stdWalk (Memory.writeLE s.cs 0x80 2 0x5012#32) s.params.stdTripLimit s.params.pcieCapId = some 0x83 ∧
      (Memory.readLE s.cs 0x80 2 &&& 0xFFFFFFF0#32) ||| (2#4).setWidth 32 = 0x5012#32 :=
  ⟨{ run (imageL [(0x34, 0x83#8), (0x50, 0x12#8), (0x80, 0x11#8), (0x81, 0x50#8)]) .start 2#64 with
      params := { Params.default with pcieCapId := 0x12#8 } },
    by decide, rfl, ⟨rfl, rfl⟩, by decide, by decide, by decide, by decide, by decide⟩

/-- Another agent clears the Capabilities List bit between the write of Link Control 2 and the second walk. -/
theorem witness_SetTargetSpeedRuns_gone :
    ∃ (s : State) (first second : PortEvent), normSpeed .byCode s.lOpa = some 6#4 ∧ s.seq = .run .speedWrite ∧
      s.base % 2 = 0 ∧ s.port.script = [first, second] ∧ s.port.tail = .ideal ∧ first.reply = .ok ∧
      second.reply = .ok ∧
      stdWalk
        (Memory.apply
          (Memory.writeLE (Memory.apply s.cs first.others) (s.base + 0x30) 2
            (((s.v.setWidth 16 &&& 0xFFF0#16) ||| (6#4).setWidth 16 : Half).setWidth 32)) second.others)
        s.params.stdTripLimit s.params.pcieCapId = none :=
  ⟨{ run (imageL []) .speedWrite 6#64 with
      v := 2#32, port := { script := [.quiet, { others := [(0x06, 0#8)], reply := .ok }], tail := .ideal, drawn := 0 } },
    .quiet, { others := [(0x06, 0#8)], reply := .ok }, by decide, rfl, by decide, rfl, rfl, rfl, rfl, by decide⟩

theorem witness_HotResetPulsesSecondaryBusReset :
    (∃ s : State, answers s ∧ Memory.wf s.cs = true ∧ s.seq = .run .sleepStart ∧ s.params.hotResetClear = .reread) ∧
      ∃ s : State, answers s ∧ Memory.wf s.cs = true ∧ s.seq = .run .sleepStart ∧ s.params.hotResetClear = .reuse :=
  ⟨⟨run (imageL []) .sleepStart 100#64, rfl, by decide, rfl, rfl⟩,
    ⟨{ run (imageL []) .sleepStart 100#64 with params := { Params.default with hotResetClear := .reuse } }, rfl,
      by decide, rfl, rfl⟩⟩

theorem witness_HotResetRuns :
    ∃ s : State, s.seq = .run .start ∧ idealPort s ∧ idealClock s ∧ Memory.wf s.cs = true ∧
      (Memory.readLE s.cs 0x0E 1).extractLsb' 0 7 = 1#7 :=
  ⟨run (imageL [(0x0E, 0x81#8)]) .start 100#64, rfl, ⟨rfl, rfl⟩, ⟨rfl, rfl⟩, by decide, by decide⟩

theorem witness_SleepLastsAtLeastItsTime : ∃ (s : State) (p : Point), s.seq = .sleep 10 p :=
  ⟨{ run [] .start 0#64 with seq := .sleep 10 .clearRead }, .clearRead, rfl⟩

theorem witness_OddBaseIsMisaligned :
    ∃ s : State, s.seq = .run .version ∧ s.base % 2 = 1 ∧ normSpeed .byCode s.lOpa ≠ none :=
  ⟨{ run [] .version 1#64 with base := 0x51 }, rfl, by decide, by decide⟩

theorem witness_OddBaseIsMisaligned_retrain :
    ∃ s : State, s.seq = .run .rmwRead ∧ s.base % 2 = 1 ∧ normSpeed .bySpeed s.lOpa ≠ none :=
  ⟨{ run [] .rmwRead 0x4004000000000000#64 with base := 0xFF }, rfl, by decide, by decide⟩

theorem witness_OddBaseIsMisaligned_read :
    (∃ s : State, s.seq = .run .rmwRead ∧ s.base % 2 = 1) ∧ ∃ s : State, s.seq = .run .statusRead ∧ s.base % 2 = 1 :=
  ⟨⟨{ run [] .rmwRead 0#64 with base := 0x51 }, rfl, by decide⟩,
    ⟨{ run [] .statusRead 0#64 with base := 0xFF }, rfl, by decide⟩⟩

/-- T-LNK-9. -/
theorem witness_AbsentCapabilityIsNotFound :
    ∃ s : State, s.seq = .run .start ∧ idealPort s ∧
      stdWalk s.cs s.params.stdTripLimit s.params.pcieCapId = none ∧ normSpeed .byCode s.lOpa ≠ none :=
  ⟨run (imageL [(0x50, 0x05#8)]) .start 1#64, rfl, ⟨rfl, rfl⟩, by decide, by decide⟩

/-- The boundary operands of R109, and the first ones refused. -/
theorem witness_AssembledWords :
    assemble (.cfgRead 8 0xFFFF) = some [.write 0 0xFFFF0061#64] ∧
      assemble (.findStdCap 0xFF) = some [.write 0 0x00FF0003#64] ∧
      assemble (.setControlBits 0xFFFF 1) = some [.write 0 0xFFFF008C#64] ∧
      assemble (.word 0xFFFFFFFF#32) = some [.write 0 0xFFFFFFFF#64] ∧ assemble (.opb 7#64) = some [.write 3 7#64] ∧
      assemble (.cfgRead 3 0) = none ∧ assemble (.cfgRead 8 0x10000) = none ∧ assemble (.findStdCap 0x100) = none ∧
      assemble (.findExtCap 0x10000 0) = none ∧ assemble (.linkRetrain 2) = none ∧
      assemble (.setSpeedCode 1 2) = none ∧ assemble (.setSpeedGts 0x4004000000000000#64 2) = none ∧
      assemble (.setControlBits 0 2) = none := by
  decide

theorem witness_PseudoCommands :
    assemble (.linkRetrain 0) = some [.write 0 0x07#64] ∧
      assemble (.linkWaitForTraining 1000 10) = some [.write 2 0x3E8#64, .write 3 0x0A#64, .write 0 0x0A#64] := by
  decide

theorem witness_TimeNeverDecreases : ∃ t, step (idleWith [] []) = .next t := ⟨_, rfl⟩

theorem witness_StepKeepsInvariant :
    ∃ s t : State, s.inv = true ∧ step s = .next t ∧ s.seq = .run (.walk .main .entry) :=
  ⟨{ run imageS (.walk .main .entry) 0#64 with cur := 0x52, lCmd := 0x05#32 }, _, by decide, rfl, rfl⟩

theorem witness_CommandsTerminate :
    ∃ s : State, s.seq = .run .start ∧ s.port.tail = .ideal ∧ s.port.script ≠ [] ∧
      ∀ e ∈ s.port.script, e.reply ≠ .silent :=
  ⟨runReply (imageL []) .start 0#64 (.fail .ioError []), rfl, rfl, by decide, by decide⟩

theorem witness_StaleRegistersNeverMatter :
    ∃ s t : State, s.seq = .run .start ∧ runExec .linkEnable 2 s = .next t := ⟨run (imageL []) .start 0#64, _, rfl, rfl⟩

end Sys2Proof.Machine.Tests
end

section
/-! PROOFS. 00_scope.md: which steps are refused (R5, R6), and how much one step of a command adds to the record (R11). -/

namespace Sys2Proof.Machine

/-! ### Refusals (R5, R6) -/

/-- The illegal parameter sets, value by value (R5, R6). -/
theorem paramsLegal_eq_false_iff (p : Params) :
    paramsLegal p = false ↔ p.stdTripLimit = 0 ∨ p.timeUnit.num = 0 ∨ p.timeUnit.den = 0 := by
  simp only [paramsLegal, Bool.and_eq_false_iff, decide_eq_false_iff_not]
  omega

/-- Only what a command does at its own program points could be refused: completions and sleeps are not. -/
theorem atPoint_ne_refused {s : State} {f : Point → Host.Outcome State Fault Refusal} {r : Refusal}
    (hf : ∀ p, f p ≠ .refused r) : atPoint s f ≠ .refused r := by
  unfold atPoint
  split
  case h_4 p _ _ => exact hf p
  all_goals exact nofun

theorem linkRmw_ne_refused (set clr : Half) (last : State → State) (p : Point) (s : State) (r : Refusal) :
    linkRmw set clr last p s ≠ .refused r := by
  unfold linkRmw
  split <;> exact nofun

/-- Every command has a meaning: no step of one is refused. -/
theorem exec_ne_refused (i : Instr) (s : State) (r : Refusal) : exec i s ≠ .refused r := by
  cases i <;> refine atPoint_ne_refused fun p => ?_
  case linkEnable | linkDisable | linkSetControlBits => exact linkRmw_ne_refused _ _ _ _ _ _
  case linkRetrain =>
    split
    · exact nofun
    · exact nofun
    · exact linkRmw_ne_refused _ _ _ _ _ _
  case linkSetTargetSpeed =>
    split
    · exact nofun
    · split <;> exact nofun
  all_goals split <;> exact nofun

theorem sequencerTurn_ne_refused (s : State) (r : Refusal) : sequencerTurn s ≠ .refused r := by
  unfold sequencerTurn
  split
  · exact nofun
  · split
    · exact exec_ne_refused _ _ _
    · exact nofun

/-- Under a legal parameter set nothing is refused, whosever turn it is (R6). -/
theorem step_ne_refused {s : State} (h : paramsLegal s.params = true) (r : Refusal) : step s ≠ .refused r := by
  unfold step
  rw [if_pos h]
  split
  · exact sequencerTurn_ne_refused _ _
  · exact sequencerTurn_ne_refused _ _
  · split
    · exact nofun
    · exact sequencerTurn_ne_refused _ _
  · exact nofun
  · exact nofun
  · exact nofun

theorem step_of_illegalParams {s : State} (h : paramsLegal s.params = false) :
    step s = .refused .malformedParameters := by
  simp [step, h]

/-- Settles O15: an illegal set is refused before anything else is looked at, and under a legal one no step of the
machine is a refusal. -/
theorem malformedParametersRefused : Obligations.MalformedParametersRefused := by
  intro s
  rw [← paramsLegal_eq_false_iff]
  refine ⟨step_of_illegalParams, fun h => ?_⟩
  by_contra hp
  exact step_ne_refused (by simpa using hp) _ h

/-! ### The record of one step (R11, R62) -/

/-- A step with one transaction adds that transaction's entry, or none while the port is silent (R271, R303). -/
theorem Transacted.log_eq {tr : Transaction} {s t : State} (h : Transacted tr s t) :
    t.log = s.log ∨ t.log = .transaction tr (answerTo tr s) :: s.log := by
  obtain ⟨q, cur, trip, base, v, rfl⟩ := h
  by_cases hr : s.port.event.reply = .silent
  · exact .inl (by simp [hr])
  · exact .inr (afterTransaction_answered hr).2

/-- A turn of a sleep adds the sample that wakes it, or nothing (R83). -/
theorem sleepTurn_log_eq (wake : Nat) (p : Point) (s : State) :
    (sleepTurn wake p s).log = s.log ∨ ∃ now, (sleepTurn wake p s).log = .wake now :: s.log := by
  obtain ⟨now, -, ⟨-, e⟩ | ⟨-, e⟩⟩ := sleepTurn_cases wake p s <;> rw [e]
  · exact .inr ⟨now, rfl⟩
  · exact .inl rfl

/-- Settles O17, by the four forms of a step (`exec_shape`): only the second is a transaction, and its width is 1, 2 or
4 bytes. -/
theorem stepIsAtMostOneEvent : Obligations.StepIsAtMostOneEvent := by
  intro i s t h
  cases exec_shape h with
  | completes c cur trip e => exact .inr ⟨.completion c, by rw [e]; rfl, nofun⟩
  | transacts tr ht hb _ _ =>
    refine ht.log_eq.imp_right fun e => ⟨_, e, ?_⟩
    rintro _ _ ⟨⟩
    exact hb
  | samples q d e => exact .inr ⟨.now (s.now + s.clock.tick), by rw [e], nofun⟩
  | sleeps wake p _ e =>
    rw [e]
    exact (sleepTurn_log_eq wake p s).imp_right fun ⟨now, hl⟩ => ⟨.wake now, hl, nofun⟩

end Sys2Proof.Machine
end

section
/-! PROOFS. 10_state.md: whose turn a step is, the host's accesses (R20 to R23, R28) and reset (R45, R290). -/

namespace Sys2Proof.Machine

/-! ### The turns of a step (R30, R293) -/

theorem step_sequencer {s : State} (hp : paramsLegal s.params = true) (h : s.host = []) :
    step s = sequencerTurn s := by
  simp [step, hp, h]

theorem step_pass {s : State} {rest : List HostAct} (hp : paramsLegal s.params = true) (h : s.host = .pass :: rest) :
    step s = sequencerTurn { s with host := rest } := by
  simp [step, hp, h]

theorem step_waiting {s : State} {rest : List HostAct} (hp : paramsLegal s.params = true)
    (h : s.host = .awaitDone :: rest) (hd : statusDone s.status = false) : step s = sequencerTurn s := by
  simp [step, hp, h, hd]

theorem step_done {s : State} {rest : List HostAct} (hp : paramsLegal s.params = true)
    (h : s.host = .awaitDone :: rest) (hd : statusDone s.status = true) : step s = .next { s with host := rest } := by
  simp [step, hp, h, hd]

theorem step_write {s : State} {r : Nat} {x : Quad} {rest : List HostAct} (hp : paramsLegal s.params = true)
    (h : s.host = .write r x :: rest) : step s = .next (hostWrite r x { s with host := rest }) := by
  simp [step, hp, h]

theorem step_read {s : State} {r : Nat} {rest : List HostAct} (hp : paramsLegal s.params = true)
    (h : s.host = .read r :: rest) : step s = .next (recordRead r { s with host := rest }) := by
  simp [step, hp, h]

theorem step_reset {s : State} {left : List Byte} {rest : List HostAct} (hp : paramsLegal s.params = true)
    (h : s.host = .reset left :: rest) : step s = .next (assertReset left { s with host := rest }) := by
  simp [step, hp, h]

theorem sequencerTurn_idle {s : State} (h : s.seq = .idle) : sequencerTurn s = .next s := by
  simp [sequencerTurn, h]

theorem sequencerTurn_decoded {s : State} {i : Instr} (h : s.seq ≠ .idle) (hd : decode s.lCmd = .ok i) :
    sequencerTurn s = exec i s := by
  unfold sequencerTurn
  split
  · next hi => exact absurd hi h
  · simp [hd]

theorem sequencerTurn_illegal {s : State} {e : Illegal} (h : s.seq ≠ .idle) (hd : decode s.lCmd = .error e) :
    sequencerTurn s = .next (raise .illegalCommand s) := by
  unfold sequencerTurn
  split
  · next hi => exact absurd hi h
  · simp [hd]

/-- Settles O7: in each of the three schedules the turn is the sequencer's. -/
theorem stepRunsDecodedCommand : Obligations.StepRunsDecodedCommand := by
  intro s i hp hq hd
  refine ⟨fun h => ?_, fun rest h => ?_, fun rest h hw => ?_⟩
  · rw [step_sequencer hp h, sequencerTurn_decoded hq hd]
  · rw [step_pass hp h]
    exact sequencerTurn_decoded hq hd
  · rw [step_waiting hp h hw, sequencerTurn_decoded hq hd]

/-! ### The host's accesses (R20 to R23, R28) -/

theorem hostWrite_cmd_idle {s : State} (x : Quad) (h : statusBusy s.status = false) :
    hostWrite 0 x s = issue (x.setWidth 32) s := by
  simp [hostWrite, h]

theorem hostWrite_cmd_busy {s : State} (x : Quad) (h : statusBusy s.status = true) :
    hostWrite 0 x s = { s with status := protocolFaultStatus s.status } := by
  simp [hostWrite, h]

theorem hostWrite_opa (x : Quad) (s : State) : hostWrite 2 x s = { s with opa := x } := rfl

theorem hostWrite_opb (x : Quad) (s : State) : hostWrite 3 x s = { s with opb := x } := rfl

/-- CMD, OPA and OPB are the only registers a host write changes (R28). -/
theorem hostWrite_ignored {r : Nat} (h0 : r ≠ 0) (h2 : r ≠ 2) (h3 : r ≠ 3) (x : Quad) (s : State) :
    hostWrite r x s = s := by
  simp [hostWrite, h0, h2, h3]

theorem hostRead_reserved {r : Nat} (h : 7 ≤ r) (s : State) : hostRead r s = 0#64 := by
  simp only [hostRead]
  iterate 6 rw [if_neg (by omega)]

/-- STATUS reads with its reserved bits 0 (R23). -/
theorem hostRead_status_bit (s : State) (j : Nat) :
    (hostRead 1 s).getLsbD j = (s.status.getLsbD j && decide (j ≠ 3) && decide (j < 10)) := by
  have hmask : statusMask.getLsbD j = (decide (j ≠ 3) && decide (j < 10)) := by
    rcases Nat.lt_or_ge j 32 with hj | hj
    · interval_cases j <;> decide
    · simp [BitVec.getLsbD_of_ge statusMask j hj, show ¬ j < 10 by omega]
  have hwidth : j < 10 → j < 64 := fun h => by omega
  by_cases hj : j < 10 <;> simp [hostRead, hmask, hj, hwidth]

/-- Settles O8: with BUSY = 0 the write of CMD is an issue. -/
theorem cmdWriteIssues : Obligations.CmdWriteIssues := by
  intro s w rest hp h hb
  refine ⟨issue w { s with host := rest }, ?_, by simp, by simp, by simp, by simp, by simp, rfl⟩
  rw [step_write hp h, hostWrite_cmd_idle (s := { s with host := rest }) _ hb]
  simp

/-- Settles O10. -/
theorem readsAndReadOnlyWritesChangeNothing : Obligations.ReadsAndReadOnlyWritesChangeNothing := by
  refine ⟨fun s r x rest hp h hr => ?_, fun s r rest hp h => ?_⟩
  · rw [step_write hp h, hostWrite_ignored (by omega) (by omega) (by omega)]
  · rw [step_read hp h]
    rfl

/-- Settles O11. -/
theorem hostRegisterMap : Obligations.HostRegisterMap := by
  intro s
  refine ⟨rfl, rfl, rfl, rfl, rfl, rfl, hostRead_status_bit s, fun r hr => ⟨hostRead_reserved hr s, fun x => ?_⟩⟩
  exact hostWrite_ignored (by omega) (by omega) (by omega) x s

/-! ### Reset (R45, R290) -/

/-- Settles O56. -/
theorem resetHasInvariant : Obligations.ResetHasInvariant := by
  unfold Obligations.ResetHasInvariant
  decide

/-- After reset every register number reads 0. -/
theorem hostRead_assertReset (r : Nat) (left : List Byte) (s : State) : hostRead r (assertReset left s) = 0#64 := by
  unfold hostRead
  split_ifs <;> simp

/-- An abandoned transaction changes the bytes of an unanswered write only (R290). -/
theorem read_abandon_outside (t : Option Transaction) (left : List Byte) (m : Memory) {a : Nat}
    (h : ∀ off n v, t = some (.write off n v) → a < off ∨ off + n ≤ a) :
    Memory.read (abandon t left m) a = Memory.read m a := by
  match t with
  | none => rfl
  | some (.read _ _) => rfl
  | some (.write off n v) => exact Memory.read_leave_outside _ _ _ _ (h off n v rfl)

/-- Settles O13: the reset state, with the bytes that `abandon` leaves. -/
theorem resetAbandonsAndClears : Obligations.ResetAbandonsAndClears := by
  intro s left rest hp h
  refine ⟨assertReset left { s with host := rest }, step_reset hp h, rfl, rfl, rfl, rfl, rfl, rfl, rfl,
    fun r => hostRead_assertReset r left _, rfl, rfl, rfl, sequencerTurn_idle rfl, fun a ha => ?_,
    fun hwf off n v hf hl j hj => ?_⟩
  · exact read_abandon_outside _ _ _ ha
  · simp only [assertReset_cs, hf, abandon]
    exact Memory.read_leave_inside hwf off n left (by omega) hj

end Sys2Proof.Machine
end

section
/-! PROOFS. 10_state.md: what a step of a command leaves alone (R21, R22, R29), time (R33), and everything a step of the
machine can be. -/

namespace Sys2Proof.Machine

/-! ### What a step of a command leaves alone -/

/-- A turn of a sleep changes NOW, the clock, SEQ and the record only, and NOW does not decrease (R83). -/
theorem sleepTurn_frame (wake : Nat) (p : Point) (s : State) :
    ∃ now q l, s.now ≤ now ∧
      sleepTurn wake p s = { s with now := now, clock := s.clock.advance, seq := q, log := l } := by
  obtain ⟨now, hn, ⟨-, e⟩ | ⟨-, e⟩⟩ := sleepTurn_cases wake p s
  · exact ⟨now, _, _, hn, e⟩
  · exact ⟨now, _, _, hn, e⟩

/-- Settles O21: of the four forms of a step only the completion touches a register the host reads. -/
theorem registerFrame : Obligations.RegisterFrame := by
  intro i s t h
  cases exec_shape h with
  | completes c cur trip e =>
    subst e
    exact ⟨rfl, rfl, rfl, rfl, rfl, rfl, rfl, by simp, fun hq => absurd rfl hq⟩
  | transacts tr ht _ _ _ =>
    obtain ⟨q, cur, trip, base, v, rfl⟩ := ht
    exact ⟨rfl, rfl, rfl, rfl, rfl, rfl, rfl, rfl, fun _ => ⟨rfl, rfl, rfl, rfl⟩⟩
  | samples q d e =>
    subst e
    exact ⟨rfl, rfl, rfl, rfl, rfl, rfl, rfl, rfl, fun _ => ⟨rfl, rfl, rfl, rfl⟩⟩
  | sleeps wake p _ e =>
    obtain ⟨now, q, l, -, e'⟩ := sleepTurn_frame wake p s
    rw [e, e']
    exact ⟨rfl, rfl, rfl, rfl, rfl, rfl, rfl, rfl, fun _ => ⟨rfl, rfl, rfl, rfl⟩⟩

theorem exec_now_le {i : Instr} {s t : State} (h : exec i s = .next t) : s.now ≤ t.now := by
  cases exec_shape h with
  | completes c cur trip e => rw [e]; exact Nat.le_refl _
  | transacts tr ht _ _ _ =>
    obtain ⟨q, cur, trip, base, v, rfl⟩ := ht
    exact Nat.le_refl _
  | samples q d e => rw [e]; exact Nat.le_add_right _ _
  | sleeps wake p _ e =>
    obtain ⟨now, q, l, hn, e'⟩ := sleepTurn_frame wake p s
    rw [e, e']
    exact hn

/-- A step of a command keeps the configuration space in canonical form. -/
theorem exec_wf {i : Instr} {s t : State} (h : exec i s = .next t) (hwf : Memory.wf s.cs = true) :
    Memory.wf t.cs = true := by
  cases exec_shape h with
  | completes c cur trip e => rw [e]; exact hwf
  | transacts tr ht _ _ _ =>
    obtain ⟨q, cur, trip, base, v, rfl⟩ := ht
    exact Transaction.wf_effect _ _ (seenCs_wf hwf)
  | samples q d e => rw [e]; exact hwf
  | sleeps wake p _ e =>
    obtain ⟨now, q, l, -, e'⟩ := sleepTurn_frame wake p s
    rw [e, e']
    exact hwf

/-! ### Everything a step of the machine can be (R30, R293) -/

/-- The forms of one step of the machine, past the host's schedule. -/
inductive Turn (s t : State) : Prop where
  /-- nobody has anything to do, or the host's wait is over -/
  | rests (h : t = s)
  /-- a step of the decoded command (R105) -/
  | runs (i : Instr) (hq : s.seq ≠ .idle) (hd : decode s.lCmd = .ok i) (h : exec i s = .next t)
  /-- ILLEGAL_COMMAND (R105) -/
  | illegal (h : t = complete (.raised .illegalCommand) s)
  /-- a host write (R21, R22, R28, R259) -/
  | writes (r : Nat) (x : Quad) (h : t = hostWrite r x s)
  /-- a host read (R28) -/
  | reads (r : Nat) (h : t = recordRead r s)
  /-- reset (R290) -/
  | resets (left : List Byte) (h : t = assertReset left s)

theorem sequencerTurn_turn {s t : State} (h : sequencerTurn s = .next t) : Turn s t := by
  by_cases hq : s.seq = .idle
  · rw [sequencerTurn_idle hq] at h
    cases h
    exact .rests rfl
  · cases hd : decode s.lCmd with
    | ok i => exact .runs i hq hd (by rw [← sequencerTurn_decoded hq hd, h])
    | error e =>
      rw [sequencerTurn_illegal hq hd] at h
      cases h
      exact .illegal rfl

/-- A step answers what one of the forms answers, from the same state with its own rest of the schedule. -/
theorem step_turn {s t : State} (h : step s = .next t) : ∃ rest, Turn { s with host := rest } t := by
  have hp : paramsLegal s.params = true := by
    by_contra hp
    rw [step_of_illegalParams (by simpa using hp)] at h
    cases h
  match hh : s.host with
  | [] =>
    rw [step_sequencer hp hh] at h
    exact ⟨s.host, sequencerTurn_turn h⟩
  | .pass :: rest =>
    rw [step_pass hp hh] at h
    exact ⟨rest, sequencerTurn_turn h⟩
  | .awaitDone :: rest =>
    cases hd : statusDone s.status with
    | true =>
      rw [step_done hp hh hd] at h
      cases h
      exact ⟨rest, .rests rfl⟩
    | false =>
      rw [step_waiting hp hh hd] at h
      exact ⟨s.host, sequencerTurn_turn h⟩
  | .write r x :: rest =>
    rw [step_write hp hh] at h
    cases h
    exact ⟨rest, .writes r x rfl⟩
  | .read r :: rest =>
    rw [step_read hp hh] at h
    cases h
    exact ⟨rest, .reads r rfl⟩
  | .reset left :: rest =>
    rw [step_reset hp hh] at h
    cases h
    exact ⟨rest, .resets left rfl⟩

/-- Only a step of the decoded command can fault. -/
theorem sequencerTurn_fault {s : State} {f : Fault} (h : sequencerTurn s = .fault f) :
    ∃ i, s.seq ≠ .idle ∧ decode s.lCmd = .ok i ∧ exec i s = .fault f := by
  by_cases hq : s.seq = .idle
  · rw [sequencerTurn_idle hq] at h
    cases h
  · cases hd : decode s.lCmd with
    | ok i => exact ⟨i, hq, rfl, by rw [← sequencerTurn_decoded hq hd, h]⟩
    | error e =>
      rw [sequencerTurn_illegal hq hd] at h
      cases h

theorem step_fault {s : State} {f : Fault} (h : step s = .fault f) :
    ∃ rest, sequencerTurn { s with host := rest } = .fault f := by
  unfold step at h
  split at h
  · split at h
    · exact ⟨s.host, h⟩
    · exact ⟨_, h⟩
    · split at h
      · cases h
      · exact ⟨s.host, h⟩
    all_goals cases h
  · cases h

/-- A host write changes registers of the core only. -/
theorem hostWrite_now (r : Nat) (x : Quad) (s : State) : (hostWrite r x s).now = s.now := by
  unfold hostWrite
  split_ifs <;> rfl

theorem Turn.now_le {s t : State} (h : Turn s t) : s.now ≤ t.now := by
  cases h with
  | rests e => rw [e]
  | runs i _ _ e => exact exec_now_le e
  | illegal e => rw [e]; exact Nat.le_refl _
  | writes r x e => rw [e, hostWrite_now]
  | reads r e => rw [e]; exact Nat.le_refl _
  | resets left e => rw [e]; exact Nat.le_refl _

/-- Settles O55. -/
theorem timeNeverDecreases : Obligations.TimeNeverDecreases := by
  intro s t h
  obtain ⟨rest, ht⟩ := step_turn h
  exact ht.now_le

end Sys2Proof.Machine
end

section
/-! PROOFS. 10_state.md: the invariant (R23 to R27, R30). The sequencer's part goes through `OnProgram`, which every step
of every command keeps; the result registers' part through the two updates that write them. -/

namespace Sys2Proof.Machine

/-! ### Program points (R30) -/

/-- A walk is in a command's program as a whole, at the pointers of R36. -/
theorem hasPoint_walk (i : Instr) (site : Site) (w : WalkPoint) :
    hasPoint i (.walk site w) = (w.legal && hasPoint i (.walk site .status)) := by
  cases site <;> cases i <;> rfl

theorem hasPoint_walk_status {i : Instr} {site : Site} {w : WalkPoint} (h : hasPoint i (.walk site w) = true) :
    hasPoint i (.walk site .status) = true := by
  rw [hasPoint_walk, Bool.and_eq_true] at h
  exact h.2

theorem hasPoint_walk_of_legal {i : Instr} {site : Site} {w : WalkPoint} (h : hasPoint i (.walk site .status) = true)
    (hw : w.legal = true) : hasPoint i (.walk site w) = true := by
  rw [hasPoint_walk, hw, h]
  rfl

/-- LINK_RETRAIN has LINK_ENABLE's points, and two more to clear the bit again (R194). -/
theorem hasPoint_linkRetrain {p : Point} (f : Bool) (hr : p ≠ .clearRead) (hw : p ≠ .clearWrite) :
    hasPoint (.linkRetrain f) p = hasPoint .linkEnable p := by
  cases p with
  | walk site w => cases site <;> rfl
  | clearRead => exact absurd rfl hr
  | clearWrite => exact absurd rfl hw
  | _ => rfl

theorem hasPoint_linkRetrain_of_linkEnable {p : Point} (f : Bool) (h : hasPoint .linkEnable p = true) :
    hasPoint (.linkRetrain f) p = true := by
  rwa [hasPoint_linkRetrain f (by rintro rfl; cases h) (by rintro rfl; cases h)]

/-- SEQ agrees with the running command `i`: a point of its pseudocode with CUR in its range, or IDLE with BUSY = 0. -/
def OnProgram (i : Instr) (s : State) : Prop :=
  match s.seq with
  | .idle => statusBusy s.status = false
  | .run p => hasPoint i p = true ∧ curLegal p s = true
  | .sleep _ p => hasPoint i p = true ∧ curLegal p s = true

/-- For a running command, `OnProgram` is what `seqLegal` asks beyond BUSY = 1. -/
theorem seqLegal_iff {i : Instr} {s : State} (hd : decode s.lCmd = .ok i) (hq : s.seq ≠ .idle) :
    seqLegal s = true ↔ statusBusy s.status = true ∧ OnProgram i s := by
  match hs : s.seq with
  | .idle => exact absurd hs hq
  | .run p => simp [seqLegal, OnProgram, pointLegal, hs, hd, and_comm]
  | .sleep wake p => simp [seqLegal, OnProgram, pointLegal, hs, hd, and_comm]

theorem seqLegal_of_onProgram {i : Instr} {s : State} (hd : decode s.lCmd = .ok i)
    (hb : s.seq ≠ .idle → statusBusy s.status = true) (h : OnProgram i s) : seqLegal s = true := by
  by_cases hq : s.seq = .idle
  · simpa [seqLegal, OnProgram, hq] using h
  · exact (seqLegal_iff hd hq).mpr ⟨hb hq, h⟩

section Points

variable {i : Instr}

theorem onProgram_goto {p : Point} {s : State} (hp : hasPoint i p = true) (hc : curLegal p s = true) :
    OnProgram i (goto p s) := ⟨hp, hc⟩

theorem onProgram_complete (c : Completion) (s : State) : OnProgram i (complete c s) := statusBusy_completed _ _

/-- An unanswered transaction leaves the sequencer where it was (R303). -/
theorem OnProgram.afterTransaction {s : State} (h : OnProgram i s) (tr : Transaction) :
    OnProgram i (afterTransaction tr s) := h

theorem withTransaction_onProgram {tr : Transaction} {s : State} {k : Word → State → State} (h : OnProgram i s)
    (hk : ∀ v, OnProgram i (k v (afterTransaction tr s))) : OnProgram i (withTransaction tr s k) := by
  rcases withTransaction_cases tr s k with ⟨v, -, -, e⟩ | ⟨kind, left, -, e⟩ | ⟨-, e⟩ <;> rw [e]
  · exact hk v
  · exact onProgram_goto rfl rfl
  · exact h.afterTransaction tr

theorem checked_onProgram {off n : Nat} {s go : State} (h : OnProgram i go) : OnProgram i (checked off n s go) := by
  unfold checked
  split
  · exact h
  · exact onProgram_complete _ _

theorem cfgReadThen_onProgram {off n : Nat} {s : State} {k : Word → State → State} (h : OnProgram i s)
    (hk : OnProgram i (k (Memory.readLE s.seenCs off n) (afterTransaction (.read off n) s))) :
    OnProgram i (cfgReadThen off n s k) := by
  rcases cfgReadThen_cases off n s k with ⟨-, e⟩ | ⟨-, -, e⟩ | ⟨kind, left, -, -, e⟩ | ⟨-, -, e⟩ <;> rw [e]
  · exact onProgram_complete _ _
  · exact hk
  · exact onProgram_goto rfl rfl
  · exact h.afterTransaction _

theorem cfgWriteThen_onProgram {off n : Nat} {v : Word} {s : State} {k : State → State} (h : OnProgram i s)
    (hk : OnProgram i (k (afterTransaction (.write off n v) s))) : OnProgram i (cfgWriteThen off n v s k) :=
  checked_onProgram (withTransaction_onProgram h fun _ => hk)

theorem rmwReadThen_onProgram {off : Nat} {after : Point} {s : State} (h : OnProgram i s)
    (hp : hasPoint i after = true) (hc : ∀ u, curLegal after u = true) : OnProgram i (rmwReadThen off after s) :=
  cfgReadThen_onProgram h (onProgram_goto hp (hc _))

theorem rmwWriteThen_onProgram {off : Nat} {set clr : Half} {s : State} {k : State → State} (h : OnProgram i s)
    (hk : ∀ u, OnProgram i (k u)) : OnProgram i (rmwWriteThen off set clr s k) :=
  cfgWriteThen_onProgram h (hk _)

theorem stdHead_onProgram {site : Site} {s : State} (hp : hasPoint i (.walk site .status) = true)
    (hc : s.cur ≤ 0xFF) : OnProgram i (stdHead (.walk site) s) := by
  obtain ⟨n, e | ⟨-, hlo, e⟩⟩ := stdHead_cases (.walk site) s <;> rw [e]
  · exact onProgram_goto rfl rfl
  · exact onProgram_goto (hasPoint_walk_of_legal hp rfl) (by simpa [curLegal] using ⟨hlo, hc⟩)

/-- The header type puts the capability pointer at 0x34 or 0x14 (R36). -/
theorem pointerOffset_legal {ht : BitVec 7} {pp : Nat} (h : pointerOffset ht = some pp) :
    (WalkPoint.pointer pp).legal = true := by
  unfold pointerOffset at h
  split_ifs at h <;> cases h <;> rfl

theorem entryNext_le (e : Word) : entryNext e ≤ 0xFF := Nat.le_of_lt_succ (e.extractLsb' 8 8).isLt

/-- A byte read is at most 0xFF. -/
theorem readLE_byte_le (m : Memory) (off : Nat) : (Memory.readLE m off 1).toNat ≤ 0xFF :=
  Nat.le_of_lt_succ (Memory.readLE_lt m off 1 (by omega))

theorem findStd_onProgram {id : Byte} {site : Site} {found : State → State} {w : WalkPoint} {s : State}
    (h : OnProgram i s) (hw : hasPoint i (.walk site .status) = true)
    (hf : ∀ u, OnProgram i (found u)) : OnProgram i (findStd id (.walk site) found w s) := by
  cases w <;> refine cfgReadThen_onProgram h ?_
  case status =>
    split
    · exact onProgram_goto (hasPoint_walk_of_legal hw rfl) rfl
    · exact onProgram_goto rfl rfl
  case header =>
    split
    · next pp hpp => exact onProgram_goto (hasPoint_walk_of_legal hw (pointerOffset_legal hpp)) rfl
    · exact onProgram_goto rfl rfl
  case pointer pp =>
    split
    · exact onProgram_goto rfl rfl
    · exact stdHead_onProgram hw (readLE_byte_le _ _)
  case entry =>
    split
    · exact onProgram_goto rfl rfl
    · split
      · exact hf _
      · exact stdHead_onProgram hw (entryNext_le _)

theorem findPcie_onProgram {site : Site} {after : Point} {w : WalkPoint} {s : State} (h : OnProgram i s)
    (hw : hasPoint i (.walk site .status) = true) (hp : hasPoint i after = true)
    (hc : ∀ u, curLegal after u = true) : OnProgram i (findPcie site after w s) :=
  findStd_onProgram h hw fun _ => onProgram_goto hp (hc _)

theorem extRead_onProgram {id : Half} {s : State} (h : OnProgram (.findExtCap id) s) :
    OnProgram (.findExtCap id) (extRead s.lOpa.toNat id s) := by
  refine cfgReadThen_onProgram h ?_
  split
  · exact onProgram_goto rfl rfl
  · split
    · exact onProgram_goto rfl rfl
    · split
      · exact onProgram_goto rfl rfl
      · next hends =>
        have hlo := (nextEnds_false (Bool.eq_false_iff.mpr hends)).1
        obtain ⟨n, e | ⟨-, hsize, e⟩⟩ := extHead_cases s.lOpa.toNat _ <;> rw [e]
        · exact onProgram_goto rfl rfl
        · refine onProgram_goto rfl ?_
          simp only [curLegal, Bool.and_eq_true, decide_eq_true_eq]
          exact ⟨⟨hlo, takenNext_le _ _⟩, hsize⟩

theorem extStart_onProgram (id : Half) (s : State) : OnProgram (.findExtCap id) (extStart s.lOpa.toNat id s) := by
  rcases extStart_cases s.lOpa.toNat id s with ⟨c, n, e⟩ | ⟨n, hsize, -, e⟩ <;> rw [e]
  · exact onProgram_complete _ _
  · refine extRead_onProgram (s := goto .extEntry { s with cur := 256, trip := n }) (onProgram_goto rfl ?_)
    simpa [curLegal] using hsize

theorem sleepNext_onProgram {d : Quad} {resume : Point} {s : State} (hs : hasPoint i .sleepStart = true)
    (hp : hasPoint i resume = true) (hc : ∀ u, curLegal resume u = true) : OnProgram i (sleepNext d resume s) := by
  unfold sleepNext
  split
  · exact onProgram_goto hp (hc _)
  · exact onProgram_goto hs rfl

theorem curLegal_clearPoint (m : ClearMode) (s : State) : curLegal (clearPoint m) s = true := by cases m <;> rfl

/-- A sleep resumes at its point (R83). -/
theorem sleepTurn_onProgram {wake : Nat} {p : Point} {s : State} (hq : s.seq = .sleep wake p) (h : OnProgram i s) :
    OnProgram i (sleepTurn wake p s) := by
  simp only [OnProgram, hq] at h
  obtain ⟨now, -, ⟨-, e⟩ | ⟨-, e⟩⟩ := sleepTurn_cases wake p s <;> rw [e]
  · exact h
  · simp only [OnProgram, hq]
    exact h

/-- A step of a running command answers a state on its program, if its own program points do. -/
theorem atPoint_onProgram {s : State} {f : Point → Host.Outcome State Fault Refusal} (h : OnProgram i s)
    (hq : s.seq ≠ .idle)
    (hf : ∀ p, (∀ c, p ≠ .complete c) → hasPoint i p = true → ∃ t, f p = .next t ∧ OnProgram i t) :
    ∃ t, atPoint s f = .next t ∧ OnProgram i t := by
  match hs : s.seq with
  | .idle => exact absurd hs hq
  | .sleep wake p => exact ⟨_, atPoint_sleep hs, sleepTurn_onProgram hs h⟩
  | .run (.complete c) => exact ⟨_, atPoint_complete hs, onProgram_complete c s⟩
  | .run p =>
    by_cases hc : ∃ c, p = .complete c
    · obtain ⟨c, rfl⟩ := hc
      exact ⟨_, atPoint_complete hs, onProgram_complete c s⟩
    · have hc' : ∀ c, p ≠ .complete c := fun c e => hc ⟨c, e⟩
      rw [atPoint_run hs hc']
      refine hf p hc' ?_
      simp only [OnProgram, hs] at h
      exact h.1

/-- The four commands of one Link Control read-modify-write stay on LINK_ENABLE's points until `last`. -/
theorem linkRmw_onProgram {set clr : Half} {last : State → State} {p : Point} {s : State} (h : OnProgram i s)
    (hi : ∀ p, hasPoint .linkEnable p = true → hasPoint i p = true) (hl : ∀ u, OnProgram i (last u))
    (hc : ∀ c, p ≠ .complete c) (hp : hasPoint .linkEnable p = true) :
    ∃ t, linkRmw set clr last p s = .next t ∧ OnProgram i t := by
  cases p with
  | start => exact ⟨_, rfl, findPcie_onProgram h (hi _ rfl) (hi _ rfl) fun _ => rfl⟩
  | walk site w =>
    cases site with
    | main => exact ⟨_, rfl, findPcie_onProgram h (hi _ rfl) (hi _ rfl) fun _ => rfl⟩
    | retrain => cases hasPoint_walk_status hp
  | rmwRead => exact ⟨_, rfl, rmwReadThen_onProgram h (hi _ rfl) fun _ => rfl⟩
  | rmwWrite => exact ⟨_, rfl, rmwWriteThen_onProgram h hl⟩
  | complete c => exact absurd rfl (hc c)
  | _ => cases hp

end Points

theorem execCfgRead_onProgram (n : Width) (off : Half) {s : State} (h : OnProgram (.cfgRead n off) s)
    (hq : s.seq ≠ .idle) :
    ∃ t, execCfgRead n off s = .next t ∧ OnProgram (.cfgRead n off) t := by
  refine atPoint_onProgram h hq fun p hc hp => ?_
  cases p with
  | start =>
    cases n with
    | w8 => exact ⟨_, rfl, checked_onProgram (withTransaction_onProgram h fun _ => onProgram_goto rfl rfl)⟩
    | w1 | w2 | w4 => exact ⟨_, rfl, cfgReadThen_onProgram h (onProgram_goto rfl rfl)⟩
  | readHigh lo =>
    obtain rfl : n = .w8 := eq_of_beq hp
    exact ⟨_, rfl, withTransaction_onProgram h fun _ => onProgram_goto rfl rfl⟩
  | complete c => exact absurd rfl (hc c)
  | walk site w => cases site <;> cases hasPoint_walk_status hp
  | _ => cases hp

theorem execCfgWrite_onProgram (n : Width) (off : Half) {s : State} (h : OnProgram (.cfgWrite n off) s)
    (hq : s.seq ≠ .idle) :
    ∃ t, execCfgWrite n off s = .next t ∧ OnProgram (.cfgWrite n off) t := by
  refine atPoint_onProgram h hq fun p hc hp => ?_
  cases p with
  | start =>
    refine ⟨_, rfl, checked_onProgram ?_⟩
    split
    · refine withTransaction_onProgram h fun _ => ?_
      split
      · next hn => exact onProgram_goto (by rw [hn]; rfl) rfl
      · exact onProgram_goto rfl rfl
    · exact onProgram_complete _ _
  | writeHigh =>
    obtain rfl : n = .w8 := eq_of_beq hp
    exact ⟨_, rfl, withTransaction_onProgram h fun _ => onProgram_goto rfl rfl⟩
  | complete c => exact absurd rfl (hc c)
  | walk site w => cases site <;> cases hasPoint_walk_status hp
  | _ => cases hp

theorem execFindStdCap_onProgram (imm : Half) {s : State} (h : OnProgram (.findStdCap imm) s) (hq : s.seq ≠ .idle) :
    ∃ t, execFindStdCap imm s = .next t ∧ OnProgram (.findStdCap imm) t := by
  refine atPoint_onProgram h hq fun p hc hp => ?_
  cases p with
  | start => exact ⟨_, rfl, findStd_onProgram h rfl fun _ => onProgram_goto rfl rfl⟩
  | walk site w =>
    cases site with
    | main => exact ⟨_, rfl, findStd_onProgram h rfl fun _ => onProgram_goto rfl rfl⟩
    | retrain => cases hasPoint_walk_status hp
  | complete c => exact absurd rfl (hc c)
  | _ => cases hp

theorem execFindExtCap_onProgram (imm : Half) {s : State} (h : OnProgram (.findExtCap imm) s) (hq : s.seq ≠ .idle) :
    ∃ t, execFindExtCap imm s = .next t ∧ OnProgram (.findExtCap imm) t := by
  refine atPoint_onProgram h hq fun p hc hp => ?_
  cases p with
  | start => exact ⟨_, rfl, extStart_onProgram imm s⟩
  | extEntry => exact ⟨_, rfl, extRead_onProgram h⟩
  | complete c => exact absurd rfl (hc c)
  | walk site w => cases site <;> cases hasPoint_walk_status hp
  | _ => cases hp

theorem execLinkRetrain_onProgram (f : Bool) {s : State} (h : OnProgram (.linkRetrain f) s) (hq : s.seq ≠ .idle) :
    ∃ t, execLinkRetrain f s = .next t ∧ OnProgram (.linkRetrain f) t := by
  refine atPoint_onProgram h hq fun p hc hp => ?_
  by_cases hclear : p = .clearRead ∨ p = .clearWrite
  · obtain rfl : f = true := by rcases hclear with rfl | rfl <;> exact hp
    rcases hclear with rfl | rfl
    · exact ⟨_, rfl, rmwReadThen_onProgram h rfl fun _ => rfl⟩
    · exact ⟨_, rfl, rmwWriteThen_onProgram h fun _ => onProgram_goto rfl rfl⟩
  · obtain ⟨hr, hw⟩ := not_or.mp hclear
    rw [hasPoint_linkRetrain f hr hw] at hp
    split
    · exact absurd rfl hr
    · exact absurd rfl hw
    · refine linkRmw_onProgram h (fun _ => hasPoint_linkRetrain_of_linkEnable f) (fun u => ?_) hc hp
      split
      · next hf => exact onProgram_goto (by subst hf; cases u.params.retrainClear <;> rfl) (curLegal_clearPoint _ _)
      · exact onProgram_goto rfl rfl

theorem execLinkSetTargetSpeed_onProgram (k : SpeedKind) (f : Bool) {s : State} (h : OnProgram (.linkSetTargetSpeed k f) s)
    (hq : s.seq ≠ .idle) :
    ∃ t, execLinkSetTargetSpeed k f s = .next t ∧ OnProgram (.linkSetTargetSpeed k f) t := by
  refine atPoint_onProgram h hq fun p hc hp => ?_
  split
  · exact ⟨_, rfl, onProgram_complete _ _⟩
  · cases p with
    | start => exact ⟨_, rfl, findPcie_onProgram h rfl rfl fun _ => rfl⟩
    | walk site w =>
      cases site with
      | main => exact ⟨_, rfl, findPcie_onProgram h rfl rfl fun _ => rfl⟩
      | retrain =>
        obtain rfl : f = true := hasPoint_walk_status hp
        exact ⟨_, rfl, findPcie_onProgram h rfl rfl fun _ => rfl⟩
    | version =>
      refine ⟨_, rfl, cfgReadThen_onProgram h ?_⟩
      split <;> exact onProgram_goto rfl rfl
    | speedRead => exact ⟨_, rfl, rmwReadThen_onProgram h rfl fun _ => rfl⟩
    | speedWrite =>
      refine ⟨_, rfl, cfgWriteThen_onProgram h ?_⟩
      split
      · next hf => exact onProgram_goto (by subst hf; rfl) rfl
      · exact onProgram_goto rfl rfl
    | rmwRead =>
      obtain rfl : f = true := hp
      exact ⟨_, rfl, rmwReadThen_onProgram h rfl fun _ => rfl⟩
    | rmwWrite =>
      obtain rfl : f = true := hp
      exact ⟨_, rfl, rmwWriteThen_onProgram h fun _ => onProgram_goto rfl rfl⟩
    | complete c => exact absurd rfl (hc c)
    | _ => cases hp

theorem execLinkReadStatus_onProgram {s : State} (h : OnProgram .linkReadStatus s) (hq : s.seq ≠ .idle) :
    ∃ t, execLinkReadStatus s = .next t ∧ OnProgram .linkReadStatus t := by
  refine atPoint_onProgram h hq fun p hc hp => ?_
  cases p with
  | start => exact ⟨_, rfl, findPcie_onProgram h rfl rfl fun _ => rfl⟩
  | walk site w =>
    cases site with
    | main => exact ⟨_, rfl, findPcie_onProgram h rfl rfl fun _ => rfl⟩
    | retrain => cases hasPoint_walk_status hp
  | statusRead => exact ⟨_, rfl, cfgReadThen_onProgram h (onProgram_goto rfl rfl)⟩
  | complete c => exact absurd rfl (hc c)
  | _ => cases hp

theorem execLinkWaitForTraining_onProgram {s : State} (h : OnProgram .linkWaitForTraining s) (hq : s.seq ≠ .idle) :
    ∃ t, execLinkWaitForTraining s = .next t ∧ OnProgram .linkWaitForTraining t := by
  refine atPoint_onProgram h hq fun p hc hp => ?_
  cases p with
  | start => exact ⟨_, rfl, onProgram_goto rfl rfl⟩
  | walk site w =>
    cases site with
    | main => exact ⟨_, rfl, findPcie_onProgram h rfl rfl fun _ => rfl⟩
    | retrain => cases hasPoint_walk_status hp
  | statusRead =>
    refine ⟨_, rfl, cfgReadThen_onProgram h ?_⟩
    split <;> exact onProgram_goto rfl rfl
  | deadlineCheck =>
    refine ⟨_, rfl, ?_⟩
    simp only [withSample]
    split
    · exact onProgram_goto rfl rfl
    · exact sleepNext_onProgram rfl rfl fun _ => rfl
  | sleepStart => exact ⟨_, rfl, ⟨rfl, rfl⟩⟩
  | complete c => exact absurd rfl (hc c)
  | _ => cases hp

theorem execHotReset_onProgram {s : State} (h : OnProgram .hotReset s) (hq : s.seq ≠ .idle) :
    ∃ t, execHotReset s = .next t ∧ OnProgram .hotReset t := by
  refine atPoint_onProgram h hq fun p hc hp => ?_
  have hclear : ∀ m, hasPoint .hotReset (clearPoint m) = true := fun m => by cases m <;> rfl
  cases p with
  | start =>
    refine ⟨_, rfl, cfgReadThen_onProgram h ?_⟩
    split <;> exact onProgram_goto rfl rfl
  | rmwRead => exact ⟨_, rfl, rmwReadThen_onProgram h rfl fun _ => rfl⟩
  | rmwWrite =>
    exact ⟨_, rfl, rmwWriteThen_onProgram h fun _ => sleepNext_onProgram rfl (hclear _) (curLegal_clearPoint _)⟩
  | sleepStart => exact ⟨_, rfl, ⟨hclear _, curLegal_clearPoint _ _⟩⟩
  | clearRead => exact ⟨_, rfl, rmwReadThen_onProgram h rfl fun _ => rfl⟩
  | clearWrite => exact ⟨_, rfl, rmwWriteThen_onProgram h fun _ => onProgram_goto rfl rfl⟩
  | complete c => exact absurd rfl (hc c)
  | walk site w => cases site <;> cases hasPoint_walk_status hp
  | _ => cases hp

/-- Every step of a running command at a point of its own answers a next state, and that state is on its program. -/
theorem exec_onProgram {i : Instr} {s : State} (h : OnProgram i s) (hq : s.seq ≠ .idle) :
    ∃ t, exec i s = .next t ∧ OnProgram i t := by
  cases i with
  | linkEnable | linkDisable | linkSetControlBits =>
    exact atPoint_onProgram h hq fun p hc hp =>
      linkRmw_onProgram h (fun _ hp => hp) (fun _ => onProgram_goto rfl rfl) hc hp
  | cfgRead n off => exact execCfgRead_onProgram n off h hq
  | cfgWrite n off => exact execCfgWrite_onProgram n off h hq
  | findStdCap imm => exact execFindStdCap_onProgram imm h hq
  | findExtCap imm => exact execFindExtCap_onProgram imm h hq
  | linkRetrain f => exact execLinkRetrain_onProgram f h hq
  | linkSetTargetSpeed k f => exact execLinkSetTargetSpeed_onProgram k f h hq
  | linkReadStatus => exact execLinkReadStatus_onProgram h hq
  | linkWaitForTraining => exact execLinkWaitForTraining_onProgram h hq
  | hotReset => exact execHotReset_onProgram h hq

/-! ### The invariant -/

theorem inv_iff (s : State) :
    s.inv = true ↔ Memory.wf s.cs = true ∧ resultsLegal s = true ∧ seqLegal s = true := by
  simp [State.inv, and_assoc]

/-- Whatever the completion, its result registers agree (R23 to R27). -/
theorem resultsLegal_complete (c : Completion) (s : State) : resultsLegal (complete c s) = true := by
  have hreserved : completedStatus s.status c &&& ~~~statusMask = 0#32 := statusWord_reserved ..
  simp only [resultsLegal, complete_status, complete_res, complete_res2, complete_errAddr, hreserved,
    statusBusy_completed, statusDone_completed, statusCode_completed, statusKind_completed]
  cases c with
  | finishOk r r2 => rfl
  | finishNotFound => rfl
  | raised e =>
    cases e with
    | ioFailure k off => cases k <;> rfl
    | _ => rfl

theorem resultsLegal_issue (w : Word) (s : State) : resultsLegal (issue w s) = true := by
  have hreserved : issuedStatus s.status &&& ~~~statusMask = 0#32 := statusWord_reserved ..
  simp [resultsLegal, hreserved]

theorem inv_complete {s : State} (c : Completion) (h : Memory.wf s.cs = true) : (complete c s).inv = true :=
  (inv_iff _).mpr ⟨h, resultsLegal_complete c s, by simp [seqLegal]⟩

/-- An issue starts at a point that every command, and every illegal word, has (R21, R105). -/
theorem inv_issue {s : State} (w : Word) (h : Memory.wf s.cs = true) : (issue w s).inv = true := by
  refine (inv_iff _).mpr ⟨h, resultsLegal_issue w s, ?_⟩
  simp only [seqLegal, issue_seq, issue_status, statusBusy_issued, pointLegal, issue_lCmd, Bool.true_and]
  cases decode w <;> rfl

/-- Setting PF touches nothing the invariant speaks of (R259). -/
theorem inv_protocolFault {s : State} (h : s.inv = true) :
    State.inv { s with status := protocolFaultStatus s.status } = true := by
  obtain ⟨hwf, hres, hseq⟩ := (inv_iff s).mp h
  refine (inv_iff _).mpr ⟨hwf, ?_, ?_⟩
  · simpa only [resultsLegal, protocolFault_reserved, statusBusy_protocolFault, statusDone_protocolFault,
      statusCode_protocolFault, statusKind_protocolFault] using hres
  · simp only [seqLegal, statusBusy_protocolFault]
    exact hseq

theorem inv_hostWrite {s : State} (r : Nat) (x : Quad) (h : s.inv = true) : (hostWrite r x s).inv = true := by
  by_cases h0 : r = 0
  · subst h0
    cases hb : statusBusy s.status with
    | true => rw [hostWrite_cmd_busy x hb]; exact inv_protocolFault h
    | false => rw [hostWrite_cmd_idle x hb]; exact inv_issue _ ((inv_iff s).mp h).1
  · unfold hostWrite
    split_ifs <;> exact h

theorem inv_assertReset {s : State} (left : List Byte) (h : s.inv = true) : (assertReset left s).inv = true := by
  obtain ⟨-, hres, hseq⟩ := (inv_iff State.reset).mp resetHasInvariant
  exact (inv_iff _).mpr ⟨abandon_wf _ _ ((inv_iff s).mp h).1, hres, hseq⟩

theorem onProgram_of_inv {i : Instr} {s : State} (h : s.inv = true) (hd : decode s.lCmd = .ok i) (hq : s.seq ≠ .idle) :
    statusBusy s.status = true ∧ OnProgram i s :=
  (seqLegal_iff hd hq).mp ((inv_iff s).mp h).2.2

/-- A step that is no completion keeps the invariant, if it keeps to the program. -/
theorem inv_of_kept {i : Instr} {s t : State} (h : s.inv = true) (hd : decode s.lCmd = .ok i) (hq : s.seq ≠ .idle)
    (hwf : Memory.wf t.cs = true) (ht : OnProgram i t) (hl : t.lCmd = s.lCmd) (hs : t.status = s.status)
    (hr : t.res = s.res) (hr2 : t.res2 = s.res2) (he : t.errAddr = s.errAddr) : t.inv = true := by
  refine (inv_iff t).mpr ⟨hwf, ?_, ?_⟩
  · have hres := ((inv_iff s).mp h).2.1
    simpa only [resultsLegal, hs, hr, hr2, he] using hres
  · exact seqLegal_of_onProgram (hl ▸ hd) (fun _ => hs ▸ (onProgram_of_inv h hd hq).1) ht

/-- A step of the decoded command keeps the invariant: a completion by its own results, every other form because it
leaves the results alone and stays on the program. -/
theorem inv_exec {i : Instr} {s t : State} (h : s.inv = true) (hd : decode s.lCmd = .ok i) (hq : s.seq ≠ .idle)
    (he : exec i s = .next t) : t.inv = true := by
  have hwf := exec_wf he ((inv_iff s).mp h).1
  have ht : OnProgram i t := by
    obtain ⟨t', ht', hprog⟩ := exec_onProgram (onProgram_of_inv h hd hq).2 hq
    rw [he] at ht'
    cases ht'
    exact hprog
  cases exec_shape he with
  | completes c cur trip e =>
    subst e
    exact inv_complete c hwf
  | transacts tr hf _ _ _ =>
    obtain ⟨q, cur, trip, base, v, rfl⟩ := hf
    exact inv_of_kept h hd hq hwf ht rfl rfl rfl rfl rfl
  | samples q d e =>
    subst e
    exact inv_of_kept h hd hq hwf ht rfl rfl rfl rfl rfl
  | sleeps wake p _ e =>
    obtain ⟨now, q, l, -, e'⟩ := sleepTurn_frame wake p s
    rw [e'] at e
    subst e
    exact inv_of_kept h hd hq hwf ht rfl rfl rfl rfl rfl

theorem Turn.inv {s t : State} (ht : Turn s t) (h : s.inv = true) : t.inv = true := by
  cases ht with
  | rests e => exact e ▸ h
  | runs i hq hd e => exact inv_exec h hd hq e
  | illegal e => exact e ▸ inv_complete _ ((inv_iff s).mp h).1
  | writes r x e => exact e ▸ inv_hostWrite r x h
  | reads r e => exact e ▸ h
  | resets left e => exact e ▸ inv_assertReset left h

/-- Settles O57, form by form of a step; the host's schedule is no part of the invariant. -/
theorem stepKeepsInvariant : Obligations.StepKeepsInvariant := by
  intro s t h hs
  obtain ⟨rest, ht⟩ := step_turn hs
  exact ht.inv h

/-- Settles O58: the decoded command's point is one of its own, and there `exec` answers. -/
theorem noFaultUnderInvariant : Obligations.NoFaultUnderInvariant := by
  intro s f h hs
  obtain ⟨rest, hturn⟩ := step_fault hs
  obtain ⟨i, hq, hd, he⟩ := sequencerTurn_fault hturn
  obtain ⟨t, ht, -⟩ := exec_onProgram (onProgram_of_inv (s := { s with host := rest }) h hd hq).2 hq
  rw [he] at ht
  cases ht

/-! ### Where the walks read (R38, R167, R170) -/

/-- The entry of a step's transaction names it. -/
theorem Transacted.eq_of_log {tr tr' : Transaction} {a : Answer} {s t : State} (h : Transacted tr s t)
    (hl : t.log = .transaction tr' a :: s.log) : tr' = tr := by
  rcases h.log_eq with e | e <;> rw [e] at hl
  · exact absurd hl.symm (List.cons_ne_self _ _)
  · cases hl
    rfl

theorem sleepTurn_no_transaction (wake : Nat) (p : Point) (s : State) (tr : Transaction) (a : Answer) :
    (sleepTurn wake p s).log ≠ .transaction tr a :: s.log := by
  intro hl
  rcases sleepTurn_log_eq wake p s with e | ⟨now, e⟩ <;> rw [e] at hl
  · exact absurd hl.symm (List.cons_ne_self _ _)
  · cases hl

theorem extRead_transaction {size : Nat} {id : Half} {s : State} {tr : Transaction} {a : Answer}
    (hl : (extRead size id s).log = .transaction tr a :: s.log) : tr = .read s.cur 4 := by
  rcases extRead_forms size id s with e | ⟨ht, -, -⟩
  · rw [e] at hl
    cases hl
  · exact ht.eq_of_log hl

/-- A transaction of FIND_EXT_CAP is the read at 0x100 of its first step, or the read of the header at CUR. -/
theorem findExtCap_transaction {imm : Half} {s t : State} {tr : Transaction} {a : Answer}
    (h : exec (.findExtCap imm) s = .next t) (hl : t.log = .transaction tr a :: s.log) :
    (tr = .read 256 4 ∧ 260 ≤ s.lOpa.toNat) ∨ (tr = .read s.cur 4 ∧ s.seq = .run .extEntry) := by
  simp only [exec, execFindExtCap, atPoint] at h
  split at h
  · cases h
  · cases h
    exact absurd hl (sleepTurn_no_transaction _ _ _ _ _)
  · cases h
    cases hl
  · next p _ hq =>
    split at h <;> cases h
    · rcases extStart_cases s.lOpa.toNat imm s with ⟨c, n, e⟩ | ⟨n, hsize, -, e⟩ <;> rw [e] at hl
      · cases hl
      · exact .inl ⟨extRead_transaction hl, hsize⟩
    · exact .inr ⟨extRead_transaction hl, hq⟩

/-- The read of an entry is at CUR with bits [1:0] masked (R38, R160). -/
theorem findStd_entry_transaction {id : Byte} {site : Site} {found : State → State} {s : State} {tr : Transaction}
    {a : Answer} (hf : ∀ tr, Transacted tr s (found (afterTransaction tr s)))
    (hl : (findStd id (.walk site) found .entry s).log = .transaction tr a :: s.log) : tr = .read (s.cur &&& 0xFC) 2 := by
  refine Transacted.eq_of_log ?_ hl
  rcases cfgReadThen_cases (s.cur &&& 0xFC) 2 s _ with ⟨ha, -⟩ | ⟨-, -, e⟩ | ⟨kind, left, -, -, e⟩ | ⟨-, -, e⟩
  · exact absurd ha (by simp [aligned_entry])
  all_goals rw [findStd, e]
  · split
    · exact (Transacted.refl _ s).goto _
    · split
      · exact hf _
      · exact ((Transacted.refl _ s).cur _).stdHead _
  · exact (Transacted.refl _ s).goto _
  · exact Transacted.refl _ s

/-- At a walk's point every command that has one takes a step of `findStd`; LINK_SET_TARGET_SPEED checks its speed
first (R166, R190, R196). -/
theorem exec_walk {i : Instr} {s t : State} {site : Site} {w : WalkPoint} (hq : s.seq = .run (.walk site w))
    (h : exec i s = .next t) :
    t = raise .valueOutOfRange s ∨ ∃ id found, t = findStd id (.walk site) found w s ∧
      ∀ tr, Transacted tr s (found (afterTransaction tr s)) := by
  have hpcie : ∀ after tr, Transacted tr s (goto after { afterTransaction tr s with base := s.cur }) :=
    fun after tr => ((Transacted.refl tr s).base _).goto after
  cases i with
  | findStdCap imm =>
    cases site <;> simp only [exec, execFindStdCap, atPoint, hq] at h <;> cases h
    exact .inr ⟨_, _, rfl, fun tr => (Transacted.refl tr s).goto _⟩
  | linkSetTargetSpeed k f =>
    simp only [exec, execLinkSetTargetSpeed, atPoint, hq] at h
    split at h
    · cases h
      exact .inl rfl
    · cases site <;> cases f <;> cases h <;> exact .inr ⟨_, _, rfl, hpcie _⟩
  | linkRetrain f =>
    cases site <;> simp only [exec, execLinkRetrain, atPoint, hq] at h <;> cases h
    exact .inr ⟨_, _, rfl, hpcie _⟩
  | linkEnable | linkDisable | linkReadStatus | linkWaitForTraining | linkSetControlBits =>
    cases site <;>
      simp only [exec, execLinkEnable, execLinkDisable, execLinkReadStatus, execLinkWaitForTraining,
        execLinkSetControlBits, atPoint, hq] at h <;> cases h
    exact .inr ⟨_, _, rfl, hpcie _⟩
  | cfgRead | cfgWrite | findExtCap | hotReset =>
    simp only [exec, execCfgRead, execCfgWrite, execFindExtCap, execHotReset, atPoint, hq] at h
    cases h

/-- A standard entry's offset, masked (R38, R73). -/
theorem entry_offset_range {c : Nat} (hlo : 0x40 ≤ c) (hhi : c ≤ 0xFF) :
    0x40 ≤ c &&& 0xFC ∧ c &&& 0xFC ≤ 0xFC ∧ (c &&& 0xFC) % 4 = 0 := by
  interval_cases c <;> decide

/-- Settles O33: the invariant holds CUR in its range at both points that read there, and the first extended step reads
at 0x100 only if four bytes fit. -/
theorem walkReadsStayInTheirRegions : Obligations.WalkReadsStayInTheirRegions := by
  refine ⟨fun imm s t tr a hinv hd he hl => ?_, fun i s t site tr a hinv hd hq he hl => ?_⟩
  · rcases findExtCap_transaction he hl with ⟨rfl, hsize⟩ | ⟨rfl, hq⟩
    · exact ⟨by decide, by decide, hsize⟩
    · have hprog := (onProgram_of_inv hinv hd (by simp [hq])).2
      simp only [OnProgram, hq, curLegal, Bool.and_eq_true, decide_eq_true_eq] at hprog
      obtain ⟨-, ⟨hlo, hhi⟩, hsize⟩ := hprog
      exact ⟨hlo, hhi, hsize⟩
  · have hprog := (onProgram_of_inv hinv hd (by simp [hq])).2
    simp only [OnProgram, hq, curLegal, Bool.and_eq_true, decide_eq_true_eq] at hprog
    obtain ⟨-, hlo, hhi⟩ := hprog
    rcases exec_walk hq he with rfl | ⟨id, found, rfl, hf⟩
    · cases hl
    · rw [findStd_entry_transaction hf hl]
      exact entry_offset_range hlo hhi

end Sys2Proof.Machine
end

section
/-! PROOFS. 10_state.md: the device fields each step takes from its read (R34 to R39) and the Bridge Control writes (R37). -/

namespace Sys2Proof.Machine

/-! ### One answered transaction and the point that comes next (R62) -/

/-- After an answered read only the port, the bytes as it found them and the record have moved. -/
theorem afterTransaction_read_ok {s : State} (h : s.port.event.reply = .ok) (off n : Nat) :
    afterTransaction (.read off n) s = { s with
      port := s.port.advance, cs := s.seenCs, inFlight := none
      log := .transaction (.read off n) (.ok (Memory.readLE s.seenCs off n)) :: s.log } := by
  simp [afterTransaction, h, answerTo_read_ok h]

theorem afterTransaction_write_ok {s : State} (h : s.port.event.reply = .ok) (off n : Nat) (v : Word) :
    afterTransaction (.write off n v) s = { s with
      port := s.port.advance, cs := Memory.writeLE s.seenCs off n v, inFlight := none
      log := .transaction (.write off n v) (.ok v) :: s.log } := by
  simp [afterTransaction, h, answerTo_write_ok h]

theorem readOnly_goto {s : State} (h : s.port.event.reply = .ok) (off n : Nat) (p : Point) :
    ReadOnly off n p s (goto p (afterTransaction (.read off n) s)) := by
  rw [afterTransaction_read_ok h]
  rfl

/-- A half zero-extended is what its two bytes read back as (R63). -/
theorem readLE_writeLE_half {m : Memory} (hm : Memory.wf m = true) (off : Nat) (x : Half) :
    Memory.readLE (Memory.writeLE m off 2 (x.setWidth 32)) off 2 = x.setWidth 32 := by
  rw [Memory.readLE_writeLE hm off 2 _ (by omega)]
  simp

theorem wroteOnly_goto {s : State} (h : s.port.event.reply = .ok) (hwf : Memory.wf s.cs = true) (off : Nat) (x : Half)
    (p : Point) : WroteOnly off 2 (x.setWidth 32) p s (goto p (afterTransaction (.write off 2 (x.setWidth 32)) s)) := by
  rw [afterTransaction_write_ok h]
  exact ⟨rfl, readLE_writeLE_half (seenCs_wf hwf) off x, fun a ha => Memory.read_writeLE_outside _ _ _ _ ha⟩

/-- Step 1 of RMW16 at an even offset, on a port that answers (R82). -/
theorem rmwReadThen_ok {s : State} {off : Nat} {after : Point} (h : s.port.event.reply = .ok) (ha : off % 2 = 0) :
    rmwReadThen off after s =
      goto after { afterTransaction (.read off 2) s with v := Memory.readLE s.seenCs off 2 } :=
  cfgReadThen_ok (by simpa [aligned] using ha) h

/-- Step 2 of RMW16 at an even offset, on a port that answers (R82). -/
theorem rmwWriteThen_ok {s : State} {off : Nat} {set clr : Half} {k : State → State} (h : s.port.event.reply = .ok)
    (ha : off % 2 = 0) :
    rmwWriteThen off set clr s k = k (afterTransaction (.write off 2 ((rmwValue s.v set clr).setWidth 32)) s) :=
  cfgWriteThen_ok (by simpa [aligned] using ha) h

theorem rmwValue_set (v : Word) (set : Half) : rmwValue v set 0#16 = v.setWidth 16 ||| set := by
  rw [rmwValue, show ~~~0#16 = BitVec.allOnes 16 by decide, BitVec.and_allOnes]

theorem rmwValue_clear (v : Word) (clr : Half) : rmwValue v 0#16 clr = v.setWidth 16 &&& ~~~clr := by
  simp [rmwValue]

/-- What step 1 of RMW16 leaves: the read alone, and V. -/
theorem rmwReadThen_readOnly {s : State} {off : Nat} (after : Point) (h : s.port.event.reply = .ok) (ha : off % 2 = 0) :
    ∃ t', ReadOnly off 2 after s t' ∧ rmwReadThen off after s = { t' with v := Memory.readLE s.seenCs off 2 } :=
  ⟨_, readOnly_goto h off 2 after, rmwReadThen_ok h ha⟩

/-! ### The standard walk, point by point (R34 to R38, R160) -/

section Walk

variable {s : State} (h : s.port.event.reply = .ok) (id : Byte) (at_ : WalkPoint → Point) (found : State → State)
include h

theorem findStd_status_ok :
    findStd id at_ found .status s =
      goto (if capabilitiesList (Memory.readLE s.seenCs 0x06 2) then at_ .header else .complete .finishNotFound)
        (afterTransaction (.read 0x06 2) s) := by
  rw [findStd, cfgReadThen_ok (by decide) h]
  split <;> rfl

theorem findStd_header_ok :
    findStd id at_ found .header s =
      goto ((pointerOffset (headerType (Memory.readLE s.seenCs 0x0E 1))).elim (.complete .finishNotFound)
          fun pp => at_ (.pointer pp))
        (afterTransaction (.read 0x0E 1) s) := by
  rw [findStd, cfgReadThen_ok (by decide) h]
  cases pointerOffset (headerType (Memory.readLE s.seenCs 0x0E 1)) <;> rfl

/-- A pointer of 0 ends the walk before TRIP is set; any other goes to the loop's head. -/
theorem findStd_pointer_ok (pp : Nat) :
    findStd id at_ found (.pointer pp) s =
      goto (if s.params.stdTripLimit = 0 ∨ (Memory.readLE s.seenCs pp 1).toNat < 0x40 then .complete .finishNotFound
          else at_ .entry)
        { afterTransaction (.read pp 1) s with
          cur := (Memory.readLE s.seenCs pp 1).toNat
          trip := if (Memory.readLE s.seenCs pp 1).toNat = 0 then s.trip else s.params.stdTripLimit - 1 } := by
  rw [findStd, cfgReadThen_ok (by simp [aligned, Nat.mod_one]) h]
  by_cases hc : Memory.readLE s.seenCs pp 1 = 0#32
  · simp [hc]
  · have hc' : (Memory.readLE s.seenCs pp 1).toNat ≠ 0 := fun e => hc (BitVec.eq_of_toNat_eq e)
    simp only [hc, hc', if_false, stdHead_eq]
    rfl

theorem findStd_entry_ok :
    findStd id at_ found .entry s =
      if entryId (Memory.readLE s.seenCs (s.cur &&& 0xFC) 2) = 0xFF#8 then
        goto (.complete .finishNotFound) (afterTransaction (.read (s.cur &&& 0xFC) 2) s)
      else if entryId (Memory.readLE s.seenCs (s.cur &&& 0xFC) 2) = id then
        found (afterTransaction (.read (s.cur &&& 0xFC) 2) s)
      else
        goto (if s.trip = 0 ∨ entryNext (Memory.readLE s.seenCs (s.cur &&& 0xFC) 2) < 0x40
            then .complete .finishNotFound else at_ .entry)
          { afterTransaction (.read (s.cur &&& 0xFC) 2) s with
            cur := entryNext (Memory.readLE s.seenCs (s.cur &&& 0xFC) 2), trip := s.trip - 1 } := by
  rw [findStd, cfgReadThen_ok (aligned_entry _) h]
  simp only [stdHead_eq]
  rfl

end Walk

theorem exec_findStdCap_start {s : State} (imm : Half) (hq : s.seq = .run .start) :
    exec (.findStdCap imm) s =
      .next (findStd (imm.setWidth 8) (.walk .main) (fun t => finishNext (.ofNat 64 t.cur) 0#64 t) .status s) := by
  simp [exec, execFindStdCap, atPoint, hq]

theorem exec_findStdCap_walk {s : State} (imm : Half) {w : WalkPoint} (hq : s.seq = .run (.walk .main w)) :
    exec (.findStdCap imm) s =
      .next (findStd (imm.setWidth 8) (.walk .main) (fun t => finishNext (.ofNat 64 t.cur) 0#64 t) w s) := by
  simp [exec, execFindStdCap, atPoint, hq]

theorem extractLsb'_zero_eight (imm : Half) : imm.extractLsb' 0 8 = imm.setWidth 8 := by
  ext j hj
  simp

/-- Where the header type sends the walk (R35, R36). -/
theorem pointerOffset_elim (ty : BitVec 7) (none_ : Point) (some_ : Nat → Point) :
    (pointerOffset ty).elim none_ some_ =
      if ty = 0#7 ∨ ty = 1#7 then some_ 0x34 else if ty = 2#7 then some_ 0x14 else none_ := by
  unfold pointerOffset
  split_ifs <;> rfl

/-- Settles O31, with one equation per read of the walk. -/
theorem findStdCapTakesTheEntry : Obligations.FindStdCapTakesTheEntry := by
  intro imm s h
  refine ⟨fun hq => ?_, ?_, ?_, ?_⟩
  · have he : exec (.findStdCap imm) s = _ := hq.elim (exec_findStdCap_start imm) (exec_findStdCap_walk imm)
    rw [findStd_status_ok h] at he
    exact ⟨_, he, readOnly_goto h _ _ _⟩
  · rintro ty hq rfl
    have he := exec_findStdCap_walk imm hq
    rw [findStd_header_ok h, pointerOffset_elim] at he
    exact ⟨_, he, readOnly_goto h _ _ _⟩
  · rintro pp c hq rfl
    have he := exec_findStdCap_walk imm hq
    rw [findStd_pointer_ok h] at he
    exact ⟨_, _, he, readOnly_goto h _ _ _, rfl⟩
  · rintro e hq rfl
    have he := exec_findStdCap_walk imm hq
    rw [findStd_entry_ok h, ← extractLsb'_zero_eight] at he
    refine ⟨fun hid hff => ?_, fun hff => ?_, ?_⟩
    · rw [if_neg (by exact hff), if_pos (by exact hid)] at he
      exact ⟨_, he, readOnly_goto h _ _ _⟩
    · rw [if_pos (by exact hff)] at he
      exact ⟨_, he, readOnly_goto h _ _ _⟩
    · rintro nx hid hff rfl
      rw [if_neg (by exact hff), if_neg (by exact hid)] at he
      exact ⟨_, _, he, readOnly_goto h _ _ _, rfl⟩

/-! ### The extended walk at a header (R39, R167, R169) -/

theorem exec_findExtCap_entry {s : State} (imm : Half) (hq : s.seq = .run .extEntry) :
    exec (.findExtCap imm) s = .next (extRead s.lOpa.toNat imm s) := by
  simp [exec, execFindExtCap, atPoint, hq]

theorem extRead_misaligned {size : Nat} {id : Half} {s : State} (ha : s.cur % 4 ≠ 0) :
    extRead size id s = complete (.raised (.alignmentViolation s.cur)) s :=
  cfgReadThen_misaligned (by simpa [aligned] using ha)

theorem extRead_ok {size : Nat} {id : Half} {s : State} (h : s.port.event.reply = .ok) (ha : s.cur % 4 = 0) {hd : Word}
    (hh : hd = Memory.readLE s.seenCs s.cur 4) {nx : Nat} (hnx : nx = takenNext s.params.extNextAlign (headerNext hd)) :
    extRead size id s =
      if headerEnds hd then goto (.complete .finishNotFound) (afterTransaction (.read s.cur 4) s)
      else if headerId hd = id then
        goto (.complete (.finishOk (.ofNat 64 s.cur) 0#64)) (afterTransaction (.read s.cur 4) s)
      else if nextEnds s.params.extNextAlign s.cur nx then
        goto (.complete .finishNotFound) (afterTransaction (.read s.cur 4) s)
      else
        goto (if s.trip = 0 ∨ size < nx + 4 then .complete .finishNotFound else .extEntry)
          { afterTransaction (.read s.cur 4) s with cur := nx, trip := s.trip - 1 } := by
  subst hh hnx
  rw [extRead, cfgReadThen_ok (by simpa [aligned] using ha) h]
  simp only [extHead_eq]
  rfl

theorem headerEnds_iff (h : Word) : headerEnds h = true ↔ h = 0x00000000#32 ∨ h = 0xFFFFFFFF#32 := by
  simp [headerEnds]

theorem nextEnds_iff (a : NextAlign) (cur nx : Nat) :
    nextEnds a cur nx = true ↔ nx = 0 ∨ nx = cur ∨ nx < 256 ∨ a = .stop ∧ nx % 4 ≠ 0 := by
  simp [nextEnds, or_assoc]

/-- The next-pointer in bits [31:20], under MASK with its bits [1:0] cleared (R39, R169). -/
theorem takenNext_eq {a : NextAlign} {h : Word} {nx : Nat}
    (hmask : a = .mask → nx = (h.extractLsb' 20 12 &&& 0xFFC#12).toNat)
    (hother : a = .fault ∨ a = .stop → nx = (h.extractLsb' 20 12).toNat) : nx = takenNext a (headerNext h) := by
  cases a with
  | mask => rw [hmask rfl, BitVec.toNat_and]; rfl
  | fault => exact hother (.inl rfl)
  | stop => exact hother (.inr rfl)

/-- A completion as the rules state it (R250, R251). -/
theorem completed_complete (c : Completion) (s : State) :
    Completed s (complete c s) c.code.bits (ioKindBits c.kind) c.res c.res2 c.addr :=
  ⟨by simp, by simp, by simp, by simp, by simp, statusWord_reserved .., rfl, rfl, rfl, rfl⟩

/-- Settles O32: the misaligned case completes, and the others are the branches of `extRead_ok`. -/
theorem findExtCapTakesTheHeader : Obligations.FindExtCapTakesTheHeader := by
  intro imm s hd hq
  have he := exec_findExtCap_entry imm hq
  refine ⟨fun ha => ?_, fun h ha hh => ?_⟩
  · rw [extRead_misaligned ha] at he
    exact ⟨_, he, completed_complete _ s, rfl, rfl⟩
  · have hok := fun {nx} => extRead_ok (size := s.lOpa.toNat) (id := imm) h ha hh (nx := nx)
    refine ⟨fun hid h0 h1 => ?_, fun hend => ?_, fun nx hid h0 h1 hmask hother => ?_⟩
    · rw [hok rfl, if_neg (by simp [headerEnds_iff, h0, h1]), if_pos (by exact hid)] at he
      exact ⟨_, he, readOnly_goto h _ _ _⟩
    · rw [hok rfl, if_pos ((headerEnds_iff hd).mpr hend)] at he
      exact ⟨_, he, readOnly_goto h _ _ _⟩
    · rw [hok (takenNext_eq hmask hother), if_neg (by simp [headerEnds_iff, h0, h1]), if_neg (by exact hid)] at he
      refine ⟨fun hend => ?_, fun hlo hcur hstop => ?_⟩
      · rw [if_pos ((nextEnds_iff _ _ _).mpr hend)] at he
        exact ⟨_, he, readOnly_goto h _ _ _⟩
      · rw [if_neg] at he
        · exact ⟨_, _, he, readOnly_goto h _ _ _, rfl⟩
        · rw [nextEnds_iff]
          rintro (h0 | h1 | h2 | ⟨h3, h4⟩)
          · omega
          · exact hcur h1
          · omega
          · exact h4 (hstop h3)

/-! ### Bridge Control (R37, R200) -/

theorem clearPoint_eq (m : ClearMode) : clearPoint m = if m = .reread then .clearRead else .clearWrite := by
  cases m <;> rfl

theorem sleepNext_eq (d : Quad) (resume : Point) (s : State) :
    sleepNext d resume s = goto (if d ≠ 0#64 then .sleepStart else resume) s := by
  by_cases h : d = 0#64 <;> simp [sleepNext, h]

/-- Settles O47: two read-modify-writes at 0x3E with the Sleep between them. -/
theorem hotResetPulsesSecondaryBusReset : Obligations.HotResetPulsesSecondaryBusReset := by
  intro s h hwf
  refine ⟨fun hq => ?_, fun hq => ?_, fun hq => ?_, fun hq => ?_, fun hq => ?_⟩
  · obtain ⟨t', ht', e⟩ := rmwReadThen_readOnly .rmwWrite h (off := bridgeControlOff) rfl
    exact ⟨_, t', by simp only [exec, execHotReset, atPoint, hq], ht', e⟩
  · have he : exec .hotReset s = .next (rmwWriteThen bridgeControlOff maskSBR 0#16 s fun t =>
        sleepNext s.lOpa (clearPoint t.params.hotResetClear) t) := by
      simp only [exec, execHotReset, atPoint, hq]
    rw [rmwWriteThen_ok h rfl, rmwValue_set, sleepNext_eq, clearPoint_eq] at he
    exact ⟨_, he, wroteOnly_goto h hwf _ _ _⟩
  · have he : exec .hotReset s = .next (beginSleep s.lOpa (clearPoint s.params.hotResetClear) s) := by
      simp only [exec, execHotReset, atPoint, hq]
    rw [clearPoint_eq] at he
    exact ⟨_, he, rfl⟩
  · obtain ⟨t', ht', e⟩ := rmwReadThen_readOnly .clearWrite h (off := bridgeControlOff) rfl
    exact ⟨_, t', by simp only [exec, execHotReset, atPoint, hq], ht', e⟩
  · have he : exec .hotReset s =
        .next (rmwWriteThen bridgeControlOff 0#16 maskSBR s (finishNext 0#64 0#64)) := by
      simp only [exec, execHotReset, atPoint, hq]
    rw [rmwWriteThen_ok h rfl, rmwValue_clear] at he
    exact ⟨_, he, wroteOnly_goto h hwf _ _ _⟩

end Sys2Proof.Machine
end

section
/-! PROOFS. 10_state.md: which registers a step depends on (R22, R29, R31, R291). Two runs of one command are held side by
side: they may differ in OPA and OPB and in the internal registers, but agree on those the command still reads. -/

namespace Sys2Proof.Machine

/-- The registers two runs of a command may differ in. -/
inductive Reg where
  | operands
  | cursor
  | base
  | v
  | deadline

/-- The two states agree on the register; CUR and TRIP go together. -/
def Reg.same (s s' : State) : Reg → Prop
  | .operands => s'.opa = s.opa ∧ s'.opb = s.opb
  | .cursor => s'.cur = s.cur ∧ s'.trip = s.trip
  | .base => s'.base = s.base
  | .v => s'.v = s.v
  | .deadline => s'.deadline = s.deadline

/-- The command may read the register at `p` or later before it writes it. -/
def live (i : Instr) (p : Point) : Reg → Prop
  | .operands => False
  | .cursor => p = .extEntry ∨ ∃ site, p = .walk site .entry
  | .base => i ≠ .hotReset ∧
      p ∈ [.version, .speedRead, .speedWrite, .rmwRead, .rmwWrite, .clearRead, .clearWrite, .statusRead]
  | .v => p ∈ [.speedWrite, .rmwWrite, .clearWrite, .deadlineCheck, .sleepStart]
  | .deadline => i = .linkWaitForTraining ∧
      (p ∈ [.statusRead, .deadlineCheck, .sleepStart] ∨ ∃ site w, p = .walk site w)

/-- `live` at the point SEQ holds. -/
def liveSeq (i : Instr) (q : Seq) (r : Reg) : Prop := ∃ p, (q = .run p ∨ ∃ wake, q = .sleep wake p) ∧ live i p r

theorem liveSeq_run {i : Instr} {p : Point} {r : Reg} : liveSeq i (.run p) r ↔ live i p r := by simp [liveSeq]

theorem liveSeq_sleep {i : Instr} {wake : Nat} {p : Point} {r : Reg} : liveSeq i (.sleep wake p) r ↔ live i p r := by
  simp [liveSeq]

theorem live_complete {i : Instr} {c : Completion} {r : Reg} : ¬ live i (.complete c) r := by
  cases r <;> simp [live]

/-- Inside a walk CUR and TRIP are read at an entry; otherwise the walk's points are alike. -/
theorem live_walk {i : Instr} {site : Site} {w : WalkPoint} {r : Reg} (h : live i (.walk site w) r) :
    live i (.walk site .status) r ∨ r = .cursor := by
  cases r <;> simp_all [live]

theorem live_clearPoint {i : Instr} {m : ClearMode} {r : Reg} (h : live i (clearPoint m) r) : live i .clearWrite r := by
  cases m <;> cases r <;> simp_all [live, clearPoint]

/-- `s'` is `s` but for the registers of `Reg`, and agrees with `s` on those in `K`. -/
structure Twin (K : Reg → Prop) (s s' : State) : Prop where
  rest : s' = { s with
    opa := s'.opa, opb := s'.opb, cur := s'.cur, trip := s'.trip, base := s'.base, v := s'.v, deadline := s'.deadline }
  same : ∀ r, K r → r.same s s'

namespace Twin

variable {K L : Reg → Prop} {s s' : State}

theorem seq (h : Twin K s s') : s'.seq = s.seq := by rw [h.rest]
theorem lOpa (h : Twin K s s') : s'.lOpa = s.lOpa := by rw [h.rest]
theorem lOpb (h : Twin K s s') : s'.lOpb = s.lOpb := by rw [h.rest]
theorem params (h : Twin K s s') : s'.params = s.params := by rw [h.rest]
theorem answerTo (h : Twin K s s') (tr : Transaction) : answerTo tr s' = answerTo tr s := by rw [h.rest]; rfl

theorem mono (h : Twin K s s') (hL : ∀ r, L r → K r) : Twin L s s' := ⟨h.rest, fun r hr => h.same r (hL r hr)⟩

theorem after (h : Twin K s s') (tr : Transaction) : Twin K (afterTransaction tr s) (afterTransaction tr s') :=
  ⟨by rw [h.rest]; rfl, h.same⟩

theorem goto (h : Twin K s s') (p : Point) : Twin K (goto p s) (goto p s') :=
  ⟨by rw [h.rest]; rfl, h.same⟩

theorem complete (h : Twin K s s') (c : Completion) : Twin K (complete c s) (complete c s') :=
  ⟨by rw [h.rest]; rfl, h.same⟩

theorem setCur (h : Twin K s s') {c c' : Nat} (hc : c' = c) : Twin K { s with cur := c } { s' with cur := c' } :=
  ⟨by rw [h.rest], fun r hr => by
    have := h.same r hr
    cases r with
    | cursor => exact ⟨hc, this.2⟩
    | _ => exact this⟩

theorem setTrip (h : Twin K s s') {n n' : Nat} (hn : n' = n) : Twin K { s with trip := n } { s' with trip := n' } :=
  ⟨by rw [h.rest], fun r hr => by
    have := h.same r hr
    cases r with
    | cursor => exact ⟨this.1, hn⟩
    | _ => exact this⟩

/-- CUR and TRIP written alike agree; so for each other register. -/
theorem setCursor (h : Twin K s s') {c n c' n' : Nat} (hc : c' = c) (hn : n' = n) :
    Twin (fun r => K r ∨ r = .cursor) { s with cur := c, trip := n } { s' with cur := c', trip := n' } :=
  ⟨by rw [h.rest], fun r hr => by
    cases r with
    | cursor => exact ⟨hc, hn⟩
    | _ => exact h.same _ (hr.resolve_right nofun)⟩

theorem setBase (h : Twin K s s') {b b' : Nat} (hb : b' = b) :
    Twin (fun r => K r ∨ r = .base) { s with base := b } { s' with base := b' } :=
  ⟨by rw [h.rest], fun r hr => by
    cases r with
    | base => exact hb
    | _ => exact h.same _ (hr.resolve_right nofun)⟩

theorem setV (h : Twin K s s') (x : Word) : Twin (fun r => K r ∨ r = .v) { s with v := x } { s' with v := x } :=
  ⟨by rw [h.rest], fun r hr => by
    cases r with
    | v => rfl
    | _ => exact h.same _ (hr.resolve_right nofun)⟩

theorem setDeadline (h : Twin K s s') (d : Nat) :
    Twin (fun r => K r ∨ r = .deadline) { s with deadline := d } { s' with deadline := d } :=
  ⟨by rw [h.rest], fun r hr => by
    cases r with
    | deadline => rfl
    | _ => exact h.same _ (hr.resolve_right nofun)⟩

end Twin

/-- Two states of runs of `i`, held side by side: they agree on the registers still read, and on those of `A`. -/
def Sim (A : Reg → Prop) (i : Instr) (s s' : State) : Prop := Twin (fun r => A r ∨ liveSeq i s.seq r) s s'

/-- Two outcomes alike: next states that `R` relates, or the same stop. -/
inductive Alike (R : State → State → Prop) :
    Host.Outcome State Fault Refusal → Host.Outcome State Fault Refusal → Prop where
  | next {t t' : State} (h : R t t') : Alike R (.next t) (.next t')
  | fault (f : Fault) : Alike R (.fault f) (.fault f)
  | refused (r : Refusal) : Alike R (.refused r) (.refused r)

section Steps

variable {A L : Reg → Prop} {i : Instr} {s s' t t' : State}

/-- A step to the point `p` needs agreement on what is read from there on. -/
theorem Twin.sim_goto (h : Twin (fun r => A r ∨ L r) t t') {p : Point} (hL : ∀ r, live i p r → L r) :
    Sim A i (Machine.goto p t) (Machine.goto p t') :=
  (h.goto p).mono fun r hr => hr.imp_right fun hl => hL r (liveSeq_run.mp hl)

/-- A completion reads none of these registers. -/
theorem Twin.sim_complete (h : Twin (fun r => A r ∨ L r) t t') (c : Completion) :
    Sim A i (Machine.complete c t) (Machine.complete c t') :=
  (h.complete c).mono fun r hr => hr.imp_right fun ⟨_, hp, _⟩ => by simp at hp

theorem Twin.sim_ends (h : Twin (fun r => A r ∨ L r) t t') (c : Completion) :
    Sim A i (Machine.goto (.complete c) t) (Machine.goto (.complete c) t') :=
  h.sim_goto fun _ hl => absurd hl live_complete

theorem Sim.twin (h : Sim A i s s') : Twin (fun r => A r ∨ liveSeq i s.seq r) s s' := h

theorem Sim.same (h : Sim A i s s') {r : Reg} (hr : liveSeq i s.seq r) : r.same s s' := h.twin.same r (.inr hr)

theorem withTransaction_sim {tr : Transaction} {k k' : Word → State → State} (h : Sim A i s s')
    (hk : ∀ v, Sim A i (k v (afterTransaction tr s)) (k' v (afterTransaction tr s'))) :
    Sim A i (withTransaction tr s k) (withTransaction tr s' k') := by
  unfold withTransaction
  rw [h.twin.answerTo]
  split
  · exact hk _
  · exact (h.twin.after tr).sim_ends _
  · exact h.twin.after tr

theorem checked_sim {off n : Nat} {go go' : State} (h : Sim A i s s') (hgo : Sim A i go go') :
    Sim A i (checked off n s go) (checked off n s' go') := by
  unfold checked
  split
  · exact hgo
  · exact h.twin.sim_complete _

theorem cfgReadThen_sim {off n : Nat} {k k' : Word → State → State} (h : Sim A i s s')
    (hk : ∀ v, Sim A i (k v (afterTransaction (.read off n) s)) (k' v (afterTransaction (.read off n) s'))) :
    Sim A i (cfgReadThen off n s k) (cfgReadThen off n s' k') :=
  checked_sim h (withTransaction_sim h hk)

theorem cfgWriteThen_sim {off n : Nat} {x : Word} {k k' : State → State} (h : Sim A i s s')
    (hk : Sim A i (k (afterTransaction (.write off n x) s)) (k' (afterTransaction (.write off n x) s'))) :
    Sim A i (cfgWriteThen off n x s k) (cfgWriteThen off n x s' k') :=
  checked_sim h (withTransaction_sim h fun _ => hk)

/-- Step 1 of RMW16 writes V. -/
theorem rmwReadThen_sim {off : Nat} {after : Point} (h : Sim A i s s')
    (hL : ∀ r, live i after r → liveSeq i s.seq r ∨ r = .v) :
    Sim A i (rmwReadThen off after s) (rmwReadThen off after s') :=
  cfgReadThen_sim h fun v => (((h.twin.after _).setV v).mono fun _ => or_assoc.mpr).sim_goto hL

/-- Step 2 of RMW16 reads V. -/
theorem rmwWriteThen_sim {off : Nat} {set clr : Half} {k k' : State → State} (h : Sim A i s s')
    (hv : liveSeq i s.seq .v) (hk : ∀ tr, Sim A i (k (afterTransaction tr s)) (k' (afterTransaction tr s'))) :
    Sim A i (rmwWriteThen off set clr s k) (rmwWriteThen off set clr s' k') := by
  have hsame : s'.v = s.v := h.same hv
  rw [rmwWriteThen, rmwWriteThen, hsame]
  exact cfgWriteThen_sim h (hk _)

theorem stdHead_sim {site : Site} (h : Twin (fun r => A r ∨ L r) t t') (hc : L .cursor)
    (hw : ∀ r, live i (.walk site .status) r → L r) : Sim A i (stdHead (.walk site) t) (stdHead (.walk site) t') := by
  obtain ⟨hcur, htrip⟩ : Reg.same t t' .cursor := h.same .cursor (.inr hc)
  have hpoint : (if t'.trip = 0 ∨ t'.cur < 0x40 then .complete .finishNotFound else .walk site .entry : Point) =
      if t.trip = 0 ∨ t.cur < 0x40 then .complete .finishNotFound else .walk site .entry := by
    rw [hcur, htrip]
  rw [stdHead_eq, stdHead_eq, hpoint]
  refine (h.setTrip (by rw [htrip])).sim_goto fun r hr => ?_
  split at hr
  · exact absurd hr live_complete
  · exact (live_walk hr).elim (hw r) fun e => e ▸ hc

theorem extHead_sim {size : Nat} (h : Twin (fun r => A r ∨ L r) t t') (hc : L .cursor)
    (hL : ∀ r, live i .extEntry r → L r) : Sim A i (extHead size t) (extHead size t') := by
  obtain ⟨hcur, htrip⟩ : Reg.same t t' .cursor := h.same .cursor (.inr hc)
  have hpoint : (if t'.trip = 0 ∨ size < t'.cur + 4 then .complete .finishNotFound else .extEntry : Point) =
      if t.trip = 0 ∨ size < t.cur + 4 then .complete .finishNotFound else .extEntry := by
    rw [hcur, htrip]
  rw [extHead_eq, extHead_eq, hpoint]
  refine (h.setTrip (by rw [htrip])).sim_goto fun r hr => ?_
  split at hr
  · exact absurd hr live_complete
  · exact hL r hr

/-- The walk writes CUR and TRIP before its first entry, and `found` sees the CUR of the entry. -/
theorem findStd_sim {id : Byte} {site : Site} {found found' : State → State} {w : WalkPoint} (h : Sim A i s s')
    (hw : ∀ r, live i (.walk site .status) r → liveSeq i s.seq r) (hc : w = .entry → liveSeq i s.seq .cursor)
    (hf : w = .entry → ∀ tr, Sim A i (found (afterTransaction tr s)) (found' (afterTransaction tr s'))) :
    Sim A i (findStd id (.walk site) found w s) (findStd id (.walk site) found' w s') := by
  cases w with
  | status =>
    refine cfgReadThen_sim h fun v => ?_
    split
    · exact (h.twin.after _).sim_goto fun r hr => (live_walk hr).elim (hw r) fun e => by subst e; simp [live] at hr
    · exact (h.twin.after _).sim_ends _
  | header =>
    refine cfgReadThen_sim h fun v => ?_
    split
    · exact (h.twin.after _).sim_goto fun r hr => (live_walk hr).elim (hw r) fun e => by subst e; simp [live] at hr
    · exact (h.twin.after _).sim_ends _
  | pointer pp =>
    refine cfgReadThen_sim h fun v => ?_
    split
    · exact ((h.twin.after _).setCur rfl).sim_ends _
    · have hlimit := congrArg Params.stdTripLimit h.twin.params
      exact stdHead_sim (L := fun r => liveSeq i s.seq r ∨ r = .cursor)
        (((h.twin.after _).setCursor rfl hlimit).mono fun _ => or_assoc.mpr) (.inr rfl) fun r hr => .inl (hw r hr)
  | entry =>
    have hsame : s'.cur = s.cur := (h.same (hc rfl)).1
    simp only [findStd, hsame]
    refine cfgReadThen_sim h fun v => ?_
    split_ifs
    · exact (h.twin.after _).sim_ends _
    · exact hf rfl _
    · exact stdHead_sim ((h.twin.after _).setCur rfl) (hc rfl) hw

/-- `FindPcie` writes BASE before it goes on. -/
theorem findPcie_sim {site : Site} {after : Point} {w : WalkPoint} (h : Sim A i s s')
    (hw : ∀ r, live i (.walk site .status) r → liveSeq i s.seq r) (hc : w = .entry → liveSeq i s.seq .cursor)
    (hL : ∀ r, live i after r → liveSeq i s.seq r ∨ r = .base) :
    Sim A i (findPcie site after w s) (findPcie site after w s') := by
  rw [findPcie, findPcie, h.twin.params]
  refine findStd_sim h hw hc fun he tr => ?_
  have hsame : s'.cur = s.cur := (h.same (hc he)).1
  exact (((h.twin.after tr).setBase hsame).mono fun _ => or_assoc.mpr).sim_goto hL

theorem extRead_sim {size : Nat} {id : Half} (h : Sim A i s s') (hc : liveSeq i s.seq .cursor)
    (hL : ∀ r, live i .extEntry r → liveSeq i s.seq r) : Sim A i (extRead size id s) (extRead size id s') := by
  have hcur : s'.cur = s.cur := (h.same hc).1
  rw [extRead, extRead, hcur]
  refine cfgReadThen_sim h fun v => ?_
  have hparams : (afterTransaction (.read s.cur 4) s').params = (afterTransaction (.read s.cur 4) s).params :=
    h.twin.params
  have hcur' : (afterTransaction (.read s.cur 4) s').cur = (afterTransaction (.read s.cur 4) s).cur := hcur
  have hnext : takenNext (afterTransaction (.read s.cur 4) s').params.extNextAlign (headerNext v) =
      takenNext (afterTransaction (.read s.cur 4) s).params.extNextAlign (headerNext v) := by
    rw [hparams]
  have hends : nextEnds (afterTransaction (.read s.cur 4) s').params.extNextAlign
        (afterTransaction (.read s.cur 4) s').cur
        (takenNext (afterTransaction (.read s.cur 4) s').params.extNextAlign (headerNext v)) =
      nextEnds (afterTransaction (.read s.cur 4) s).params.extNextAlign (afterTransaction (.read s.cur 4) s).cur
        (takenNext (afterTransaction (.read s.cur 4) s).params.extNextAlign (headerNext v)) := by
    rw [hparams, hcur']
  have hfound : BitVec.ofNat 64 (afterTransaction (.read s.cur 4) s').cur =
      BitVec.ofNat 64 (afterTransaction (.read s.cur 4) s).cur := by
    rw [hcur']
  simp only [hends, hfound]
  split_ifs
  · exact (h.twin.after _).sim_ends _
  · exact (h.twin.after _).sim_ends _
  · exact (h.twin.after _).sim_ends _
  · exact extHead_sim ((h.twin.after _).setCur hnext) hc hL

/-- The first extended step writes CUR and TRIP before it reads them. -/
theorem extStart_sim {size : Nat} {id : Half} (h : Sim A i s s') (hL : ∀ r, live i .extEntry r → r = .cursor) :
    Sim A i (extStart size id s) (extStart size id s') := by
  unfold extStart
  split
  · exact h.twin.sim_complete _
  · have hhead : Sim A i (extHead size { s with cur := 256, trip := extTripLimit s.params.extTrip size })
        (extHead size { s' with cur := 256, trip := extTripLimit s'.params.extTrip size }) :=
      extHead_sim (L := fun r => liveSeq i s.seq r ∨ r = .cursor)
        ((h.twin.setCursor rfl (by rw [h.twin.params])).mono fun _ => or_assoc.mpr) (.inr rfl)
        fun r hr => .inr (hL r hr)
    simp only [hhead.twin.seq]
    split
    · next hq =>
      refine extRead_sim hhead ?_ ?_ <;> rw [hq]
      · exact liveSeq_run.mpr (.inl rfl)
      · exact fun r => liveSeq_run.mpr
    · exact hhead.twin.sim_complete _

/-- One sample of NOW reads none of these registers; `k` says which it writes. -/
theorem withSample_sim {k k' : Nat → State → State} (h : Sim A i s s')
    (hk : ∀ now u u', Twin (fun r => A r ∨ liveSeq i s.seq r) u u' → Sim A i (k now u) (k' now u')) :
    Sim A i (withSample s k) (withSample s' k') := by
  have hnow : s'.now + s'.clock.tick = s.now + s.clock.tick := by rw [h.rest]
  simp only [withSample, hnow]
  exact hk _ _ _ ⟨by rw [h.rest], h.twin.same⟩

theorem beginSleep_sim {d : Quad} {resume : Point} (h : Sim A i s s') (hL : ∀ r, live i resume r → liveSeq i s.seq r) :
    Sim A i (beginSleep d resume s) (beginSleep d resume s') := by
  refine withSample_sim h fun now u u' hu => ⟨by rw [hu.rest], fun r hr => ?_⟩
  exact hu.same r (hr.imp_right fun hl => hL r (liveSeq_sleep.mp hl))

theorem sleepNext_sim {d : Quad} {resume : Point} (h : Twin (fun r => A r ∨ L r) t t')
    (hs : ∀ r, live i .sleepStart r → L r) (hL : ∀ r, live i resume r → L r) :
    Sim A i (sleepNext d resume t) (sleepNext d resume t') := by
  unfold sleepNext
  split
  · exact h.sim_goto hL
  · exact h.sim_goto hs

theorem sleepTurn_sim {wake : Nat} {p : Point} (h : Sim A i s s') (hq : s.seq = .sleep wake p) :
    Sim A i (sleepTurn wake p s) (sleepTurn wake p s') := by
  have hnow : s'.now + s'.clock.tickAsleep s'.now wake = s.now + s.clock.tickAsleep s.now wake := by rw [h.rest]
  simp only [sleepTurn, hnow]
  split
  · refine ⟨by rw [h.rest], fun r hr => ?_⟩
    exact h.twin.same r (hr.imp_right fun hl => by rw [hq, liveSeq_sleep]; exact liveSeq_run.mp hl)
  · exact ⟨by rw [h.rest], h.twin.same⟩

theorem atPoint_sim {f f' : Point → Host.Outcome State Fault Refusal} (h : Sim A i s s')
    (hf : ∀ p, s.seq = .run p → Alike (Sim A i) (f p) (f' p)) : Alike (Sim A i) (atPoint s f) (atPoint s' f') := by
  unfold atPoint
  rw [h.twin.seq]
  split
  · exact .fault _
  · next wake p hq => exact .next (sleepTurn_sim h hq)
  · exact .next (h.twin.sim_complete _)
  · next p _ hq => exact hf p hq

/-- Where BASE is read, the link registers are at the same offsets (R191). -/
theorem Sim.base_eq (h : Sim A i s s') {p : Point} (hq : s.seq = .run p) (hb : live i p .base) : s'.base = s.base :=
  h.same (r := .base) (by rw [hq]; exact liveSeq_run.mpr hb)

theorem Sim.lcOff_eq (h : Sim A i s s') {p : Point} (hq : s.seq = .run p) (hb : live i p .base) :
    s'.lcOff = s.lcOff := congrArg (· + 0x10) (h.base_eq hq hb)

theorem Sim.lc2Off_eq (h : Sim A i s s') {p : Point} (hq : s.seq = .run p) (hb : live i p .base) :
    s'.lc2Off = s.lc2Off := congrArg (· + 0x30) (h.base_eq hq hb)

theorem Sim.lsOff_eq (h : Sim A i s s') {p : Point} (hq : s.seq = .run p) (hb : live i p .base) :
    s'.lsOff = s.lsOff := congrArg (· + 0x12) (h.base_eq hq hb)

theorem Sim.capOff_eq (h : Sim A i s s') {p : Point} (hq : s.seq = .run p) (hb : live i p .base) :
    s'.capOff = s.capOff := congrArg (· + 0x02) (h.base_eq hq hb)

/-- The four commands of one Link Control read-modify-write (R192, R193, R194, R201). -/
theorem linkRmw_sim {set clr : Half} {last last' : State → State} {p : Point} (h : Sim A i s s') (hq : s.seq = .run p)
    (hi : i ≠ .hotReset ∧ i ≠ .linkWaitForTraining)
    (hl : p = .rmwWrite → ∀ tr, Sim A i (last (afterTransaction tr s)) (last' (afterTransaction tr s'))) :
    Alike (Sim A i) (linkRmw set clr last p s) (linkRmw set clr last' p s') := by
  have hw : ∀ r, live i (.walk .main .status) r → liveSeq i s.seq r := fun r => by cases r <;> simp [live, hi]
  have hr : ∀ r, live i .rmwRead r → liveSeq i s.seq r ∨ r = .base := fun r => by cases r <;> simp [live, hi]
  cases p with
  | start => exact .next (findPcie_sim h hw nofun hr)
  | walk site w =>
    cases site with
    | main =>
      exact .next (findPcie_sim h hw (by rintro rfl; simp [hq, liveSeq_run, live]) hr)
    | retrain => exact .fault _
  | rmwRead =>
    simp only [linkRmw, h.lcOff_eq hq (by simp [live, hi])]
    exact .next (rmwReadThen_sim h fun r => by cases r <;> simp [hq, liveSeq_run, live, hi])
  | rmwWrite =>
    simp only [linkRmw, h.lcOff_eq hq (by simp [live, hi])]
    exact .next (rmwWriteThen_sim h (by simp [hq, liveSeq_run, live]) (hl rfl))
  | _ => exact .fault _

theorem execCfgRead_sim (n : Width) (off : Half) (h : Sim A (.cfgRead n off) s s') :
    Alike (Sim A (.cfgRead n off)) (execCfgRead n off s) (execCfgRead n off s') := by
  refine atPoint_sim h fun p hq => ?_
  split
  · exact .next (checked_sim h (withTransaction_sim h fun v => (h.twin.after _).sim_goto fun r => by
      cases r <;> simp [live]))
  · exact .next (cfgReadThen_sim h fun v => (h.twin.after _).sim_ends _)
  · exact .next (withTransaction_sim h fun v => (h.twin.after _).sim_ends _)
  · exact .fault _

theorem execCfgWrite_sim (n : Width) (off : Half) (h : Sim A (.cfgWrite n off) s s') :
    Alike (Sim A (.cfgWrite n off)) (execCfgWrite n off s) (execCfgWrite n off s') := by
  refine atPoint_sim h fun p hq => ?_
  rw [h.twin.lOpa]
  split
  · refine .next (checked_sim h ?_)
    split
    · refine withTransaction_sim h fun v => ?_
      split
      · exact (h.twin.after _).sim_goto fun r => by cases r <;> simp [live]
      · exact (h.twin.after _).sim_ends _
    · exact h.twin.sim_complete _
  · exact .next (withTransaction_sim h fun v => (h.twin.after _).sim_ends _)
  · exact .fault _

theorem execFindStdCap_sim (imm : Half) (h : Sim A (.findStdCap imm) s s') :
    Alike (Sim A (.findStdCap imm)) (execFindStdCap imm s) (execFindStdCap imm s') := by
  refine atPoint_sim h fun p hq => ?_
  have hw : ∀ r, live (.findStdCap imm) (.walk .main .status) r → liveSeq (.findStdCap imm) s.seq r := fun r => by
    cases r <;> simp [live]
  cases p with
  | start => exact .next (findStd_sim h hw nofun nofun)
  | walk site w =>
    cases site with
    | main =>
      have hc : w = .entry → liveSeq (.findStdCap imm) s.seq .cursor := by
        rintro rfl
        simp [hq, liveSeq_run, live]
      refine .next (findStd_sim h hw hc fun he tr => ?_)
      have hcur : s'.cur = s.cur := (h.same (hc he)).1
      simp only [finishNext_eq, afterTransaction_cur, hcur]
      exact (h.twin.after tr).sim_ends _
    | retrain => exact .fault _
  | _ => exact .fault _

theorem execFindExtCap_sim (imm : Half) (h : Sim A (.findExtCap imm) s s') :
    Alike (Sim A (.findExtCap imm)) (execFindExtCap imm s) (execFindExtCap imm s') := by
  refine atPoint_sim h fun p hq => ?_
  rw [h.twin.lOpa]
  cases p with
  | start => exact .next (extStart_sim h fun r => by cases r <;> simp [live])
  | extEntry =>
    exact .next (extRead_sim h (by simp [hq, liveSeq_run, live]) fun r hr => by rw [hq]; exact liveSeq_run.mpr hr)
  | _ => exact .fault _

theorem execLinkRetrain_sim (f : Bool) (h : Sim A (.linkRetrain f) s s') :
    Alike (Sim A (.linkRetrain f)) (execLinkRetrain f s) (execLinkRetrain f s') := by
  refine atPoint_sim h fun p hq => ?_
  split
  · rw [h.lcOff_eq hq (by simp [live])]
    exact .next (rmwReadThen_sim h fun r => by cases r <;> simp [hq, liveSeq_run, live])
  · rw [h.lcOff_eq hq (by simp [live])]
    exact .next (rmwWriteThen_sim h (by simp [hq, liveSeq_run, live]) fun tr => (h.twin.after tr).sim_ends _)
  · refine linkRmw_sim h hq (by simp) fun hp tr => ?_
    subst hp
    simp only [afterTransaction_params, h.twin.params]
    split
    · exact (h.twin.after tr).sim_goto fun r hr => by
        have := live_clearPoint hr
        cases r <;> simp_all [liveSeq_run, live]
    · exact (h.twin.after tr).sim_ends _

theorem execLinkSetTargetSpeed_sim (k : SpeedKind) (f : Bool) (h : Sim A (.linkSetTargetSpeed k f) s s') :
    Alike (Sim A (.linkSetTargetSpeed k f)) (execLinkSetTargetSpeed k f s) (execLinkSetTargetSpeed k f s') := by
  refine atPoint_sim h fun p hq => ?_
  rw [h.twin.lOpa]
  cases normSpeed k s.lOpa with
  | none => exact .next (h.twin.sim_complete _)
  | some code =>
    have hw : ∀ site r, live (.linkSetTargetSpeed k f) (.walk site .status) r →
        liveSeq (.linkSetTargetSpeed k f) s.seq r := fun site r => by cases r <;> simp [live]
    cases p with
    | start =>
      exact .next (findPcie_sim h (hw _) nofun fun r => by cases r <;> simp [live])
    | walk site w =>
      have hc : w = .entry → liveSeq (.linkSetTargetSpeed k f) s.seq .cursor := by
        rintro rfl
        simp [hq, liveSeq_run, live]
      cases site with
      | main => exact .next (findPcie_sim h (hw _) hc fun r => by cases r <;> simp [live])
      | retrain =>
        cases f with
        | true => exact .next (findPcie_sim h (hw _) hc fun r => by cases r <;> simp [live])
        | false => exact .fault _
    | version =>
      rw [h.capOff_eq hq (by simp [live])]
      refine .next (cfgReadThen_sim h fun v => ?_)
      split
      · exact (h.twin.after _).sim_ends _
      · exact (h.twin.after _).sim_goto fun r => by cases r <;> simp [hq, liveSeq_run, live]
    | speedRead =>
      rw [h.lc2Off_eq hq (by simp [live])]
      exact .next (rmwReadThen_sim h fun r => by cases r <;> simp [hq, liveSeq_run, live])
    | speedWrite =>
      have hv : s'.v = s.v := h.same (r := .v) (by simp [hq, liveSeq_run, live])
      rw [h.lc2Off_eq hq (by simp [live]), hv]
      refine .next (cfgWriteThen_sim h ?_)
      split
      · exact (h.twin.after _).sim_goto fun r => by cases r <;> simp [live]
      · exact (h.twin.after _).sim_ends _
    | rmwRead =>
      cases f with
      | true =>
        rw [h.lcOff_eq hq (by simp [live])]
        exact .next (rmwReadThen_sim h fun r => by cases r <;> simp [hq, liveSeq_run, live])
      | false => exact .fault _
    | rmwWrite =>
      cases f with
      | true =>
        rw [h.lcOff_eq hq (by simp [live])]
        exact .next (rmwWriteThen_sim h (by simp [hq, liveSeq_run, live]) fun tr => (h.twin.after tr).sim_ends _)
      | false => exact .fault _
    | _ => exact .fault _

theorem execLinkReadStatus_sim (h : Sim A .linkReadStatus s s') :
    Alike (Sim A .linkReadStatus) (execLinkReadStatus s) (execLinkReadStatus s') := by
  refine atPoint_sim h fun p hq => ?_
  have hw : ∀ r, live .linkReadStatus (.walk .main .status) r → liveSeq .linkReadStatus s.seq r := fun r => by
    cases r <;> simp [live]
  cases p with
  | start => exact .next (findPcie_sim h hw nofun fun r => by cases r <;> simp [live])
  | walk site w =>
    cases site with
    | main =>
      exact .next (findPcie_sim h hw (by rintro rfl; simp [hq, liveSeq_run, live]) fun r => by
        cases r <;> simp [live])
    | retrain => exact .fault _
  | statusRead =>
    rw [h.lsOff_eq hq (by simp [live])]
    exact .next (cfgReadThen_sim h fun v => (h.twin.after _).sim_ends _)
  | _ => exact .fault _

theorem execLinkWaitForTraining_sim (h : Sim A .linkWaitForTraining s s') :
    Alike (Sim A .linkWaitForTraining) (execLinkWaitForTraining s) (execLinkWaitForTraining s') := by
  refine atPoint_sim h fun p hq => ?_
  rw [h.twin.lOpa, h.twin.lOpb]
  cases p with
  | start =>
    refine .next (withSample_sim h fun now u u' hu => ?_)
    exact ((hu.setDeadline _).mono fun _ => or_assoc.mpr).sim_goto fun r => by cases r <;> simp [live]
  | walk site w =>
    cases site with
    | main =>
      refine .next (findPcie_sim h (fun r => ?_) (by rintro rfl; simp [hq, liveSeq_run, live]) fun r => ?_) <;>
        cases r <;> simp [hq, liveSeq_run, live]
    | retrain => exact .fault _
  | statusRead =>
    rw [h.lsOff_eq hq (by simp [live])]
    refine .next (cfgReadThen_sim h fun v => ?_)
    have htwin := ((h.twin.after (.read s.lsOff 2)).setV v).mono fun _ => or_assoc.mpr
    split
    · exact htwin.sim_goto fun r => by cases r <;> simp [hq, liveSeq_run, live]
    · exact htwin.sim_ends _
  | deadlineCheck =>
    have hd : s'.deadline = s.deadline := h.same (r := .deadline) (by simp [hq, liveSeq_run, live])
    rw [hd]
    refine .next (withSample_sim h fun now u u' hu => ?_)
    split
    · exact hu.sim_ends _
    · refine sleepNext_sim hu (fun r => ?_) fun r => ?_ <;> cases r <;> simp [hq, liveSeq_run, live]
  | sleepStart => exact .next (beginSleep_sim h fun r => by cases r <;> simp [hq, liveSeq_run, live])
  | _ => exact .fault _

theorem execHotReset_sim (h : Sim A .hotReset s s') :
    Alike (Sim A .hotReset) (execHotReset s) (execHotReset s') := by
  refine atPoint_sim h fun p hq => ?_
  rw [h.twin.lOpa]
  cases p with
  | start =>
    refine .next (cfgReadThen_sim h fun v => ?_)
    split
    · exact (h.twin.after _).sim_goto fun r => by cases r <;> simp [live]
    · exact (h.twin.after _).sim_ends _
  | rmwRead | clearRead => exact .next (rmwReadThen_sim h fun r => by cases r <;> simp [live])
  | rmwWrite =>
    refine .next (rmwWriteThen_sim h (by simp [hq, liveSeq_run, live]) fun tr => ?_)
    rw [afterTransaction_params, afterTransaction_params, h.twin.params]
    refine sleepNext_sim (h.twin.after tr) (fun r => ?_) fun r hr => ?_
    · cases r <;> simp [hq, liveSeq_run, live]
    · have := live_clearPoint hr
      cases r <;> simp_all [liveSeq_run, live]
  | sleepStart =>
    rw [h.twin.params]
    refine .next (beginSleep_sim h fun r hr => ?_)
    have := live_clearPoint hr
    cases r <;> simp_all [liveSeq_run, live]
  | clearWrite =>
    exact .next (rmwWriteThen_sim h (by simp [hq, liveSeq_run, live]) fun tr => (h.twin.after tr).sim_ends _)
  | _ => exact .fault _

end Steps

/-- One step of a command from two states that agree on the registers it still reads: the same stop, or next states that
agree again. -/
theorem exec_sim {A : Reg → Prop} {i : Instr} {s s' : State} (h : Sim A i s s') :
    Alike (Sim A i) (exec i s) (exec i s') := by
  cases i with
  | cfgRead n off => exact execCfgRead_sim n off h
  | cfgWrite n off => exact execCfgWrite_sim n off h
  | findStdCap imm => exact execFindStdCap_sim imm h
  | findExtCap imm => exact execFindExtCap_sim imm h
  | linkEnable | linkDisable | linkSetControlBits =>
    exact atPoint_sim h fun p hq => linkRmw_sim h hq (by simp) fun _ tr => (h.twin.after tr).sim_ends _
  | linkRetrain f => exact execLinkRetrain_sim f h
  | linkSetTargetSpeed k f => exact execLinkSetTargetSpeed_sim k f h
  | linkReadStatus => exact execLinkReadStatus_sim h
  | linkWaitForTraining => exact execLinkWaitForTraining_sim h
  | hotReset => exact execHotReset_sim h

theorem Alike.of_next {R : State → State → Prop} {o o' : Host.Outcome State Fault Refusal} (h : Alike R o o')
    {t : State} (ho : o = .next t) : ∃ t', o' = .next t' ∧ R t t' := by
  cases h with
  | next h => cases ho; exact ⟨_, rfl, h⟩
  | _ => cases ho

theorem Alike.of_fault {R : State → State → Prop} {o o' : Host.Outcome State Fault Refusal} (h : Alike R o o')
    {f : Fault} (ho : o = .fault f) : o' = .fault f := by
  cases h with
  | fault => exact ho
  | _ => cases ho

/-! ### OPA and OPB (R22) -/

/-- Settles O12: the two runs agree on every register but OPA and OPB, and the frame says what those hold after. -/
theorem runningCommandReadsLatchedOperands : Obligations.RunningCommandReadsLatchedOperands := by
  refine ⟨fun i s x y => ?_, fun s x rest hp => ⟨fun h => ?_, fun h => ?_⟩⟩
  · have hsim : Sim (· ≠ .operands) i s { s with opa := x, opb := y } := ⟨rfl, fun r hr => by
      cases r with
      | operands => simp [liveSeq, live] at hr
      | cursor => exact ⟨rfl, rfl⟩
      | _ => rfl⟩
    cases he : exec i s with
    | next t =>
      obtain ⟨t', he', ht⟩ := (exec_sim hsim).of_next he
      obtain ⟨hopa, hopb, -⟩ := registerFrame i _ t' he'
      obtain ⟨hcur, htrip⟩ : Reg.same t t' .cursor := ht.twin.same .cursor (.inl nofun)
      have hbase : t'.base = t.base := ht.twin.same .base (.inl nofun)
      have hv : t'.v = t.v := ht.twin.same .v (.inl nofun)
      have hd : t'.deadline = t.deadline := ht.twin.same .deadline (.inl nofun)
      have hrest := ht.rest
      rw [hopa, hopb, hcur, htrip, hbase, hv, hd] at hrest
      rw [he', hrest]
      rfl
    | fault f => exact (exec_sim hsim).of_fault he
    | refused r => exact absurd he (exec_ne_refused i s r)
  · rw [step_write hp h, hostWrite_opa]
  · rw [step_write hp h, hostWrite_opb]

/-! ### What earlier commands left (R29, R31, R291) -/

theorem runExec_sim {A : Reg → Prop} {i : Instr} {n : Nat} {s s' t : State} (h : Sim A i s s')
    (hr : runExec i n s = .next t) : ∃ t', runExec i n s' = .next t' ∧ Sim A i t t' := by
  induction n generalizing s s' with
  | zero =>
    cases hr
    exact ⟨s', rfl, h⟩
  | succ n ih =>
    cases he : exec i s with
    | next u =>
      obtain ⟨u', he', hu⟩ := (exec_sim h).of_next he
      simp only [runExec, he] at hr
      simp only [runExec, he']
      exact ih hu hr
    | fault f => simp [runExec, he] at hr
    | refused r => simp [runExec, he] at hr

/-- Nothing is read from these registers at the start of decoding. -/
theorem live_start {i : Instr} {r : Reg} : ¬ live i .start r := by cases r <;> simp [live]

/-- Settles O60: at the start of decoding no register is live, so the two runs agree throughout. -/
theorem staleRegistersNeverMatter : Obligations.StaleRegistersNeverMatter := by
  intro i n s t cur trip base deadline v hq hr
  have hsim : Sim (· = .operands) i s
      { s with cur := cur, trip := trip, base := base, v := v, deadline := deadline } := ⟨rfl, by
    rintro r (rfl | hl)
    · exact ⟨rfl, rfl⟩
    · rw [hq, liveSeq_run] at hl
      exact absurd hl live_start⟩
  obtain ⟨t', ht', ht⟩ := runExec_sim hsim hr
  refine ⟨t', ht', ?_⟩
  obtain ⟨hopa, hopb⟩ : Reg.same t t' .operands := ht.twin.same .operands (.inl rfl)
  have hrest := ht.rest
  rw [hopa, hopb] at hrest
  rw [hrest]

end Sys2Proof.Machine
end

section
/-! PROOFS. 10_state.md R43: whole runs. What every run of a command keeps, the standard walk on the ideal port as the walk
of R160 in one go, and the run of LINK_SET_TARGET_SPEED (42_link_controller.md R190, R196). -/

namespace Sys2Proof.Machine

/-! ### Runs of a command (R11) -/

/-- Some number of steps of the command leads from `s` to `t`. -/
def Reaches (i : Instr) (s t : State) : Prop := ∃ n, runExec i n s = .next t

theorem runExec_succ {i : Instr} {n : Nat} {s u : State} (h : exec i s = .next u) :
    runExec i (n + 1) s = runExec i n u := by
  simp [runExec, h]

theorem runExec_next_succ {i : Instr} {n : Nat} {s t : State} (h : runExec i (n + 1) s = .next t) :
    ∃ u, exec i s = .next u ∧ runExec i n u = .next t := by
  unfold runExec at h
  split at h
  · next u he => exact ⟨u, he, h⟩
  · cases h
  · cases h

namespace Reaches

variable {i : Instr} {s t u : State}

theorem refl (i : Instr) (s : State) : Reaches i s s := ⟨0, rfl⟩

theorem head (he : exec i s = .next u) (h : Reaches i u t) : Reaches i s t := by
  obtain ⟨n, hn⟩ := h
  exact ⟨n + 1, by rw [runExec_succ he, hn]⟩

theorem step (he : exec i s = .next t) : Reaches i s t := head he (refl i t)

/-- A property that no step of the command changes holds after a run as before. -/
theorem preserves {P : State → Prop} (h : Reaches i s t) (hP : ∀ u v, exec i u = .next v → P u → P v) (hs : P s) :
    P t := by
  obtain ⟨n, hn⟩ := h
  induction n generalizing s with
  | zero => cases hn; exact hs
  | succ n ih =>
    obtain ⟨u, he, hu⟩ := runExec_next_succ hn
    exact ih (hP s u he hs) hu

theorem trans (h : Reaches i s u) (h' : Reaches i u t) : Reaches i s t := by
  obtain ⟨n, hn⟩ := h
  induction n generalizing s with
  | zero => cases hn; exact h'
  | succ n ih =>
    obtain ⟨v, he, hv⟩ := runExec_next_succ hn
    exact head he (ih hv)

/-- The latched operand, the parameters and PF stay (R21, R22, R259). -/
theorem frame (h : Reaches i s t) :
    t.lOpa = s.lOpa ∧ t.params = s.params ∧ statusPf t.status = statusPf s.status := by
  refine h.preserves (P := fun u => u.lOpa = s.lOpa ∧ u.params = s.params ∧ statusPf u.status = statusPf s.status)
    (fun u v he hu => ?_) ⟨rfl, rfl, rfl⟩
  obtain ⟨-, -, -, hl, -, hp, -, hpf, -⟩ := registerFrame i u v he
  rwa [hl, hp, hpf]

/-- The record only grows (R271). -/
theorem log_mem (h : Reaches i s t) {e : Event} (hm : e ∈ s.log) : e ∈ t.log := by
  refine h.preserves (P := fun u => e ∈ u.log) (fun u v he hu => ?_) hm
  rcases stepIsAtMostOneEvent i u v he with hl | ⟨e', hl, -⟩ <;> rw [hl]
  · exact hu
  · exact List.mem_cons_of_mem _ hu

/-- A run that comes to a completion shows it (R250, R251). -/
theorem completes {c : Completion} (h : Reaches i s u) (he : exec i u = .next (complete c u)) :
    ∃ n t, runExec i n s = .next t ∧ Completed s t c.code.bits (ioKindBits c.kind) c.res c.res2 c.addr ∧
      t.cs = u.cs ∧ t.log = .completion c :: u.log := by
  obtain ⟨n, hn⟩ := h.trans (step he)
  obtain ⟨hb, hd, hpf, hrest⟩ := completed_complete c u
  exact ⟨n, _, hn, ⟨hb, hd, hpf.trans h.frame.2.2, hrest⟩, rfl, rfl⟩

end Reaches

/-- A completion that comes next is the same step for every command (R250, R251). -/
theorem exec_complete {i : Instr} {s : State} {c : Completion} (hq : s.seq = .run (.complete c)) :
    exec i s = .next (complete c s) := by
  cases i <;> exact atPoint_complete hq

/-! ### The ideal port (R80) -/

theorem idealPort_reply {s : State} (h : idealPort s) : s.port.event.reply = .ok := by
  rw [Port.event_ideal h.1 h.2]
  rfl

/-- `u` is on the ideal port over the bytes `m`, with the operand and the parameters of `s`. -/
structure Stands (s : State) (m : Memory) (u : State) : Prop where
  port : idealPort u
  bytes : u.cs = m
  operand : u.lOpa = s.lOpa
  params : u.params = s.params

namespace Stands

variable {s u : State} {m : Memory}

theorem seenCs (h : Stands s m u) : u.seenCs = m := (seenCs_ideal h.port.1 h.port.2).trans h.bytes

theorem reply (h : Stands s m u) : u.port.event.reply = .ok := idealPort_reply h.port

theorem goto (h : Stands s m u) (p : Point) : Stands s m (goto p u) := ⟨h.port, h.bytes, h.operand, h.params⟩

/-- A read on the ideal port changes neither the bytes nor the port. -/
theorem afterRead (h : Stands s m u) (off n : Nat) : Stands s m (afterTransaction (.read off n) u) := by
  refine ⟨?_, ?_, h.operand, h.params⟩
  · rw [idealPort, afterTransaction_port, Port.advance_ideal h.port.1 h.port.2]
    exact h.port
  · rw [afterTransaction_cs, effect_read, h.seenCs]

theorem afterWrite (h : Stands s m u) (off n : Nat) (v : Word) :
    Stands s (Memory.writeLE m off n v) (afterTransaction (.write off n v) u) := by
  refine ⟨?_, ?_, h.operand, h.params⟩
  · rw [idealPort, afterTransaction_port, Port.advance_ideal h.port.1 h.port.2]
    exact h.port
  · rw [afterTransaction_cs, h.reply, effect_write_ok, h.seenCs]

end Stands

/-! ### The standard walk in one go (R160, R190) -/

/-- Inside the walk at `site`, over the bytes `m`, the command takes the steps of `findStd`. -/
def Walks (i : Instr) (site : Site) (id : Byte) (found : State → State) (s : State) (m : Memory) : Prop :=
  ∀ (u : State) (w : WalkPoint), Stands s m u → u.seq = .run (.walk site w) →
    exec i u = .next (findStd id (.walk site) found w u)

/-- Where a walk ends: at `found` with its offset in CUR, or before NOT_FOUND. -/
inductive WalkEnd (s : State) (m : Memory) (found : State → State) : Option Nat → State → Prop where
  | found {u : State} {c : Nat} (h : Stands s m u) (hc : u.cur = c) : WalkEnd s m found (some c) (found u)
  | absent {u : State} (h : Stands s m u) : WalkEnd s m found none (goto (.complete .finishNotFound) u)

section Walk

variable {i : Instr} {site : Site} {id : Byte} {found : State → State} {s : State} {m : Memory}

/-- The loop of R160, from its head with `n` iterations left at the offset `c`. -/
theorem walk_from_head (hW : Walks i site id found s m) {n c : Nat} {v : State} (h : Stands s m v) (hc : v.cur = c)
    (ht : 0x40 ≤ c → v.trip = n - 1) :
    ∃ t, Reaches i (goto (if n = 0 ∨ c < 0x40 then .complete .finishNotFound else .walk site .entry) v) t ∧
      WalkEnd s m found (stdWalkFrom m id n c) t := by
  induction n generalizing v c with
  | zero => exact ⟨_, .refl _ _, .absent h⟩
  | succ n ih =>
    rw [stdWalkFrom]
    by_cases hlo : c < 0x40
    · rw [if_pos (.inr hlo), if_pos hlo]
      exact ⟨_, .refl _ _, .absent h⟩
    · rw [if_neg (by omega), if_neg hlo]
      have htrip : v.trip = n := ht (by omega)
      have hgoto := h.goto (.walk site .entry)
      have hafter := hgoto.afterRead (c &&& 0xFC) 2
      have he := hW _ .entry hgoto rfl
      rw [findStd_entry_ok hgoto.reply, hgoto.seenCs, goto_cur, goto_trip, hc, htrip] at he
      by_cases hff : entryId (Memory.readLE m (c &&& 0xFC) 2) = 0xFF#8
      · rw [if_pos hff] at he
        simp only [hff, if_true]
        exact ⟨_, .step he, .absent hafter⟩
      · by_cases hid : entryId (Memory.readLE m (c &&& 0xFC) 2) = id
        · rw [if_neg hff, if_pos hid] at he
          simp only [hid, if_true, if_neg (hid ▸ hff)]
          exact ⟨_, .step he, .found hafter hc⟩
        · rw [if_neg hff, if_neg hid] at he
          simp only [hff, hid, if_false]
          obtain ⟨t, hrun, hend⟩ := ih (c := entryNext (Memory.readLE m (c &&& 0xFC) 2))
            (v := { afterTransaction (.read (c &&& 0xFC) 2) (goto (.walk site .entry) v) with
              cur := entryNext (Memory.readLE m (c &&& 0xFC) 2), trip := n - 1 })
            ⟨hafter.port, hafter.bytes, hafter.operand, hafter.params⟩ rfl fun _ => rfl
          exact ⟨t, .head he hrun, hend⟩

/-- The walk from the read of its pointer. -/
theorem walk_from_pointer (hW : Walks i site id found s m) {pp : Nat} {u : State} (h : Stands s m u)
    (hq : u.seq = .run (.walk site (.pointer pp))) :
    ∃ t, Reaches i u t ∧
      WalkEnd s m found (stdWalkFrom m id s.params.stdTripLimit (Memory.readLE m pp 1).toNat) t := by
  have he := hW u _ h hq
  have hafter := h.afterRead pp 1
  rw [findStd_pointer_ok h.reply, h.seenCs, h.params] at he
  obtain ⟨t, hrun, hend⟩ := walk_from_head hW (n := s.params.stdTripLimit) (c := (Memory.readLE m pp 1).toNat)
    (v := { afterTransaction (.read pp 1) u with
      cur := (Memory.readLE m pp 1).toNat
      trip := if (Memory.readLE m pp 1).toNat = 0 then u.trip else s.params.stdTripLimit - 1 })
    ⟨hafter.port, hafter.bytes, hafter.operand, hafter.params⟩ rfl fun hlo => if_neg (by omega)
  exact ⟨t, .head he hrun, hend⟩

/-- `FindStd(id)` of R160 from its first read: the port answers that read over the bytes `m` and is ideal after it. -/
theorem walk_from_status (hW : Walks i site id found s m) {u : State}
    (he : exec i u = .next (findStd id (.walk site) found .status u)) (hr : u.port.event.reply = .ok)
    (hm : u.seenCs = m) (h : Stands s m (afterTransaction (.read 0x06 2) u)) :
    ∃ t, Reaches i u t ∧ WalkEnd s m found (stdWalk m s.params.stdTripLimit id) t := by
  rw [findStd_status_ok hr, hm] at he
  rw [stdWalk]
  by_cases hcap : capabilitiesList (Memory.readLE m 0x06 2) = true
  · rw [if_pos hcap] at he ⊢
    have hheader := h.goto (.walk site .header)
    have hafter := hheader.afterRead 0x0E 1
    have he₁ := hW _ .header hheader rfl
    rw [findStd_header_ok hheader.reply, hheader.seenCs] at he₁
    cases hpp : pointerOffset (headerType (Memory.readLE m 0x0E 1)) with
    | none =>
      rw [hpp] at he₁
      exact ⟨_, .head he (.step he₁), .absent hafter⟩
    | some pp =>
      rw [hpp] at he₁
      obtain ⟨t, hrun, hend⟩ := walk_from_pointer hW (hafter.goto (.walk site (.pointer pp))) rfl
      exact ⟨t, .head he (.head he₁ hrun), hend⟩
  · rw [if_neg hcap] at he ⊢
    exact ⟨_, .step he, .absent h⟩

end Walk

/-! ### LINK_SET_TARGET_SPEED (R196) -/

/-- The two bytes of a register fit 16 bits. -/
theorem exists_half_readLE (m : Memory) (off : Nat) : ∃ x : Half, Memory.readLE m off 2 = x.setWidth 32 := by
  have hlt := Memory.readLE_lt m off 2 (by omega)
  refine ⟨(Memory.readLE m off 2).setWidth 16, BitVec.eq_of_toNat_eq ?_⟩
  simp only [BitVec.toNat_setWidth]
  omega

/-- The value written to Link Control 2: the register as read, with the code in bits [3:0]. -/
theorem speedValue_readLE (m : Memory) (off : Nat) (code : BitVec 4) :
    (speedValue (Memory.readLE m off 2) code).setWidth 32 =
      (Memory.readLE m off 2 &&& 0xFFFFFFF0#32) ||| code.setWidth 32 := by
  obtain ⟨x, hx⟩ := exists_half_readLE m off
  rw [hx]
  ext j hj
  simp only [speedValue]
  interval_cases j <;> simp

/-- The value that sets Retrain Link in Link Control as read. -/
theorem retrainValue_readLE (m : Memory) (off : Nat) :
    ((Memory.readLE m off 2).setWidth 16 ||| maskRL).setWidth 32 = Memory.readLE m off 2 ||| 0x00000020#32 := by
  obtain ⟨x, hx⟩ := exists_half_readLE m off
  rw [hx]
  simp [maskRL, BitVec.setWidth_or]

section SetTargetSpeed

variable {k : SpeedKind} {f : Bool} {code : BitVec 4} {u : State} (hn : normSpeed k u.lOpa = some code)
include hn

theorem exec_setTargetSpeed_start (hq : u.seq = .run .start) :
    exec (.linkSetTargetSpeed k f) u = .next (findPcie .main .version .status u) := by
  simp [exec, execLinkSetTargetSpeed, atPoint, hq, hn]

theorem exec_setTargetSpeed_walk {w : WalkPoint} (hq : u.seq = .run (.walk .main w)) :
    exec (.linkSetTargetSpeed k f) u = .next (findPcie .main .version w u) := by
  simp [exec, execLinkSetTargetSpeed, atPoint, hq, hn]

theorem exec_setTargetSpeed_version (hq : u.seq = .run .version) :
    exec (.linkSetTargetSpeed k f) u = .next (cfgReadThen u.capOff 2 u fun cap t =>
      if capVersion cap < 2#4 then raiseNext .unsupportedOperation t else goto .speedRead t) := by
  simp [exec, execLinkSetTargetSpeed, atPoint, hq, hn]

theorem exec_setTargetSpeed_speedRead (hq : u.seq = .run .speedRead) :
    exec (.linkSetTargetSpeed k f) u = .next (rmwReadThen u.lc2Off .speedWrite u) := by
  simp [exec, execLinkSetTargetSpeed, atPoint, hq, hn]

theorem exec_setTargetSpeed_speedWrite (hq : u.seq = .run .speedWrite) :
    exec (.linkSetTargetSpeed k f) u =
      .next (cfgWriteThen u.lc2Off 2 ((speedValue u.v code).setWidth 32) u fun t =>
        if f then goto (.walk .retrain .status) t else finishNext 0#64 0#64 t) := by
  simp [exec, execLinkSetTargetSpeed, atPoint, hq, hn]

theorem exec_setTargetSpeed_retrain {w : WalkPoint} (hq : u.seq = .run (.walk .retrain w)) :
    exec (.linkSetTargetSpeed k true) u = .next (findPcie .retrain .rmwRead w u) := by
  simp [exec, execLinkSetTargetSpeed, atPoint, hq, hn]

theorem exec_setTargetSpeed_rmwRead (hq : u.seq = .run .rmwRead) :
    exec (.linkSetTargetSpeed k true) u = .next (rmwReadThen u.lcOff .rmwWrite u) := by
  simp [exec, execLinkSetTargetSpeed, atPoint, hq, hn]

theorem exec_setTargetSpeed_rmwWrite (hq : u.seq = .run .rmwWrite) :
    exec (.linkSetTargetSpeed k true) u = .next (rmwWriteThen u.lcOff maskRL 0#16 u (finishNext 0#64 0#64)) := by
  simp [exec, execLinkSetTargetSpeed, atPoint, hq, hn]

end SetTargetSpeed

theorem Stands.setV {s u : State} {m : Memory} (h : Stands s m u) (x : Word) : Stands s m { u with v := x } :=
  ⟨h.port, h.bytes, h.operand, h.params⟩

theorem Stands.setBase {s u : State} {m : Memory} (h : Stands s m u) (b : Nat) : Stands s m { u with base := b } :=
  ⟨h.port, h.bytes, h.operand, h.params⟩

/-- Where `FindPcie` finds the capability, BASE is its offset (R190). -/
theorem WalkEnd.pcie {s t : State} {m : Memory} {after : Point} {c : Nat}
    (h : WalkEnd s m (fun t => goto after { t with base := t.cur }) (some c) t) :
    Stands s m t ∧ t.seq = .run after ∧ t.base = c := by
  cases h with
  | found h hc => exact ⟨(h.setBase _).goto _, rfl, hc⟩

section SetTargetSpeedRun

variable {k : SpeedKind} {f : Bool} {code : BitVec 4} {s u : State} {m : Memory} {b : Nat}
  (hn : normSpeed k s.lOpa = some code)
include hn

theorem walks_setTargetSpeed_main :
    Walks (.linkSetTargetSpeed k f) .main s.params.pcieCapId (fun t => goto .version { t with base := t.cur }) s m := by
  intro u w h hq
  rw [exec_setTargetSpeed_walk (h.operand ▸ hn) hq, findPcie, h.params]

theorem walks_setTargetSpeed_retrain :
    Walks (.linkSetTargetSpeed k true) .retrain s.params.pcieCapId (fun t => goto .rmwRead { t with base := t.cur }) s
      m := by
  intro u w h hq
  rw [exec_setTargetSpeed_retrain (h.operand ▸ hn) hq, findPcie, h.params]

/-- The first walk comes to the version check, with BASE at the capability. -/
theorem setTargetSpeed_finds (hq : s.seq = .run .start) (hp : idealPort s)
    (hw : stdWalk s.cs s.params.stdTripLimit s.params.pcieCapId = some b) :
    ∃ u, Reaches (.linkSetTargetSpeed k f) s u ∧ Stands s s.cs u ∧ u.seq = .run .version ∧ u.base = b := by
  have hs : Stands s s.cs s := ⟨hp, rfl, rfl, rfl⟩
  obtain ⟨t, hrun, hend⟩ := walk_from_status (walks_setTargetSpeed_main (f := f) hn) (exec_setTargetSpeed_start hn hq)
    hs.reply hs.seenCs (hs.afterRead 0x06 2)
  rw [hw] at hend
  exact ⟨t, hrun, hend.pcie⟩

/-- From the version check the command reads Link Control 2 and writes it with the code. -/
theorem setTargetSpeed_writes (h : Stands s m u) (hq : u.seq = .run .version) (hb : u.base = b) (heven : b % 2 = 0)
    (hver : 2#4 ≤ (Memory.readLE m (b + 2) 2).extractLsb' 0 4) :
    ∃ t, Reaches (.linkSetTargetSpeed k f) u t ∧
      Stands s (Memory.writeLE m (b + 0x30) 2
        ((Memory.readLE m (b + 0x30) 2 &&& 0xFFFFFFF0#32) ||| code.setWidth 32)) t ∧
      t.seq = .run (if f then .walk .retrain .status else .complete (.finishOk 0#64 0#64)) := by
  subst hb
  have he₁ := exec_setTargetSpeed_version (f := f) (h.operand ▸ hn) hq
  have hnew : ¬ capVersion (Memory.readLE m (u.base + 2) 2) < 2#4 := BitVec.not_lt.mpr hver
  rw [State.capOff, cfgReadThen_ok (by simp [aligned]; omega) h.reply, h.seenCs, if_neg hnew] at he₁
  have h₁ := (h.afterRead (u.base + 2) 2).goto .speedRead
  have he₂ := exec_setTargetSpeed_speedRead (f := f) (h₁.operand ▸ hn) rfl
  rw [rmwReadThen_ok h₁.reply (by simp [State.lc2Off]; omega), h₁.seenCs] at he₂
  have h₂ := ((h₁.afterRead (u.base + 0x30) 2).setV (Memory.readLE m (u.base + 0x30) 2)).goto .speedWrite
  have he₃ := exec_setTargetSpeed_speedWrite (f := f) (h₂.operand ▸ hn) rfl
  rw [cfgWriteThen_ok (by simp [State.lc2Off, aligned]; omega) h₂.reply] at he₃
  have h₃ := h₂.afterWrite (u.base + 0x30) 2
    ((Memory.readLE m (u.base + 0x30) 2 &&& 0xFFFFFFF0#32) ||| code.setWidth 32)
  rw [← speedValue_readLE] at h₃ ⊢
  have hrun := fun {t} => Reaches.head he₁ ∘ Reaches.head he₂ ∘ Reaches.head (t := t) he₃
  cases f with
  | true => exact ⟨_, hrun (.refl _ _), h₃.goto _, rfl⟩
  | false => exact ⟨_, hrun (.refl _ _), h₃.goto _, rfl⟩

/-- The nested retrain reads Link Control and writes it with Retrain Link set. -/
theorem setTargetSpeed_retrains (h : Stands s m u) (hq : u.seq = .run .rmwRead) (hb : u.base = b) (heven : b % 2 = 0) :
    ∃ t, Reaches (.linkSetTargetSpeed k true) u t ∧
      Stands s (Memory.writeLE m (b + 0x10) 2 (Memory.readLE m (b + 0x10) 2 ||| 0x00000020#32)) t ∧
      t.seq = .run (.complete (.finishOk 0#64 0#64)) := by
  subst hb
  have he₁ := exec_setTargetSpeed_rmwRead (h.operand ▸ hn) hq
  rw [rmwReadThen_ok h.reply (by simp [State.lcOff]; omega), h.seenCs] at he₁
  have h₁ := ((h.afterRead (u.base + 0x10) 2).setV (Memory.readLE m (u.base + 0x10) 2)).goto .rmwWrite
  have he₂ := exec_setTargetSpeed_rmwWrite (h₁.operand ▸ hn) rfl
  rw [rmwWriteThen_ok h₁.reply (by simp [State.lcOff]; omega), rmwValue_set] at he₂
  have h₂ := h₁.afterWrite (u.base + 0x10) 2 (Memory.readLE m (u.base + 0x10) 2 ||| 0x00000020#32)
  rw [← retrainValue_readLE] at h₂ ⊢
  exact ⟨_, .head he₁ (.step he₂), h₂.goto _, rfl⟩

/-- At an odd offset the nested retrain's read of Link Control raises ALIGNMENT_VIOLATION at once (R65). -/
theorem setTargetSpeed_misaligned (h : Stands s m u) (hq : u.seq = .run .rmwRead) (hb : u.base = b)
    (hodd : b % 2 = 1) :
    exec (.linkSetTargetSpeed k true) u = .next (complete (.raised (.alignmentViolation (b + 0x10))) u) := by
  subst hb
  rw [exec_setTargetSpeed_rmwRead (h.operand ▸ hn) hq, rmwReadThen,
    cfgReadThen_misaligned (by simp [State.lcOff, aligned]; omega)]
  rfl

end SetTargetSpeedRun

/-- The runs of the first half of O42, on the ideal port: Link Control 2 is written, and with retrain the second walk goes
over the bytes that write left. -/
theorem setTargetSpeed_runs_ideal {k : SpeedKind} {code : BitVec 4} {s : State} {b : Nat} {m : Memory}
    (hn : normSpeed k s.lOpa = some code) (hq : s.seq = .run .start) (hp : idealPort s) (hwf : Memory.wf s.cs = true)
    (hw : stdWalk s.cs s.params.stdTripLimit s.params.pcieCapId = some b) (heven : b % 2 = 0)
    (hver : 2#4 ≤ (Memory.readLE s.cs (b + 2) 2).extractLsb' 0 4)
    (hm : m = Memory.writeLE s.cs (b + 0x30) 2
      ((Memory.readLE s.cs (b + 0x30) 2 &&& 0xFFFFFFF0#32) ||| code.setWidth 32)) :
    (∃ n t, runExec (.linkSetTargetSpeed k false) n s = .next t ∧ Completed s t 0#4 0#2 0#64 0#64 0 ∧ t.cs = m) ∧
    (∀ c, stdWalk m s.params.stdTripLimit s.params.pcieCapId = some c →
      (c % 2 = 0 → ∃ n t, runExec (.linkSetTargetSpeed k true) n s = .next t ∧ Completed s t 0#4 0#2 0#64 0#64 0 ∧
        Memory.readLE t.cs (c + 0x10) 2 = Memory.readLE m (c + 0x10) 2 ||| 0x00000020#32 ∧
        ∀ a, a < c + 0x10 ∨ c + 0x12 ≤ a → Memory.read t.cs a = Memory.read m a) ∧
      (c % 2 = 1 → ∃ n t, runExec (.linkSetTargetSpeed k true) n s = .next t ∧
        Completed s t 2#4 0#2 0#64 0#64 (c + 0x10) ∧ t.cs = m)) := by
  have hwrites : ∀ f, ∃ t, Reaches (.linkSetTargetSpeed k f) s t ∧ Stands s m t ∧
      t.seq = .run (if f then .walk .retrain .status else .complete (.finishOk 0#64 0#64)) := fun f => by
    obtain ⟨u, hfind, hu, huq, hub⟩ := setTargetSpeed_finds (f := f) hn hq hp hw
    obtain ⟨t, hwrite, ht, htq⟩ := setTargetSpeed_writes (f := f) hn hu huq hub heven hver
    exact ⟨t, hfind.trans hwrite, hm ▸ ht, htq⟩
  refine ⟨?_, fun c hc => ?_⟩
  · obtain ⟨u, hrun, hu, huq⟩ := hwrites false
    obtain ⟨n, t, hr, hdone, hcs, -⟩ := hrun.completes (exec_complete huq)
    exact ⟨n, t, hr, hdone, hcs.trans hu.bytes⟩
  · obtain ⟨u, hrun, hu, huq⟩ := hwrites true
    obtain ⟨v, hwalk, hend⟩ := walk_from_status (walks_setTargetSpeed_retrain hn)
      (by rw [exec_setTargetSpeed_retrain (hu.operand ▸ hn) huq, findPcie, hu.params]) hu.reply hu.seenCs
      (hu.afterRead 0x06 2)
    rw [hc] at hend
    obtain ⟨hv, hvq, hvb⟩ := hend.pcie
    refine ⟨fun hce => ?_, fun hco => ?_⟩
    · obtain ⟨w, hset, hw, hwq⟩ := setTargetSpeed_retrains hn hv hvq hvb hce
      obtain ⟨n, t, hr, hdone, hcs, -⟩ := ((hrun.trans hwalk).trans hset).completes (exec_complete hwq)
      rw [hw.bytes] at hcs
      refine ⟨n, t, hr, hdone, ?_, fun a ha => ?_⟩
      · rw [hcs, ← retrainValue_readLE]
        exact readLE_writeLE_half (hm ▸ Memory.wf_writeLE _ _ _ hwf) _ _
      · rw [hcs, Memory.read_writeLE_outside _ _ _ _ ha]
    · obtain ⟨n, t, hr, hdone, hcs, -⟩ :=
        (hrun.trans hwalk).completes (setTargetSpeed_misaligned hn hv hvq hvb hco)
      exact ⟨n, t, hr, hdone, hcs.trans hv.bytes⟩

/-- Settles O42: the ideal runs, and the run whose second walk finds nothing after changes by other agents. -/
theorem setTargetSpeedRuns : Obligations.SetTargetSpeedRuns := by
  refine ⟨fun k code s b m hn hq hp hwf hw heven hver hm =>
    setTargetSpeed_runs_ideal hn hq hp hwf hw heven hver hm, ?_⟩
  intro k code s first second v m hn hq heven hscript htail hfirst hsecond hv hm hnone
  have hr : s.port.event.reply = .ok := by simp [Port.event, hscript, hfirst]
  have hwrite := exec_setTargetSpeed_speedWrite (f := true) hn hq
  rw [cfgWriteThen_ok (by simp [State.lc2Off, aligned]; omega) hr, if_pos rfl,
    show (speedValue s.v code).setWidth 32 = v from hv.symm] at hwrite
  generalize hu : goto (.walk .retrain .status) (afterTransaction (.write s.lc2Off 2 v) s) = u at hwrite
  have hport : u.port = { s.port with script := [second] } := by
    rw [← hu]
    simp [Port.advance, hscript]
  have hcs : u.cs = Memory.writeLE (Memory.apply s.cs first.others) (s.base + 0x30) 2 v := by
    rw [← hu, goto_cs, afterTransaction_cs, hr, effect_write_ok, State.seenCs, Port.event, hscript]
    rfl
  have hlog : .transaction (.write (s.base + 0x30) 2 v) (.ok v) ∈ u.log := by
    rw [← hu, afterTransaction_write_ok hr]
    exact List.mem_cons_self
  have hreply : u.port.event.reply = .ok := by simp [Port.event, hport, hsecond]
  have hseen : u.seenCs = m := by rw [State.seenCs, hcs, hport, hm]; rfl
  have hstands : Stands s m (afterTransaction (.read 0x06 2) u) := by
    refine ⟨?_, by rw [afterTransaction_cs, effect_read, hseen], by rw [← hu]; rfl, by rw [← hu]; rfl⟩
    rw [idealPort, afterTransaction_port, hport]
    exact ⟨rfl, htail⟩
  obtain ⟨w, hwalk, hend⟩ := walk_from_status (walks_setTargetSpeed_retrain hn)
    (by rw [exec_setTargetSpeed_retrain (by rw [← hu]; exact hn) (by rw [← hu]; rfl), findPcie]; rw [← hu]; rfl) hreply
    hseen hstands
  rw [hnone] at hend
  cases hend with
  | absent h =>
    have hrun := Reaches.head hwrite hwalk
    obtain ⟨n, t, hr, hdone, hcs, hl⟩ := hrun.completes (exec_complete rfl)
    refine ⟨n, t, hr, hdone, hcs.trans h.bytes, ?_⟩
    rw [hl]
    exact List.mem_cons_of_mem _ (hwalk.log_mem hlog)

end Sys2Proof.Machine
end

section
/-! PROOFS. 20_memory.md: the bytes of a multi-byte access (R63), what a step of a command does to the configuration space
(R70, R75), and the commands that issue no write (R71, R202). -/

namespace Sys2Proof.Machine

/-! ### Multi-byte accesses (R63) -/

/-- A little-endian read is the sum of its bytes times powers of 256 (R63). -/
theorem Memory.toNat_readLE (m : Memory) (off n : Nat) (hn : n ≤ 4) :
    (Memory.readLE m off n).toNat = ∑ j ∈ Finset.range n, (Memory.read m (off + j)).toNat * 2 ^ (8 * j) := by
  induction n generalizing off with
  | zero => rfl
  | succ n ih =>
    have hlow : (Memory.read m off).toNat < 2 ^ 8 := (Memory.read m off).isLt
    have hhigh : 2 ^ 8 * (Memory.readLE m (off + 1) n).toNat < 2 ^ 32 := by
      have hlt := Memory.readLE_lt m (off + 1) n (by omega)
      have hle : 2 ^ (8 * n) ≤ 2 ^ 24 := Nat.pow_le_pow_right (by omega) (by omega)
      omega
    calc (Memory.readLE m off (n + 1)).toNat
        = 2 ^ 8 * (Memory.readLE m (off + 1) n).toNat + (Memory.read m off).toNat := by
          rw [Nat.two_pow_add_eq_or_of_lt hlow, Nat.or_comm, Memory.readLE, BitVec.toNat_or, BitVec.toNat_setWidth,
            BitVec.toNat_shiftLeft, Nat.shiftLeft_eq, Nat.mul_comm _ (2 ^ 8), Nat.mod_eq_of_lt hhigh,
            Nat.mod_eq_of_lt (by omega)]
      _ = ∑ j ∈ Finset.range (n + 1), (Memory.read m (off + j)).toNat * 2 ^ (8 * j) := by
          rw [ih (off + 1) (by omega), Finset.sum_range_succ', Finset.mul_sum]
          congr 1
          · refine Finset.sum_congr rfl fun j _ => ?_
            rw [Nat.add_assoc, Nat.add_comm 1 j, Nat.mul_succ, Nat.pow_add]
            ring
          · simp

/-- Byte `j` of a little-endian store holds bits `[8j+7:8j]` of the value (R63). -/
theorem Memory.read_writeLE_inside {m : Memory} (hm : Memory.wf m = true) (off n : Nat) (v : Word) {j : Nat} (hj : j < n) :
    Memory.read (Memory.writeLE m off n v) (off + j) = v.extractLsb' (8 * j) 8 := by
  induction n generalizing m off v j with
  | zero => omega
  | succ n ih =>
    rw [Memory.writeLE]
    cases j with
    | zero =>
      rw [Memory.read_writeLE_outside _ _ _ _ (by omega)]
      refine (Memory.read_write_same hm _ _).trans ?_
      ext k hk
      simp
    | succ j =>
      rw [show off + (j + 1) = off + 1 + j by omega, ih (Memory.wf_write _ _ hm) _ _ (by omega)]
      ext k hk
      simp [show 8 + (8 * j + k) = 8 * (j + 1) + k by omega]

/-- A value that fits its bytes reads back as it was stored (R63). -/
theorem Memory.readLE_writeLE_of_lt {m : Memory} (hm : Memory.wf m = true) (off n : Nat) {v : Word} (hn : n ≤ 4)
    (hv : v.toNat < 2 ^ (8 * n)) : Memory.readLE (Memory.writeLE m off n v) off n = v := by
  rw [Memory.readLE_writeLE hm off n v hn]
  refine BitVec.eq_of_toNat_eq ?_
  rw [BitVec.toNat_setWidth, BitVec.toNat_setWidth, Nat.mod_eq_of_lt hv, Nat.mod_eq_of_lt v.isLt]

/-- Settles O16. -/
theorem littleEndian : Obligations.LittleEndian := by
  intro m off n hn
  refine ⟨Memory.toNat_readLE m off n (by omega), fun v hv hm => ⟨fun j hj => ?_, fun a ha => ?_, ?_⟩⟩
  · exact Memory.read_writeLE_inside hm off n v hj
  · exact Memory.read_writeLE_outside m off n v ha
  · exact Memory.readLE_writeLE_of_lt hm off n (by omega) hv

/-! ### The configuration space after a step (R70, R75) -/

theorem Transacted.cs_eq {tr : Transaction} {s t : State} (h : Transacted tr s t) :
    t.cs = tr.effect s.port.event.reply s.seenCs := by
  obtain ⟨q, cur, trip, base, v, rfl⟩ := h
  rfl

/-- A turn of a sleep changes no byte (R83). -/
theorem sleepTurn_cs (wake : Nat) (p : Point) (s : State) : (sleepTurn wake p s).cs = s.cs := by
  obtain ⟨now, q, l, -, e⟩ := sleepTurn_frame wake p s
  rw [e]

/-- A step of a command leaves the configuration space alone and records no transaction, or is one transaction of the
port (R11, R62). -/
theorem exec_quiet_or_transacted {i : Instr} {s t : State} (h : exec i s = .next t) :
    (t.cs = s.cs ∧ ∀ tr a, t.log ≠ .transaction tr a :: s.log) ∨ ∃ tr, Transacted tr s t := by
  cases exec_shape h with
  | completes c cur trip e => exact .inl (by simp [e])
  | transacts tr ht _ _ _ => exact .inr ⟨tr, ht⟩
  | samples q d e => exact .inl (by simp [e])
  | sleeps wake p _ e =>
    subst e
    refine .inl ⟨sleepTurn_cs wake p s, fun tr a hl => ?_⟩
    rcases sleepTurn_log_eq wake p s with e | ⟨now, e⟩ <;> simp [e] at hl

/-- A transaction a step records is the one it issued. -/
theorem exec_transacted_of_log {i : Instr} {s t : State} {tr : Transaction} {a : Answer} (h : exec i s = .next t)
    (hl : t.log = .transaction tr a :: s.log) : Transacted tr s t := by
  rcases exec_quiet_or_transacted h with ⟨-, hq⟩ | ⟨tr', ht⟩
  · exact absurd hl (hq tr a)
  · rcases ht.log_eq with e | e
    · simp [e] at hl
    · have htr : tr' = tr ∧ answerTo tr' s = a := by simpa [e] using hl
      exact htr.1 ▸ ht

/-- Settles O19. -/
theorem failedWriteLeavesAnyValue : Obligations.FailedWriteLeavesAnyValue := by
  refine ⟨fun i s t off n v kind h hl a ha => ?_, fun s off v kind left hwf hr j hj => ?_⟩
  · rw [(exec_transacted_of_log h hl).cs_eq]
    exact Transaction.read_effect_outside _ _ _ ha
  · rw [afterTransaction_cs, hr]
    exact Memory.read_leave_inside (seenCs_wf hwf) off left.length left hj hj

/-- What one transaction does to the configuration space: a read or an unanswered write leaves it as the port found it, an
answered write changes its own range only (R63, R70, R75). -/
theorem Transacted.memory {tr : Transaction} {s t : State} (h : Transacted tr s t) :
    t.cs = s.seenCs ∨
      ∃ off n v ans, t.log = .transaction (.write off n v) ans :: s.log ∧
        ∀ a, a < off ∨ off + n ≤ a → Memory.read t.cs a = Memory.read s.seenCs a := by
  have hcs := h.cs_eq
  cases tr with
  | read off n => exact .inl (by rw [hcs, effect_read])
  | write off n v =>
    by_cases hr : s.port.event.reply = .silent
    · exact .inl (by rw [hcs, hr]; rfl)
    · refine .inr ⟨off, n, v, answerTo (.write off n v) s, ?_, fun a ha => ?_⟩
      · obtain ⟨q, cur, trip, base, x, rfl⟩ := h
        exact (afterTransaction_answered hr).2
      · rw [hcs]
        exact Transaction.read_effect_outside _ _ _ ha

/-- Settles O22. -/
theorem memoryFrame : Obligations.MemoryFrame := by
  intro i s t h
  rcases exec_quiet_or_transacted h with ⟨hcs, -⟩ | ⟨tr, ht⟩
  · exact .inl hcs
  · exact .inr ht.memory

/-! ### Steps that issue no write (R71, R202) -/

/-- The step from `s` to `t` records no write, and changes no byte but as other agents did before a read. -/
def IssuesNoWrite (s t : State) : Prop :=
  (∀ off n v a, t.log ≠ .transaction (.write off n v) a :: s.log) ∧ (t.cs = s.cs ∨ t.cs = s.seenCs)

theorem Transacted.issuesNoWrite {off n : Nat} {s t : State} (h : Transacted (.read off n) s t) : IssuesNoWrite s t := by
  refine ⟨fun off' n' v a hl => ?_, .inr (by rw [h.cs_eq, effect_read])⟩
  rcases h.log_eq with e | e <;> simp [e] at hl

theorem complete_issuesNoWrite (c : Completion) (s : State) (cur trip : Nat) :
    IssuesNoWrite s (complete c { s with cur := cur, trip := trip }) :=
  ⟨by simp, .inl rfl⟩

theorem withTransaction_read_issuesNoWrite {off n : Nat} {s : State} {k : Word → State → State}
    (hk : ∀ v, Transacted (.read off n) s (k v (afterTransaction (.read off n) s))) :
    IssuesNoWrite s (withTransaction (.read off n) s k) := by
  rcases withTransaction_cases (.read off n) s k with ⟨v, -, -, e⟩ | ⟨kind, left, -, e⟩ | ⟨-, e⟩ <;> rw [e]
  · exact (hk v).issuesNoWrite
  · exact ((Transacted.refl _ s).goto _).issuesNoWrite
  · exact (Transacted.refl _ s).issuesNoWrite

theorem checked_issuesNoWrite {off n : Nat} {s go : State} (h : IssuesNoWrite s go) :
    IssuesNoWrite s (checked off n s go) := by
  unfold checked
  split
  · exact h
  · exact complete_issuesNoWrite _ s s.cur s.trip

theorem cfgReadThen_issuesNoWrite {off n : Nat} {s : State} {k : Word → State → State}
    (hk : ∀ v, Transacted (.read off n) s (k v (afterTransaction (.read off n) s))) :
    IssuesNoWrite s (cfgReadThen off n s k) :=
  checked_issuesNoWrite (withTransaction_read_issuesNoWrite hk)

theorem findStd_issuesNoWrite (id : Byte) (at_ : WalkPoint → Point) (found : State → State) (w : WalkPoint) (s : State)
    (hf : ∀ tr, Transacted tr s (found (afterTransaction tr s))) : IssuesNoWrite s (findStd id at_ found w s) := by
  cases w <;> refine cfgReadThen_issuesNoWrite fun v => ?_
  case status => split <;> exact (Transacted.refl _ s).goto _
  case header => split <;> exact (Transacted.refl _ s).goto _
  case pointer pp =>
    split
    · exact ((Transacted.refl _ s).cur 0).goto _
    · exact (((Transacted.refl _ s).cur _).trip _).stdHead _
  case entry =>
    split
    · exact (Transacted.refl _ s).goto _
    · split
      · exact hf _
      · exact ((Transacted.refl _ s).cur _).stdHead _

theorem findPcie_issuesNoWrite (site : Site) (after : Point) (w : WalkPoint) (s : State) :
    IssuesNoWrite s (findPcie site after w s) :=
  findStd_issuesNoWrite _ _ _ w s fun tr => ((Transacted.refl tr s).base _).goto after

theorem extRead_issuesNoWrite (size : Nat) (id : Half) (s : State) : IssuesNoWrite s (extRead size id s) := by
  rcases extRead_forms size id s with e | ⟨ht, -⟩
  · rw [e]; exact complete_issuesNoWrite _ s s.cur s.trip
  · exact ht.issuesNoWrite

theorem extStart_issuesNoWrite (size : Nat) (id : Half) (s : State) : IssuesNoWrite s (extStart size id s) := by
  rcases extStart_cases size id s with ⟨c, n, e⟩ | ⟨n, -, -, e⟩ <;> rw [e]
  · exact complete_issuesNoWrite _ s c n
  · exact extRead_issuesNoWrite size id (goto .extEntry { s with cur := 256, trip := n })

theorem withSample_issuesNoWrite {s : State} {k : Nat → State → State}
    (hk : ∀ now t, (k now t).cs = t.cs ∧ (k now t).log = t.log) : IssuesNoWrite s (withSample s k) :=
  ⟨fun _ _ _ _ hl => by simp [withSample, (hk _ _).2] at hl, .inl (hk _ _).1⟩

/-- A completion or a turn of a sleep issues no write, whatever the command. -/
theorem atPoint_issuesNoWrite {s t : State} {f : Point → Host.Outcome State Fault Refusal} (h : atPoint s f = .next t)
    (hf : ∀ p, f p = .next t → IssuesNoWrite s t) : IssuesNoWrite s t := by
  unfold atPoint at h
  split at h
  · cases h
  · next wake p _ =>
    cases h
    refine ⟨fun off n v a hl => ?_, .inl (sleepTurn_cs wake p s)⟩
    rcases sleepTurn_log_eq wake p s with e | ⟨now, e⟩ <;> simp [e] at hl
  · next c _ => cases h; exact complete_issuesNoWrite c s s.cur s.trip
  · next p _ _ => exact hf p h

theorem execCfgRead_issuesNoWrite {n : Width} {off : Half} {s t : State} (h : execCfgRead n off s = .next t) :
    IssuesNoWrite s t := by
  refine atPoint_issuesNoWrite h fun p hp => ?_
  split at hp <;> cases hp
  · exact checked_issuesNoWrite (withTransaction_read_issuesNoWrite fun v => (Transacted.refl _ s).goto _)
  · exact cfgReadThen_issuesNoWrite fun v => (Transacted.refl _ s).goto _
  · exact withTransaction_read_issuesNoWrite fun v => (Transacted.refl _ s).goto _

theorem execFindStdCap_issuesNoWrite {imm : Half} {s t : State} (h : execFindStdCap imm s = .next t) :
    IssuesNoWrite s t := by
  refine atPoint_issuesNoWrite h fun p hp => ?_
  split at hp <;> cases hp <;> exact findStd_issuesNoWrite _ _ _ _ s fun tr => (Transacted.refl tr s).goto _

theorem execFindExtCap_issuesNoWrite {imm : Half} {s t : State} (h : execFindExtCap imm s = .next t) :
    IssuesNoWrite s t := by
  refine atPoint_issuesNoWrite h fun p hp => ?_
  split at hp <;> cases hp
  · exact extStart_issuesNoWrite ..
  · exact extRead_issuesNoWrite ..

theorem execLinkReadStatus_issuesNoWrite {s t : State} (h : execLinkReadStatus s = .next t) : IssuesNoWrite s t := by
  refine atPoint_issuesNoWrite h fun p hp => ?_
  split at hp <;> cases hp
  · exact findPcie_issuesNoWrite ..
  · exact findPcie_issuesNoWrite ..
  · exact cfgReadThen_issuesNoWrite fun v => (Transacted.refl _ s).goto _

theorem execLinkWaitForTraining_issuesNoWrite {s t : State} (h : execLinkWaitForTraining s = .next t) :
    IssuesNoWrite s t := by
  refine atPoint_issuesNoWrite h fun p hp => ?_
  split at hp <;> cases hp
  · exact withSample_issuesNoWrite fun now t => ⟨rfl, rfl⟩
  · exact findPcie_issuesNoWrite ..
  · refine cfgReadThen_issuesNoWrite fun v => ?_
    split <;> exact ((Transacted.refl _ s).v v).goto _
  · refine withSample_issuesNoWrite fun now t => ?_
    split
    · exact ⟨rfl, rfl⟩
    · rw [sleepNext_eq]
      exact ⟨rfl, rfl⟩
  · exact withSample_issuesNoWrite fun now t => ⟨rfl, rfl⟩

/-- Settles O23, command by command: each step is a completion, a read, a sample or a turn of a sleep. -/
theorem readingCommandsNeverWrite : Obligations.ReadingCommandsNeverWrite := by
  rintro i s t (⟨n, off, rfl⟩ | ⟨imm, rfl⟩ | ⟨imm, rfl⟩ | rfl | rfl) h
  · exact execCfgRead_issuesNoWrite h
  · exact execFindStdCap_issuesNoWrite h
  · exact execFindExtCap_issuesNoWrite h
  · exact execLinkReadStatus_issuesNoWrite h
  · exact execLinkWaitForTraining_issuesNoWrite h

end Sys2Proof.Machine
end

section
/-! PROOFS. 20_memory.md: the checked accesses of CFG_READ and CFG_WRITE (R65 to R68), step 1 of the Link Control
read-modify-writes (R82), and the samples of NOW and the Sleeps (R83). -/

namespace Sys2Proof.Machine

/-! ### CFG_READ and CFG_WRITE (R65, R67, R68) -/

section CfgAccess

variable {n : Width} {off : Half} {s : State}

theorem exec_cfgRead_start (hq : s.seq = .run .start) (hn : n ≠ .w8) :
    exec (.cfgRead n off) s =
      .next (cfgReadThen off.toNat n.bytes s fun v t => finishNext (v.setWidth 64) 0#64 t) := by
  cases n with
  | w1 | w2 | w4 => simp only [exec, execCfgRead, atPoint, hq]
  | w8 => exact absurd rfl hn

theorem exec_cfgRead_start_low (hq : s.seq = .run .start) :
    exec (.cfgRead .w8 off) s =
      .next (checked off.toNat 8 s (withTransaction (.read off.toNat 4) s fun lo t => goto (.readHigh lo) t)) := by
  simp only [exec, execCfgRead, atPoint, hq]

theorem exec_cfgRead_readHigh {lo : Word} (hq : s.seq = .run (.readHigh lo)) :
    exec (.cfgRead .w8 off) s =
      .next (withTransaction (.read (off.toNat + 4) 4) s fun hi t => finishNext (hi ++ lo) 0#64 t) := by
  simp only [exec, execCfgRead, atPoint, hq]

theorem exec_cfgWrite_start (hq : s.seq = .run .start) :
    exec (.cfgWrite n off) s = .next (checked off.toNat n.bytes s
      (if valueFits n s.lOpa then
        withTransaction (.write off.toNat (min n.bytes 4) (s.lOpa.setWidth 32)) s fun _ t =>
          if n = .w8 then goto .writeHigh t else finishNext 0#64 0#64 t
      else raise .valueOutOfRange s)) := by
  simp only [exec, execCfgWrite, atPoint, hq]

theorem exec_cfgWrite_writeHigh (hq : s.seq = .run .writeHigh) :
    exec (.cfgWrite .w8 off) s =
      .next (withTransaction (.write (off.toNat + 4) 4 (s.lOpa.extractLsb' 32 32)) s fun _ t =>
        finishNext 0#64 0#64 t) := by
  simp only [exec, execCfgWrite, atPoint, hq]

/-- Both commands check the alignment of their offset first (R65). -/
theorem exec_cfgAccess_misaligned {i : Instr} (hi : i = .cfgRead n off ∨ i = .cfgWrite n off)
    (hq : s.seq = .run .start) (ha : aligned off.toNat n.bytes = false) :
    exec i s = .next (complete (.raised (.alignmentViolation off.toNat)) s) := by
  rcases hi with rfl | rfl
  · by_cases hn : n = .w8
    · subst hn
      rw [exec_cfgRead_start_low hq, checked_misaligned (n := 8) ha, raise_eq]
    · rw [exec_cfgRead_start hq hn, cfgReadThen_misaligned ha, raise_eq]
  · rw [exec_cfgWrite_start hq, checked_misaligned ha, raise_eq]

/-- An aligned CFG_WRITE of a value in range issues its first write (R68, R141). -/
theorem exec_cfgWrite_start_ok (hq : s.seq = .run .start) (ha : aligned off.toNat n.bytes = true)
    (hf : valueFits n s.lOpa = true) (h : s.port.event.reply = .ok) :
    exec (.cfgWrite n off) s =
      .next (goto (if n = .w8 then .writeHigh else .complete (.finishOk 0#64 0#64))
        (afterTransaction (.write off.toNat (min n.bytes 4) (s.lOpa.setWidth 32)) s)) := by
  rw [exec_cfgWrite_start hq, checked_aligned ha, if_pos hf, withTransaction_ok (answerTo_write_ok h)]
  split <;> rfl

end CfgAccess

/-- Settles O26. -/
theorem misalignedAccessIssuesNothing : Obligations.MisalignedAccessIssuesNothing := by
  intro i n off s hi hq ha
  exact ⟨_, exec_cfgAccess_misaligned hi hq (by simpa [aligned] using ha), completed_complete _ s, rfl, rfl⟩

/-- For 1, 2 and 4 bytes the access is aligned at a multiple of its width (R65). -/
theorem aligned_of_narrow {n : Width} {off : Nat} (hn : n ≠ .w8) (ha : off % n.bytes = 0) :
    aligned off n.bytes = true := by
  cases n with
  | w1 | w2 | w4 => simpa [aligned, Width.bytes] using ha
  | w8 => exact absurd rfl hn

/-- Settles O24. -/
theorem cfgReadReads : Obligations.CfgReadReads := by
  intro n off s h
  refine ⟨fun hq hn ha => ?_, ?_, ?_⟩
  · have he := exec_cfgRead_start (off := off) hq hn
    rw [cfgReadThen_ok (aligned_of_narrow hn ha) h] at he
    exact ⟨_, he, readOnly_goto h _ _ _⟩
  · rintro hq rfl ha
    have he := exec_cfgRead_start_low (off := off) hq
    rw [checked_aligned (by simpa [aligned] using ha), withTransaction_ok (answerTo_read_ok h)] at he
    exact ⟨_, he, readOnly_goto h _ _ _⟩
  · rintro lo hq rfl
    have he := exec_cfgRead_readHigh (off := off) hq
    rw [withTransaction_ok (answerTo_read_ok h)] at he
    exact ⟨_, he, readOnly_goto h _ _ _⟩

/-- What an answered write of a value that fits its bytes leaves (R62, R63). -/
theorem wroteOnly_of_lt {s : State} (h : s.port.event.reply = .ok) (hwf : Memory.wf s.cs = true) (off n : Nat) {v : Word}
    (hn : n ≤ 4) (hv : v.toNat < 2 ^ (8 * n)) (p : Point) :
    WroteOnly off n v p s (goto p (afterTransaction (.write off n v) s)) := by
  rw [afterTransaction_write_ok h]
  exact ⟨rfl, Memory.readLE_writeLE_of_lt (seenCs_wf hwf) off n hn hv,
    fun a ha => Memory.read_writeLE_outside _ _ _ _ ha⟩

theorem Width.bytes_le_of_narrow {n : Width} (hn : n ≠ .w8) : n.bytes ≤ 4 := by
  cases n with
  | w1 | w2 | w4 => simp [Width.bytes]
  | w8 => exact absurd rfl hn

/-- Settles O25. -/
theorem cfgWriteWrites : Obligations.CfgWriteWrites := by
  intro n off s h hwf
  refine ⟨fun hq hn ha hv => ?_, ?_, ?_⟩
  · have hle := Width.bytes_le_of_narrow hn
    have he := exec_cfgWrite_start_ok hq (aligned_of_narrow hn ha) (by simp [valueFits, hv]) h
    rw [if_neg hn, Nat.min_eq_left hle] at he
    refine ⟨_, he, wroteOnly_of_lt h hwf _ _ hle ?_ _⟩
    exact lt_of_le_of_lt ((BitVec.toNat_setWidth ..).trans_le (Nat.mod_le _ _)) hv
  · rintro hq rfl ha
    have he := exec_cfgWrite_start_ok (n := .w8) hq (by simpa [aligned, Width.bytes] using ha) rfl h
    have hlow : s.lOpa.setWidth 32 = s.lOpa.extractLsb' 0 32 := by ext j hj; simp
    rw [hlow] at he
    exact ⟨_, he, wroteOnly_of_lt h hwf _ _ (Nat.le_refl 4) (BitVec.isLt _) _⟩
  · rintro hq rfl
    have he := exec_cfgWrite_writeHigh (off := off) hq
    rw [withTransaction_ok (answerTo_write_ok h)] at he
    exact ⟨_, he, wroteOnly_of_lt h hwf _ _ (Nat.le_refl 4) (BitVec.isLt _) _⟩

/-! ### Step 1 of the Link Control read-modify-writes (R82) -/

/-- Every command with a Link Control read-modify-write begins it with the same read (R192 to R194, R196, R201). -/
theorem exec_linkControl_rmwRead {i : Instr} {s : State}
    (hi : i = .linkEnable ∨ i = .linkDisable ∨ (∃ f, i = .linkRetrain f) ∨ (∃ f imm, i = .linkSetControlBits f imm) ∨
      (∃ k, i = .linkSetTargetSpeed k true ∧ normSpeed k s.lOpa ≠ none))
    (hq : s.seq = .run .rmwRead) : exec i s = .next (rmwReadThen s.lcOff .rmwWrite s) := by
  rcases hi with rfl | rfl | ⟨f, rfl⟩ | ⟨f, imm, rfl⟩ | ⟨k, rfl, hn⟩
  · simp only [exec, execLinkEnable, atPoint, hq, linkRmw]
  · simp only [exec, execLinkDisable, atPoint, hq, linkRmw]
  · simp only [exec, execLinkRetrain, atPoint, hq, linkRmw]
  · simp only [exec, execLinkSetControlBits, atPoint, hq, linkRmw]
  · obtain ⟨code, hcode⟩ := Option.ne_none_iff_exists'.mp hn
    exact exec_setTargetSpeed_rmwRead hcode hq

/-- Settles O39. -/
theorem linkControlIsReadFirst : Obligations.LinkControlIsReadFirst := by
  intro i s hi hq heven h
  have hoff : s.lcOff % 2 = 0 := by
    rw [State.lcOff]
    omega
  obtain ⟨t', ht', e⟩ := rmwReadThen_readOnly .rmwWrite h hoff
  exact ⟨_, t', exec_linkControl_rmwRead hi hq, ht', e⟩

/-! ### Samples of NOW and Sleeps (R83) -/

section WaitForTraining

variable {s : State}

theorem exec_waitForTraining_start (hq : s.seq = .run .start) :
    exec .linkWaitForTraining s =
      .next (withSample s fun now t => goto (.walk .main .status) { t with deadline := now + s.lOpa.toNat }) := by
  simp only [exec, execLinkWaitForTraining, atPoint, hq]

theorem exec_waitForTraining_statusRead (hq : s.seq = .run .statusRead) :
    exec .linkWaitForTraining s = .next (cfgReadThen s.lsOff 2 s fun ls t =>
      if lsTraining ls then goto .deadlineCheck { t with v := ls } else finishNext 1#64 0#64 { t with v := ls }) := by
  simp only [exec, execLinkWaitForTraining, atPoint, hq]

theorem exec_waitForTraining_deadlineCheck (hq : s.seq = .run .deadlineCheck) :
    exec .linkWaitForTraining s = .next (withSample s fun now t =>
      if s.deadline ≤ now then finishNext 0#64 0#64 t else sleepNext s.lOpb (.walk .main .status) t) := by
  simp only [exec, execLinkWaitForTraining, atPoint, hq]

theorem exec_waitForTraining_sleepStart (hq : s.seq = .run .sleepStart) :
    exec .linkWaitForTraining s = .next (beginSleep s.lOpb (.walk .main .status) s) := by
  simp only [exec, execLinkWaitForTraining, atPoint, hq]

/-- An answered poll goes where Link Training, bit 11 of what it read, sends it (R42, R199). -/
theorem exec_waitForTraining_statusRead_ok (hq : s.seq = .run .statusRead) (heven : s.base % 2 = 0)
    (h : s.port.event.reply = .ok) {ls : Word} (hls : ls = Memory.readLE s.seenCs (s.base + 0x12) 2) :
    exec .linkWaitForTraining s =
      .next { goto (if ls.getLsbD 11 then .deadlineCheck else .complete (.finishOk 1#64 0#64))
        (afterTransaction (.read (s.base + 0x12) 2) s) with v := ls } := by
  have ha : aligned s.lsOff 2 = true := by
    simp [aligned, State.lsOff]
    omega
  subst hls
  rw [exec_waitForTraining_statusRead hq, cfgReadThen_ok ha h, State.lsOff, lsTraining]
  split <;> rfl

/-- The sample after a poll ends the command at or past the deadline, and otherwise begins the next round (R199). -/
theorem exec_waitForTraining_deadlineCheck_eq (hq : s.seq = .run .deadlineCheck) :
    exec .linkWaitForTraining s = .next (withSample s fun now t =>
      goto (if s.deadline ≤ now then .complete (.finishOk 0#64 0#64)
        else if s.lOpb = 0#64 then .walk .main .status else .sleepStart) t) := by
  rw [exec_waitForTraining_deadlineCheck hq]
  congr 2
  funext now t
  rw [sleepNext]
  split_ifs <;> rfl

end WaitForTraining

/-- Settles O45. -/
theorem waitForTrainingSteps : Obligations.WaitForTrainingSteps := by
  refine fun s => ⟨fun hq => ?_, fun hq heven h => ?_, fun hq => ?_, fun hq => ?_⟩
  · exact ⟨_, exec_waitForTraining_start hq, rfl, rfl⟩
  · exact ⟨_, _, exec_waitForTraining_statusRead_ok hq heven h rfl, readOnly_goto h _ _ _, rfl⟩
  · exact ⟨_, exec_waitForTraining_deadlineCheck_eq hq, rfl⟩
  · exact ⟨_, exec_waitForTraining_sleepStart hq, rfl⟩

/-- A turn of a sleep is the same step for every command (R83). -/
theorem exec_sleep {i : Instr} {s : State} {wake : Nat} {p : Point} (hq : s.seq = .sleep wake p) :
    exec i s = .next (sleepTurn wake p s) := by
  cases i <;> exact atPoint_sleep hq

/-- Settles O49: the third clause is the two ends of `sleepTurn_cases`. -/
theorem sleepLastsAtLeastItsTime : Obligations.SleepLastsAtLeastItsTime := by
  refine ⟨fun d p s => rfl, fun d p s => ⟨rfl, rfl⟩, fun i s wake p hq => ⟨_, exec_sleep hq, ?_⟩⟩
  obtain ⟨now, hn, ⟨hw, e⟩ | ⟨hw, e⟩⟩ := sleepTurn_cases wake p s <;> rw [e]
  · exact ⟨hn, rfl, fun _ => ⟨rfl, rfl⟩, fun h => absurd hw (Nat.not_le_of_lt h)⟩
  · exact ⟨hn, rfl, fun h => absurd h (Nat.not_le_of_lt hw), fun _ => ⟨rfl, rfl⟩⟩

end Sys2Proof.Machine
end

section
/-! PROOFS. 30_encoding.md: the fields of a CMD word (R101, R102), and that a word selects a row of the opcode map exactly
when it has the row's opcode and sets no bit that the row's command does not use (R104, R106). -/

namespace Sys2Proof

/-! ### The fields of a word (R101) -/

/-- RSV, bits [15:9] (R101). -/
def fieldRsv (w : Word) : BitVec 7 := w.extractLsb' 9 7

@[simp] theorem fieldOp_and (w m : Word) : fieldOp (w &&& m) = fieldOp w &&& fieldOp m := BitVec.extractLsb'_and
@[simp] theorem fieldW_and (w m : Word) : fieldW (w &&& m) = fieldW w &&& fieldW m := BitVec.extractLsb'_and
@[simp] theorem fieldF_and (w m : Word) : fieldF (w &&& m) = (fieldF w && fieldF m) := BitVec.getLsbD_and
@[simp] theorem fieldK_and (w m : Word) : fieldK (w &&& m) = (fieldK w && fieldK m) := BitVec.getLsbD_and
@[simp] theorem fieldRsv_and (w m : Word) : fieldRsv (w &&& m) = fieldRsv w &&& fieldRsv m := BitVec.extractLsb'_and
@[simp] theorem fieldImm_and (w m : Word) : fieldImm (w &&& m) = fieldImm w &&& fieldImm m := BitVec.extractLsb'_and

/-- The six fields, from the top down, are all of the word. -/
theorem append_fields (w : Word) :
    fieldImm w ++ fieldRsv w ++ BitVec.ofBool (fieldK w) ++ BitVec.ofBool (fieldF w) ++ fieldW w ++ fieldOp w = w := by
  have hK : BitVec.ofBool (fieldK w) = w.extractLsb' 8 1 := by
    ext j hj
    simp [fieldK, show j = 0 by omega]
  have hF : BitVec.ofBool (fieldF w) = w.extractLsb' 7 1 := by
    ext j hj
    simp [fieldF, show j = 0 by omega]
  rw [hK, hF, fieldImm, fieldRsv, fieldW, fieldOp]
  iterate 5 rw [BitVec.extractLsb'_append_extractLsb'_eq_extractLsb' (by rfl)]
  exact BitVec.extractLsb'_eq_self

theorem word_eq_iff_fields (w w' : Word) :
    w = w' ↔ fieldOp w = fieldOp w' ∧ fieldW w = fieldW w' ∧ fieldF w = fieldF w' ∧ fieldK w = fieldK w' ∧
      fieldRsv w = fieldRsv w' ∧ fieldImm w = fieldImm w' := by
  refine ⟨fun h => by simp [h], fun ⟨hop, hw, hf, hk, hrsv, himm⟩ => ?_⟩
  rw [← append_fields w, ← append_fields w', hop, hw, hf, hk, hrsv, himm]

section Cmd32

variable (op : BitVec 5) (wc : BitVec 2) (f k : Bool) (imm : Half)

@[simp] theorem fieldOp_cmd32 : fieldOp (cmd32 op wc f k imm) = op := BitVec.extractLsb'_append_eq_right

@[simp] theorem fieldW_cmd32 : fieldW (cmd32 op wc f k imm) = wc := by
  ext j hj
  simp only [fieldW, cmd32, BitVec.getElem_extractLsb', BitVec.getLsbD_append]
  interval_cases j <;> simp

@[simp] theorem fieldF_cmd32 : fieldF (cmd32 op wc f k imm) = f := by
  simp only [fieldF, cmd32, BitVec.getLsbD_append]
  simp

@[simp] theorem fieldK_cmd32 : fieldK (cmd32 op wc f k imm) = k := by
  simp only [fieldK, cmd32, BitVec.getLsbD_append]
  simp

@[simp] theorem fieldRsv_cmd32 : fieldRsv (cmd32 op wc f k imm) = 0#7 := by
  ext j hj
  simp only [fieldRsv, cmd32, BitVec.getElem_extractLsb', BitVec.getLsbD_append]
  interval_cases j <;> simp

@[simp] theorem fieldImm_cmd32 : fieldImm (cmd32 op wc f k imm) = imm := by
  ext j hj
  simp only [fieldImm, cmd32, BitVec.getElem_extractLsb', BitVec.getLsbD_append]
  interval_cases j <;> simp

end Cmd32

/-- A word with RSV = 0 is packed again from its other fields. -/
theorem cmd32_fields {w : Word} (h : fieldRsv w = 0#7) :
    cmd32 (fieldOp w) (fieldW w) (fieldF w) (fieldK w) (fieldImm w) = w := by
  simp [word_eq_iff_fields, h]

/-! ### Width codes and speed kinds (R102, R103) -/

@[simp] theorem Width.ofCode_code (n : Width) : Width.ofCode n.code = n := by cases n <;> rfl

@[simp] theorem Width.code_ofCode (c : BitVec 2) : (Width.ofCode c).code = c := by
  revert c
  decide

theorem Width.bytes_ofCode (c : BitVec 2) : (Width.ofCode c).bytes = 2 ^ c.toNat := by
  revert c
  decide

@[simp] theorem SpeedKind.ofBit_bit (k : SpeedKind) : SpeedKind.ofBit k.bit = k := by cases k <;> rfl

@[simp] theorem SpeedKind.bit_ofBit (k : Bool) : (SpeedKind.ofBit k).bit = k := by cases k <;> rfl

/-- Settles O6. -/
theorem widthCodesAreExact : Obligations.WidthCodesAreExact := by
  refine ⟨fun c => ⟨Width.bytes_ofCode c, Width.code_ofCode c⟩, Width.ofCode_code, fun b => ⟨?_, ?_⟩⟩
  · rintro (rfl | rfl | rfl | rfl)
    exacts [⟨.w1, rfl⟩, ⟨.w2, rfl⟩, ⟨.w4, rfl⟩, ⟨.w8, rfl⟩]
  · rintro ⟨n, rfl⟩
    cases n <;> simp [Width.bytes]

/-! ### Which words select a row (R104, R106) -/

/-- The bits of W that a command with opcode `op` does not use (R101). -/
def unusedW (op : BitVec 5) : BitVec 2 := if op = 0x01#5 ∨ op = 0x02#5 then 0#2 else .allOnes 2

/-- Does a command with opcode `op` not use F (R101)? -/
def unusedF (op : BitVec 5) : Bool := decide (op ≠ 0x07#5 ∧ op ≠ 0x08#5 ∧ op ≠ 0x0C#5)

/-- Does a command with opcode `op` not use K (R101)? -/
def unusedK (op : BitVec 5) : Bool := decide (op ≠ 0x08#5)

/-- The bits of IMM that a command with opcode `op` does not use (R103). -/
def unusedImm (op : BitVec 5) : Half :=
  if op = 0x01#5 ∨ op = 0x02#5 ∨ op = 0x04#5 ∨ op = 0x0C#5 then 0#16
  else if op = 0x03#5 then 0xFF00#16
  else .allOnes 16

/-- The word sets no bit that a command with opcode `op` needs to be 0 (R101, R106). -/
structure SetsNoUnusedBit (op : BitVec 5) (w : Word) : Prop where
  width : fieldW w &&& unusedW op = 0#2
  flag : (fieldF w && unusedF op) = false
  kind : (fieldK w && unusedK op) = false
  rsv : fieldRsv w = 0#7
  imm : fieldImm w &&& unusedImm op = 0#16

/-- The bits of FIND_STD_CAP's immediate that it does not use are the high byte (R103). -/
theorem and_highByte_eq_zero_iff (imm : Half) : imm &&& 0xFF00#16 = 0#16 ↔ imm.extractLsb' 8 8 = 0#8 := by
  have hsplit : imm.extractLsb' 8 8 ++ imm.extractLsb' 0 8 = imm := by
    rw [BitVec.extractLsb'_append_extractLsb'_eq_extractLsb' (by rfl)]
    exact BitVec.extractLsb'_eq_self
  have hand : imm &&& 0xFF00#16 = imm.extractLsb' 8 8 ++ 0#8 :=
    calc imm &&& 0xFF00#16
      _ = (imm.extractLsb' 8 8 ++ imm.extractLsb' 0 8) &&& (BitVec.allOnes 8 ++ 0#8) := by rw [hsplit]; rfl
      _ = imm.extractLsb' 8 8 ++ 0#8 := by rw [BitVec.and_append, BitVec.and_allOnes, BitVec.and_zero]
  rw [hand]
  refine ⟨fun h => ?_, fun h => by rw [h]; rfl⟩
  rw [← BitVec.extractLsb'_append_eq_left (a := imm.extractLsb' 8 8) (b := 0#8), h]
  rfl

theorem and_unusedW_eq_zero_iff (x : BitVec 2) (op : BitVec 5) :
    x &&& unusedW op = 0#2 ↔ x = 0#2 ∨ op = 0x01#5 ∨ op = 0x02#5 := by
  unfold unusedW
  split_ifs with h
  · simp [h]
  · rw [BitVec.and_allOnes, or_iff_left h]

theorem and_unusedF_eq_false_iff (b : Bool) (op : BitVec 5) :
    (b && unusedF op) = false ↔ b = false ∨ op = 0x07#5 ∨ op = 0x08#5 ∨ op = 0x0C#5 := by
  cases b <;> simp [unusedF, or_iff_not_imp_left]

theorem and_unusedK_eq_false_iff (b : Bool) (op : BitVec 5) :
    (b && unusedK op) = false ↔ b = false ∨ op = 0x08#5 := by
  cases b <;> simp [unusedK]

theorem and_unusedImm_eq_zero_iff (x : Half) (op : BitVec 5) :
    x &&& unusedImm op = 0#16 ↔
      (x = 0#16 ∨ op = 0x01#5 ∨ op = 0x02#5 ∨ op = 0x03#5 ∨ op = 0x04#5 ∨ op = 0x0C#5) ∧
        (op = 0x03#5 → x.extractLsb' 8 8 = 0#8) := by
  unfold unusedImm
  split_ifs with h h3
  · rcases h with rfl | rfl | rfl | rfl <;> simp
  · simp [h3, and_highByte_eq_zero_iff]
  · simp only [not_or] at h
    simp only [h, h3, BitVec.and_allOnes, or_false, false_imp_iff, and_true]

/-- What setting no unused bit says field by field, as R101 and R103 list the commands that use each. -/
theorem setsNoUnusedBit_iff {op : BitVec 5} {w : Word} :
    SetsNoUnusedBit op w ↔
      fieldRsv w = 0#7 ∧ (fieldW w = 0#2 ∨ op = 0x01#5 ∨ op = 0x02#5) ∧
      (fieldF w = false ∨ op = 0x07#5 ∨ op = 0x08#5 ∨ op = 0x0C#5) ∧ (fieldK w = false ∨ op = 0x08#5) ∧
      (fieldImm w = 0#16 ∨ op = 0x01#5 ∨ op = 0x02#5 ∨ op = 0x03#5 ∨ op = 0x04#5 ∨ op = 0x0C#5) ∧
      (op = 0x03#5 → (fieldImm w).extractLsb' 8 8 = 0#8) := by
  rw [← and_unusedW_eq_zero_iff, ← and_unusedF_eq_false_iff, ← and_unusedK_eq_false_iff,
    ← and_unusedImm_eq_zero_iff]
  exact ⟨fun ⟨hW, hF, hK, hR, hI⟩ => ⟨hR, hW, hF, hK, hI⟩, fun ⟨hR, hW, hF, hK, hI⟩ => ⟨hW, hF, hK, hR, hI⟩⟩

/-- Every row's mask holds OP, RSV and the bits its command does not use, and its pattern is its opcode alone (R104). -/
theorem opcodeMap_rows : ∀ r ∈ opcodeMap,
    (fieldOp r.mask = .allOnes 5 ∧ fieldW r.mask = unusedW (fieldOp r.pattern) ∧
      fieldF r.mask = unusedF (fieldOp r.pattern) ∧ fieldK r.mask = unusedK (fieldOp r.pattern) ∧
      fieldRsv r.mask = .allOnes 7 ∧ fieldImm r.mask = unusedImm (fieldOp r.pattern)) ∧
    r.pattern = cmd32 (fieldOp r.pattern) 0#2 false false 0#16 := by
  decide

/-- The opcodes of the rows are all different (R104). -/
theorem opcodeMap_nodup : (opcodeMap.map fun r => fieldOp r.pattern).Nodup := by decide

theorem opcodeMap_inj {r r' : OpcodeRow} (hr : r ∈ opcodeMap) (hr' : r' ∈ opcodeMap)
    (h : fieldOp r.pattern = fieldOp r'.pattern) : r = r' :=
  List.inj_on_of_nodup_map opcodeMap_nodup hr hr' h

/-- The rows cover the opcodes 0x01 to 0x0C and no other (R104). -/
theorem exists_row_iff (op : BitVec 5) : (∃ r ∈ opcodeMap, fieldOp r.pattern = op) ↔ ¬ (op = 0#5 ∨ 0x0D#5 ≤ op) := by
  revert op
  decide

/-- A word selects a row exactly when it has the row's opcode and sets no bit the command does not use. -/
theorem selects_iff {r : OpcodeRow} (hr : r ∈ opcodeMap) (w : Word) :
    r.selects w = true ↔ fieldOp w = fieldOp r.pattern ∧ SetsNoUnusedBit (fieldOp r.pattern) w := by
  obtain ⟨⟨hop, hwidth, hflag, hkind, hrsv, himm⟩, hpat⟩ := opcodeMap_rows r hr
  rw [OpcodeRow.selects, beq_iff_eq, word_eq_iff_fields, fieldOp_and, fieldW_and, fieldF_and, fieldK_and,
    fieldRsv_and, fieldImm_and, hop, hwidth, hflag, hkind, hrsv, himm, BitVec.and_allOnes, BitVec.and_allOnes]
  generalize fieldOp r.pattern = op at hpat ⊢
  rw [hpat, fieldW_cmd32, fieldF_cmd32, fieldK_cmd32, fieldRsv_cmd32, fieldImm_cmd32]
  exact and_congr_right fun _ => ⟨fun ⟨hW, hF, hK, hR, hI⟩ => ⟨hW, hF, hK, hR, hI⟩,
    fun ⟨hW, hF, hK, hR, hI⟩ => ⟨hW, hF, hK, hR, hI⟩⟩

/-- A list has at most one element if its elements are pairwise related and no two members are. -/
theorem length_le_one_of_pairwise {α : Type} {R : α → α → Prop} {l : List α} (hp : l.Pairwise R)
    (hR : ∀ a ∈ l, ∀ b ∈ l, ¬ R a b) : l.length ≤ 1 := by
  match l with
  | [] => exact Nat.zero_le 1
  | [a] => exact Nat.le_refl 1
  | a :: b :: l => exact absurd (List.rel_of_pairwise_cons hp List.mem_cons_self) (hR a (by simp) b (by simp))

/-- Settles O3: the masks hold OP, and the rows have different opcodes. -/
theorem wordSelectsAtMostOneRow : Obligations.WordSelectsAtMostOneRow := by
  intro w
  have hop : ∀ r ∈ opcodeMap.filter fun r => r.selects w, fieldOp w = fieldOp r.pattern := fun r hr => by
    obtain ⟨hm, hs⟩ := List.mem_filter.mp hr
    exact ((selects_iff hm w).mp hs).1
  refine length_le_one_of_pairwise ((List.pairwise_map.mp opcodeMap_nodup).filter _) fun r hr r' hr' hne => hne ?_
  rw [← hop r hr, ← hop r' hr']

end Sys2Proof
end

section
/-! PROOFS. 30_encoding.md: the decoder and the encoder are inverse to each other (R101 to R105), the illegal words and
how they complete (R106), and the equivalent encodings (R111). -/

namespace Sys2Proof

open Machine

/-! ### What decodes (R105) -/

/-- A word decodes by the row it selects. -/
theorem decode_of_selects {r : OpcodeRow} (hr : r ∈ opcodeMap) {w : Word} (h : r.selects w = true) :
    decode w = .ok (r.read w) := by
  cases hd : decode w with
  | ok i =>
    obtain ⟨r', hr', hs, rfl⟩ := decode_ok hd
    have hop' := ((selects_iff hr' w).mp (by simpa [OpcodeRow.selects] using hs)).1
    rw [opcodeMap_inj hr hr' (((selects_iff hr w).mp h).1.symm.trans hop')]
  | error e =>
    have hs := (decode_error_iff w).mp ⟨e, hd⟩ r hr
    exact absurd (by simpa [OpcodeRow.selects] using h) hs

/-- A word that decodes selects the row that reads it. -/
theorem selects_of_decode {w : Word} {i : Instr} (h : decode w = .ok i) :
    ∃ r ∈ opcodeMap, r.selects w = true ∧ i = r.read w := by
  obtain ⟨r, hr, hs, hi⟩ := decode_ok h
  exact ⟨r, hr, by simpa [OpcodeRow.selects] using hs, hi⟩

/-! ### Decode after encode (R101 to R105) -/

/-- Each command has a row with its opcode, and the row reads the command's operands from its CMD word. -/
theorem exists_row_reading (i : Instr) :
    ∃ r ∈ opcodeMap, fieldOp r.pattern = i.opcode ∧ r.read (encode i) = i := by
  cases i <;> simp [opcodeMap, encode, Instr.opcode, fieldOp]

theorem fieldOp_encode (i : Instr) : fieldOp (encode i) = i.opcode := by
  cases i <;> exact fieldOp_cmd32 ..

/-- The CMD word of a well-formed command sets no bit that the command does not use (R103). -/
theorem setsNoUnusedBit_encode {i : Instr} (h : i.wellFormed = true) : SetsNoUnusedBit i.opcode (encode i) := by
  rw [setsNoUnusedBit_iff]
  cases i
  case findStdCap imm => simpa [encode, Instr.opcode, Instr.wellFormed] using h
  all_goals simp [encode, Instr.opcode]

/-- Settles O1: the CMD word selects the command's own row. -/
theorem decodeEncodeAgree : Obligations.DecodeEncodeAgree := by
  intro i h
  obtain ⟨r, hr, hop, hread⟩ := exists_row_reading i
  have hs : r.selects (encode i) = true := by
    rw [selects_iff hr, hop, fieldOp_encode]
    exact ⟨rfl, setsNoUnusedBit_encode h⟩
  rw [decode_of_selects hr hs, hread]

/-! ### Encode after decode (R101 to R106) -/

/-- What a row reads from a word that selects it is well formed and packs to that word again: the row reads
the fields its command uses, and the word's other fields are 0. -/
theorem encode_read {r : OpcodeRow} (hr : r ∈ opcodeMap) {w : Word} (h : r.selects w = true) :
    (r.read w).wellFormed = true ∧ encode (r.read w) = w := by
  obtain ⟨hop, hs⟩ := (selects_iff hr w).mp h
  obtain ⟨hrsv, hwidth, hflag, hkind, himm⟩ := setsNoUnusedBit_iff.mp hs
  have hw := cmd32_fields hrsv
  rw [hop] at hw
  clear hop hrsv h hs
  simp only [opcodeMap, List.mem_cons, List.not_mem_nil, or_false] at hr
  rcases hr with rfl | rfl | rfl | rfl | rfl | rfl | rfl | rfl | rfl | rfl | rfl | rfl <;>
    simp_all [fieldOp, Instr.wellFormed, encode, Instr.opcode]

/-- Settles O2. -/
theorem encodeDecodeAgree : Obligations.EncodeDecodeAgree := by
  intro w i h
  obtain ⟨r, hr, hs, rfl⟩ := selects_of_decode h
  exact encode_read hr hs

/-- Settles O5: each word is the CMD word of its command. -/
theorem writtenWordsDecode : Obligations.WrittenWordsDecode :=
  ⟨decodeEncodeAgree (.cfgRead .w2 0x0010#16) rfl, decodeEncodeAgree (.cfgWrite .w8 0x0208#16) rfl,
    decodeEncodeAgree (.findStdCap 0x0010#16) rfl, decodeEncodeAgree (.findExtCap 0x1234#16) rfl,
    decodeEncodeAgree (.linkRetrain true) rfl, decodeEncodeAgree (.linkSetTargetSpeed .bySpeed false) rfl,
    decodeEncodeAgree (.linkSetControlBits true 0x0003#16) rfl⟩

/-! ### Illegal words (R106) -/

/-- A word is illegal exactly when no row has its opcode or it sets a bit that the opcode's command does not use. -/
theorem decode_error_iff_fields (w : Word) :
    (∃ e, decode w = .error e) ↔ fieldOp w = 0#5 ∨ 0x0D#5 ≤ fieldOp w ∨ ¬ SetsNoUnusedBit (fieldOp w) w := by
  rw [← or_assoc, ← not_iff_not, not_or, not_not, ← exists_row_iff]
  constructor
  · intro h
    cases hd : decode w with
    | error e => exact absurd ⟨e, hd⟩ h
    | ok i =>
      obtain ⟨r, hr, hs, -⟩ := selects_of_decode hd
      obtain ⟨hop, hbits⟩ := (selects_iff hr w).mp hs
      exact ⟨⟨r, hr, hop.symm⟩, hop ▸ hbits⟩
  · rintro ⟨⟨r, hr, hop⟩, hbits⟩ ⟨e, he⟩
    rw [decode_of_selects hr ((selects_iff hr w).mpr ⟨hop.symm, hop ▸ hbits⟩)] at he
    cases he

/-- The bits that make a word with opcode `op` illegal, field by field as R106 lists them. -/
theorem not_setsNoUnusedBit_iff (op : BitVec 5) (w : Word) :
    ¬ SetsNoUnusedBit op w ↔
      fieldRsv w ≠ 0#7 ∨ (fieldW w ≠ 0#2 ∧ op ≠ 0x01#5 ∧ op ≠ 0x02#5) ∨
      (fieldF w = true ∧ op ≠ 0x07#5 ∧ op ≠ 0x08#5 ∧ op ≠ 0x0C#5) ∨ (fieldK w = true ∧ op ≠ 0x08#5) ∨
      (fieldImm w ≠ 0#16 ∧ op ≠ 0x01#5 ∧ op ≠ 0x02#5 ∧ op ≠ 0x03#5 ∧ op ≠ 0x04#5 ∧ op ≠ 0x0C#5) ∨
      (op = 0x03#5 ∧ (fieldImm w).extractLsb' 8 8 ≠ 0#8) := by
  rw [← not_iff_not, not_not, setsNoUnusedBit_iff]
  simp only [not_or, not_and_or, not_not, ne_eq, Bool.not_eq_true, imp_iff_not_or]

/-- Settles O4: the words without a row, and the completion that their decoding raises. -/
theorem illegalWordsExactly : Obligations.IllegalWordsExactly := by
  intro w
  refine ⟨by rw [decode_error_iff_fields, not_setsNoUnusedBit_iff, fieldRsv], ?_⟩
  rintro s rfl ⟨e, he⟩ hq hhost hp
  refine ⟨complete (.raised .illegalCommand) s, ?_, completed_complete _ s, rfl, rfl⟩
  rw [step_sequencer hp hhost, sequencerTurn_illegal (by simp [hq]) he, raise_eq]

end Sys2Proof

namespace Sys2Proof.Machine

/-! ### Equivalent encodings (R111) -/

/-- Commands with the same steps have the same runs. -/
theorem runExec_congr {i j : Instr} (h : ∀ s, exec i s = exec j s) (n : Nat) (s : State) :
    runExec i n s = runExec j n s := by
  induction n generalizing s with
  | zero => rfl
  | succ n ih => simp only [runExec, h, ih]

theorem exec_linkEnable_eq (s : State) : exec .linkEnable s = exec (.linkSetControlBits false 0x0010#16) s := rfl

theorem exec_linkDisable_eq (s : State) : exec .linkDisable s = exec (.linkSetControlBits true 0x0010#16) s := rfl

/-- Without its clearing write LINK_RETRAIN is the setting of Retrain Link alone (R194, R201). -/
theorem exec_linkRetrain_false (s : State) :
    exec (.linkRetrain false) s = exec (.linkSetControlBits true 0x0020#16) s := by
  refine congrArg (atPoint s) (funext fun p => ?_)
  cases p <;> rfl

/-- Settles O52: the three pairs take the same steps. -/
theorem equivalentCommands : Obligations.EquivalentCommands := fun n s =>
  ⟨runExec_congr exec_linkEnable_eq n s, runExec_congr exec_linkDisable_eq n s,
    runExec_congr exec_linkRetrain_false n s⟩

end Sys2Proof.Machine
end

section
/-! PROOFS. 30_encoding.md: the assembler (R109) and its pseudo-commands (R110). Each operand is read or refused by
itself; a CMD word is the sum of its fields, each at its place. -/

namespace Sys2Proof

theorem toNat_append_eq_add {m n : Nat} (x : BitVec m) (y : BitVec n) : (x ++ y).toNat = x.toNat * 2 ^ n + y.toNat := by
  rw [BitVec.toNat_append, ← Nat.shiftLeft_add_eq_or_of_lt y.isLt, Nat.shiftLeft_eq]

/-- A CMD word as the assembler's arithmetic has it: the sum of its fields, each shifted to its place (R101, R109). -/
theorem toNat_cmd32 (op : BitVec 5) (wc : BitVec 2) (f k : Bool) (imm : Half) :
    (cmd32 op wc f k imm).toNat =
      op.toNat + wc.toNat * 2 ^ 5 + f.toNat * 2 ^ 7 + k.toNat * 2 ^ 8 + imm.toNat * 2 ^ 16 := by
  simp only [cmd32, toNat_append_eq_add, BitVec.toNat_ofBool, BitVec.toNat_ofNat]
  omega

end Sys2Proof

namespace Sys2Proof.Machine

/-! ### Operands (R109) -/

theorem asmFits_of_lt {k n : Nat} (h : n < 2 ^ k) : asmFits k n = some (BitVec.ofNat k n) := if_pos h

theorem asmFits_of_le {k n : Nat} (h : 2 ^ k ≤ n) : asmFits k n = none := if_neg (Nat.not_lt_of_le h)

theorem asmFlag_of_lt {n : Nat} (h : n < 2) : asmFlag n = some (n == 1) := by
  interval_cases n <;> rfl

theorem toNat_flag {n : Nat} (h : n < 2) : (n == 1).toNat = n := by
  interval_cases n <;> rfl

theorem asmFlag_of_le {n : Nat} (h : 2 ≤ n) : asmFlag n = none := by
  rw [asmFlag, if_neg (by omega), if_neg (by omega)]

/-- The width operand `2 ^ k` has width code `k` (R102). -/
theorem asmWidth_two_pow {k : Nat} (h : k < 4) : asmWidth (2 ^ k) = some (Width.ofCode (BitVec.ofNat 2 k)) := by
  interval_cases k <;> rfl

theorem asmWidth_of_notMem {n : Nat} (h : n ∉ [1, 2, 4, 8]) : asmWidth n = none := by
  simp only [List.mem_cons, List.not_mem_nil, or_false, not_or] at h
  obtain ⟨h1, h2, h4, h8⟩ := h
  rw [asmWidth, if_neg h1, if_neg h2, if_neg h4, if_neg h8]

/-! ### The write of CMD (R109) -/

/-- The write of CMD for a command whose fields are the given numbers. -/
theorem cmdWrite_eq {i : Instr} {op wc imm : Nat} {f k : Bool}
    (h : encode i = cmd32 (.ofNat 5 op) (.ofNat 2 wc) f k (.ofNat 16 imm)) (hop : op < 2 ^ 5) (hwc : wc < 2 ^ 2)
    (himm : imm < 2 ^ 16) :
    cmdWrite i =
      .write 0 (.ofNat 64 (op + wc * 2 ^ 5 + f.toNat * 2 ^ 7 + k.toNat * 2 ^ 8 + imm * 2 ^ 16)) := by
  have hw : (encode i).toNat = op + wc * 2 ^ 5 + f.toNat * 2 ^ 7 + k.toNat * 2 ^ 8 + imm * 2 ^ 16 := by
    rw [h, toNat_cmd32, BitVec.toNat_ofNat, BitVec.toNat_ofNat, BitVec.toNat_ofNat, Nat.mod_eq_of_lt hop,
      Nat.mod_eq_of_lt hwc, Nat.mod_eq_of_lt himm]
  rw [cmdWrite, ← hw, BitVec.ofNat_toNat]

/-! ### Lines that assemble (R109) -/

theorem cmdWrite_cfgRead {k off : Nat} (hk : k < 4) (hoff : off < 2 ^ 16) :
    cmdWrite (.cfgRead (.ofCode (.ofNat 2 k)) (.ofNat 16 off)) =
      .write 0 (.ofNat 64 (0x01 + k * 2 ^ 5 + off * 2 ^ 16)) :=
  cmdWrite_eq (op := 0x01) (f := false) (k := false) (by simp [encode, Instr.opcode]) (by decide) hk hoff

theorem cmdWrite_cfgWrite {k off : Nat} (hk : k < 4) (hoff : off < 2 ^ 16) :
    cmdWrite (.cfgWrite (.ofCode (.ofNat 2 k)) (.ofNat 16 off)) =
      .write 0 (.ofNat 64 (0x02 + k * 2 ^ 5 + off * 2 ^ 16)) :=
  cmdWrite_eq (op := 0x02) (f := false) (k := false) (by simp [encode, Instr.opcode]) (by decide) hk hoff

theorem assemble_cfgRead {k off : Nat} (hk : k < 4) (hoff : off < 2 ^ 16) :
    assemble (.cfgRead (2 ^ k) off) = some [.write 0 (.ofNat 64 (0x01 + k * 2 ^ 5 + off * 2 ^ 16))] := by
  simp [assemble, asmWidth_two_pow hk, asmFits_of_lt hoff, cmdWrite_cfgRead hk hoff]

theorem assemble_cfgWrite {k off v : Nat} (hk : k < 4) (hoff : off < 2 ^ 16) (hv : v < 2 ^ 64) :
    assemble (.cfgWrite (2 ^ k) off v) =
      some [.write 2 (.ofNat 64 v), .write 0 (.ofNat 64 (0x02 + k * 2 ^ 5 + off * 2 ^ 16))] := by
  simp [assemble, opaWrite, asmWidth_two_pow hk, asmFits_of_lt hoff, asmFits_of_lt hv, cmdWrite_cfgWrite hk hoff]

theorem assemble_findStdCap {id : Nat} (h : id < 2 ^ 8) :
    assemble (.findStdCap id) = some [.write 0 (.ofNat 64 (0x03 + id * 2 ^ 16))] := by
  have hw : cmdWrite (.findStdCap ((BitVec.ofNat 8 id).setWidth 16)) = .write 0 (.ofNat 64 (0x03 + id * 2 ^ 16)) :=
    cmdWrite_eq (op := 0x03) (wc := 0) (f := false) (k := false)
      (by simp [encode, Instr.opcode, BitVec.setWidth_ofNat_of_le_of_lt (show 8 ≤ 16 by decide) h])
      (by decide) (by decide) (by omega)
  simp [assemble, asmFits_of_lt h, hw]

theorem assemble_findExtCap {id size : Nat} (hid : id < 2 ^ 16) (hsize : size < 2 ^ 64) :
    assemble (.findExtCap id size) =
      some [.write 2 (.ofNat 64 size), .write 0 (.ofNat 64 (0x04 + id * 2 ^ 16))] := by
  have hw : cmdWrite (.findExtCap (.ofNat 16 id)) = .write 0 (.ofNat 64 (0x04 + id * 2 ^ 16)) :=
    cmdWrite_eq (op := 0x04) (wc := 0) (f := false) (k := false) rfl (by decide) (by decide) hid
  simp [assemble, opaWrite, asmFits_of_lt hid, asmFits_of_lt hsize, hw]

theorem assemble_linkRetrain {f : Nat} (hf : f < 2) :
    assemble (.linkRetrain f) = some [.write 0 (.ofNat 64 (0x07 + f * 2 ^ 7))] := by
  have hw := cmdWrite_eq (i := .linkRetrain (f == 1)) (op := 0x07) (wc := 0) (imm := 0) rfl (by decide) (by decide)
    (by decide)
  simp [assemble, asmFlag_of_lt hf, hw, toNat_flag hf]

/-- Both lines of LINK_SET_TARGET_SPEED: the speed kind is K (R103). -/
theorem cmdWrite_linkSetTargetSpeed (k : SpeedKind) {f : Nat} (hf : f < 2) :
    cmdWrite (.linkSetTargetSpeed k (f == 1)) =
      .write 0 (.ofNat 64 (0x08 + f * 2 ^ 7 + k.bit.toNat * 2 ^ 8)) := by
  have hw := cmdWrite_eq (i := .linkSetTargetSpeed k (f == 1)) (op := 0x08) (wc := 0) (imm := 0) rfl (by decide)
    (by decide) (by decide)
  simpa [toNat_flag hf] using hw

theorem assemble_setSpeedCode {c f : Nat} (hc : c < 2 ^ 64) (hf : f < 2) :
    assemble (.setSpeedCode c f) = some [.write 2 (.ofNat 64 c), .write 0 (.ofNat 64 (0x08 + f * 2 ^ 7))] := by
  simp [assemble, opaWrite, asmFits_of_lt hc, asmFlag_of_lt hf, cmdWrite_linkSetTargetSpeed .byCode hf, SpeedKind.bit]

theorem assemble_setSpeedGts (x : Quad) {f : Nat} (hf : f < 2) :
    assemble (.setSpeedGts x f) = some [.write 2 x, .write 0 (.ofNat 64 (0x08 + f * 2 ^ 7 + 2 ^ 8))] := by
  simp [assemble, opaWrite, asmFlag_of_lt hf, cmdWrite_linkSetTargetSpeed .bySpeed hf, SpeedKind.bit]

theorem assemble_setControlBits {mask f : Nat} (hmask : mask < 2 ^ 16) (hf : f < 2) :
    assemble (.setControlBits mask f) = some [.write 0 (.ofNat 64 (0x0C + f * 2 ^ 7 + mask * 2 ^ 16))] := by
  have hw := cmdWrite_eq (i := .linkSetControlBits (f == 1) (.ofNat 16 mask)) (op := 0x0C) (wc := 0) rfl (by decide)
    (by decide) hmask
  simp [assemble, asmFlag_of_lt hf, asmFits_of_lt hmask, hw, toNat_flag hf]

theorem assemble_linkWaitForTraining {t p : Nat} (ht : t < 2 ^ 64) (hp : p < 2 ^ 64) :
    assemble (.linkWaitForTraining t p) =
      some [.write 2 (.ofNat 64 t), .write 3 (.ofNat 64 p), .write 0 0x0A#64] := by
  have hw : cmdWrite .linkWaitForTraining = .write 0 0x0A#64 := rfl
  simp [assemble, opaWrite, opbWrite, asmFits_of_lt ht, asmFits_of_lt hp, hw]

theorem assemble_hotReset {d : Nat} (hd : d < 2 ^ 64) :
    assemble (.hotReset d) = some [.write 2 (.ofNat 64 d), .write 0 0x0B#64] := by
  have hw : cmdWrite .hotReset = .write 0 0x0B#64 := rfl
  simp [assemble, opaWrite, asmFits_of_lt hd, hw]

/-! ### Lines that are refused (R109): one operand that does not fit is enough -/

theorem assemble_cfgRead_refused {n off : Nat} (h : n ∉ [1, 2, 4, 8] ∨ 2 ^ 16 ≤ off) :
    assemble (.cfgRead n off) = none := by
  rcases h with h | h
  · simp [assemble, asmWidth_of_notMem h]
  · simp [assemble, asmFits_of_le h]

theorem assemble_cfgWrite_refused {n off v : Nat} (h : (n ∉ [1, 2, 4, 8] ∨ 2 ^ 16 ≤ off) ∨ 2 ^ 64 ≤ v) :
    assemble (.cfgWrite n off v) = none := by
  rcases h with (h | h) | h
  · simp [assemble, asmWidth_of_notMem h]
  · simp [assemble, asmFits_of_le h]
  · simp [assemble, asmFits_of_le h]

theorem assemble_findStdCap_refused {id : Nat} (h : 2 ^ 8 ≤ id) : assemble (.findStdCap id) = none := by
  simp [assemble, asmFits_of_le h]

theorem assemble_findExtCap_refused {id size : Nat} (h : 2 ^ 16 ≤ id ∨ 2 ^ 64 ≤ size) :
    assemble (.findExtCap id size) = none := by
  rcases h with h | h <;> simp [assemble, asmFits_of_le h]

theorem assemble_linkRetrain_refused {f : Nat} (h : 2 ≤ f) : assemble (.linkRetrain f) = none := by
  simp [assemble, asmFlag_of_le h]

theorem assemble_setSpeedCode_refused {c f : Nat} (h : 2 ^ 64 ≤ c ∨ 2 ≤ f) : assemble (.setSpeedCode c f) = none := by
  rcases h with h | h
  · simp [assemble, asmFits_of_le h]
  · simp [assemble, asmFlag_of_le h]

theorem assemble_setSpeedGts_refused (x : Quad) {f : Nat} (h : 2 ≤ f) : assemble (.setSpeedGts x f) = none := by
  simp [assemble, asmFlag_of_le h]

theorem assemble_linkWaitForTraining_refused {t p : Nat} (h : 2 ^ 64 ≤ t ∨ 2 ^ 64 ≤ p) :
    assemble (.linkWaitForTraining t p) = none := by
  rcases h with h | h <;> simp [assemble, asmFits_of_le h]

theorem assemble_hotReset_refused {d : Nat} (h : 2 ^ 64 ≤ d) : assemble (.hotReset d) = none := by
  simp [assemble, asmFits_of_le h]

theorem assemble_setControlBits_refused {mask f : Nat} (h : 2 ^ 16 ≤ mask ∨ 2 ≤ f) :
    assemble (.setControlBits mask f) = none := by
  rcases h with h | h
  · simp [assemble, asmFits_of_le h]
  · simp [assemble, asmFlag_of_le h]

/-- Settles O53, line by line. -/
theorem assembledWords : Obligations.AssembledWords :=
  ⟨fun _ _ hk hoff _ hv => ⟨assemble_cfgRead hk hoff, assemble_cfgWrite hk hoff hv⟩,
    fun _ hid => assemble_findStdCap hid, fun _ hid _ hsize => assemble_findExtCap hid hsize, rfl, rfl, rfl,
    fun _ hf => ⟨assemble_linkRetrain hf, fun _ hc => assemble_setSpeedCode hc hf, fun x => assemble_setSpeedGts x hf,
      fun _ hmask => assemble_setControlBits hmask hf⟩,
    fun _ ht _ hp => ⟨assemble_linkWaitForTraining ht hp, assemble_hotReset ht⟩,
    fun _ _ h => ⟨assemble_cfgRead_refused h, fun _ => assemble_cfgWrite_refused (.inl h)⟩,
    fun _ => rfl, fun _ => ⟨rfl, rfl⟩, fun _ h => assemble_findStdCap_refused h,
    fun _ _ h => assemble_findExtCap_refused h, fun _ h => assemble_linkRetrain_refused h,
    fun _ _ h => assemble_setSpeedCode_refused h, fun x _ h => assemble_setSpeedGts_refused x h,
    fun _ _ _ h => assemble_cfgWrite_refused (.inr h), fun _ _ h => assemble_linkWaitForTraining_refused h,
    fun _ h => assemble_hotReset_refused h, fun _ _ h => assemble_setControlBits_refused h⟩

/-! ### Pseudo-commands (R110) -/

/-- LINK_RETRAIN_AND_WAIT is its two lines with the wait for DONE between them, or is refused with the second. -/
theorem assemble_retrainAndWait (t p : Nat) :
    assemble (.retrainAndWait t p) = (do
      some ((← assemble (.linkRetrain 0)) ++ [.awaitDone] ++ (← assemble (.linkWaitForTraining t p)))) := by
  simp [assemble, asmFlag, Option.bind_assoc]

/-- Settles O54. -/
theorem pseudoCommands : Obligations.PseudoCommands := by
  refine ⟨rfl, fun t p a b ha hb => ?_, fun g => rfl⟩
  rw [assemble_retrainAndWait, ha, hb]
  rfl

end Sys2Proof.Machine
end

section
/-! PROOFS. 40_config_access.md: runs of the machine under a host that issues a command and waits for DONE (R30, R292),
and a value written and read back through it (R142). -/

namespace Sys2Proof.Machine

/-! ### Runs of the machine (R11, R30) -/

/-- Some number of steps of the machine leads from `s` to `t`. -/
def Runs : State → State → Prop := Relation.ReflTransGen fun s t => step s = .next t

theorem Runs.head {s u t : State} (he : step s = .next u) (h : Runs u t) : Runs s t := Relation.ReflTransGen.head he h

theorem core_run_succ {M : Host.Core} {s u : M.State} (h : M.step s = .next u) (k : Nat) :
    M.run (k + 1) s = M.run k u := by
  rw [Host.Core.run, h]

/-- A run of the machine is one of its `core` for a number of steps. -/
theorem Runs.exists_core_run {s t : State} (h : Runs s t) : ∃ k, Sys2Proof.core.run k s = .next t := by
  induction h using Relation.ReflTransGen.head_induction_on with
  | refl => exact ⟨0, rfl⟩
  | head he _ ih =>
    obtain ⟨k, hk⟩ := ih
    exact ⟨k + 1, (core_run_succ (M := Sys2Proof.core) he k).trans hk⟩

/-- A command takes a step only while the sequencer is not IDLE. -/
theorem exec_next_seq_ne_idle {i : Instr} {s t : State} (h : exec i s = .next t) : s.seq ≠ .idle := by
  intro hq
  have hfault : exec i s = .fault .noCommand := by cases i <;> exact atPoint_idle hq
  rw [hfault] at h
  cases h

/-- The state with another schedule of the host (log 9). -/
def State.withHost (s : State) (acts : List HostAct) : State := { s with host := acts }

/-- The command `i` is latched and DONE is 0, so that a host that waits for DONE leaves the turn to it (R292). -/
structure Awaited (i : Instr) (rest : List HostAct) (s : State) : Prop where
  params : paramsLegal s.params = true
  host : s.host = .awaitDone :: rest
  decoded : decode s.lCmd = .ok i
  notDone : statusDone s.status = false

namespace Awaited

variable {i : Instr} {rest : List HostAct} {s t u : State}

theorem step_eq (h : Awaited i rest s) (hq : s.seq ≠ .idle) : step s = exec i s := by
  rw [step_waiting h.params h.host h.notDone, sequencerTurn_decoded hq h.decoded]

/-- A step of the command that does not complete it leaves the host waiting (R21, R22). -/
theorem exec_next (h : Awaited i rest s) (he : exec i s = .next t) (hq : t.seq ≠ .idle) : Awaited i rest t := by
  obtain ⟨-, -, hcmd, -, -, hparams, hhost, -, hlive⟩ := registerFrame i s t he
  refine ⟨hparams ▸ h.params, hhost ▸ h.host, hcmd ▸ h.decoded, ?_⟩
  rw [(hlive hq).1, h.notDone]

/-- While the host waits, a run of the command is a run of the machine. -/
theorem runs (h : Awaited i rest s) (hr : Reaches i s u) (hq : u.seq ≠ .idle) : Runs s u ∧ Awaited i rest u := by
  obtain ⟨n, hn⟩ := hr
  induction n generalizing s with
  | zero => cases hn; exact ⟨.refl, h⟩
  | succ n ih =>
    obtain ⟨v, he, hv⟩ := runExec_next_succ hn
    have hvq : v.seq ≠ .idle := by
      cases n with
      | zero => cases hv; exact hq
      | succ n =>
        obtain ⟨w, hw, -⟩ := runExec_next_succ hv
        exact exec_next_seq_ne_idle hw
    obtain ⟨hrun, hu⟩ := ih (h.exec_next he hvq) hv
    exact ⟨hrun.head ((h.step_eq (exec_next_seq_ne_idle he)).trans he), hu⟩

/-- The wait ends with the completion the command comes to (R250, R251, R292). -/
theorem runs_completed {c : Completion} (h : Awaited i rest s) (hr : Reaches i s u)
    (he : exec i u = .next (complete c u)) : Runs s ((complete c u).withHost rest) := by
  have hq := exec_next_seq_ne_idle he
  obtain ⟨hrun, hu⟩ := h.runs hr hq
  refine (hrun.tail ((hu.step_eq hq).trans he)).tail ?_
  exact step_done (s := complete c u) hu.params hu.host (statusDone_completed _ _)

end Awaited

/-- The host issues the command and waits for DONE, and then goes on with `rest` (R292). -/
def issueThenWait (i : Instr) (rest : List HostAct) : List HostAct :=
  .write 0 ((encode i).setWidth 64) :: .awaitDone :: rest

/-- A host that issues a command and waits for DONE gets the completion that the command comes to from its issue (R21,
R292), under the same parameters. -/
theorem runs_issueThenWait {i : Instr} {rest : List HostAct} {s u : State} {c : Completion}
    (hp : paramsLegal s.params = true) (hb : statusBusy s.status = false) (hi : i.wellFormed = true)
    (hh : s.host = issueThenWait i rest) (hr : Reaches i (issue (encode i) (s.withHost (.awaitDone :: rest))) u)
    (he : exec i u = .next (complete c u)) :
    Runs s ((complete c u).withHost rest) ∧ u.params = s.params := by
  have hissue : hostWrite 0 ((encode i).setWidth 64) (s.withHost (.awaitDone :: rest)) =
      issue (encode i) (s.withHost (.awaitDone :: rest)) := by
    rw [hostWrite_cmd_idle (s := s.withHost (.awaitDone :: rest)) _ hb]
    simp
  have hawait : Awaited i rest (issue (encode i) (s.withHost (.awaitDone :: rest))) :=
    ⟨hp, rfl, decodeEncodeAgree i hi, statusDone_issued _⟩
  exact ⟨(hawait.runs_completed hr he).head ((step_write hp hh).trans (congrArg _ hissue)), hr.frame.2.1⟩

/-! ### The value of a checked access, at every width (R63, R67, R68) -/

/-- The bytes after CFG_WRITE of `v` (R68): at 8 bytes two words, the low one at the lower offset. -/
def Memory.storeValue (m : Memory) (off : Nat) (n : Width) (v : Quad) : Memory :=
  if n = .w8 then (m.writeLE off 4 (v.setWidth 32)).writeLE (off + 4) 4 (v.extractLsb' 32 32)
  else m.writeLE off n.bytes (v.setWidth 32)

/-- The value CFG_READ finishes with (R67). -/
def Memory.loadValue (m : Memory) (off : Nat) (n : Width) : Quad :=
  if n = .w8 then m.readLE (off + 4) 4 ++ m.readLE off 4 else (m.readLE off n.bytes).setWidth 64

/-- A 64-bit value is its two words, the high one first. -/
theorem append_extractLsb'_setWidth (v : Quad) : v.extractLsb' 32 32 ++ v.setWidth 32 = v := by
  rw [BitVec.setWidth_eq_extractLsb' (by omega), BitVec.extractLsb'_append_extractLsb'_eq_extractLsb' (by omega)]
  exact BitVec.extractLsb'_eq_self

/-- A value in range reads back as it was stored, at every width (R63, R142). -/
theorem Memory.loadValue_storeValue {m : Memory} (hm : Memory.wf m = true) (off : Nat) {n : Width} {v : Quad}
    (hv : v.toNat < 2 ^ (8 * n.bytes)) : (m.storeValue off n v).loadValue off n = v := by
  by_cases hn : n = .w8
  · simp only [Memory.storeValue, Memory.loadValue, if_pos hn]
    rw [Memory.readLE_writeLE_of_lt (Memory.wf_writeLE _ _ _ hm) _ _ (Nat.le_refl 4) (BitVec.isLt _),
      Memory.readLE_writeLE_disjoint _ _ (by omega),
      Memory.readLE_writeLE_of_lt hm _ _ (Nat.le_refl 4) (BitVec.isLt _), append_extractLsb'_setWidth]
  · have hle := Width.bytes_le_of_narrow hn
    have hpow : 2 ^ (8 * n.bytes) ≤ 2 ^ 32 := Nat.pow_le_pow_right (by omega) (by omega)
    have hlow : (v.setWidth 32).toNat = v.toNat := by
      rw [BitVec.toNat_setWidth, Nat.mod_eq_of_lt (by omega)]
    simp only [Memory.storeValue, Memory.loadValue, if_neg hn]
    rw [Memory.readLE_writeLE_of_lt hm off _ hle (hlow ▸ hv)]
    refine BitVec.eq_of_toNat_eq ?_
    rw [BitVec.toNat_setWidth, hlow, Nat.mod_eq_of_lt v.isLt]

/-! ### Runs of CFG_READ and CFG_WRITE on the ideal port (R67, R68, R80) -/

section CfgAccessRuns

variable {n : Width} {off : Half} {s : State}

theorem stands_self (hp : idealPort s) : Stands s s.cs s := ⟨hp, rfl, rfl, rfl⟩

/-- An aligned CFG_READ comes to OK with the value its bytes hold, and changes none of them (R67, R140). -/
theorem cfgRead_runs_ideal (hq : s.seq = .run .start) (hp : idealPort s) (ha : aligned off.toNat n.bytes = true) :
    ∃ u, Reaches (.cfgRead n off) s u ∧ Stands s s.cs u ∧
      u.seq = .run (.complete (.finishOk (s.cs.loadValue off.toNat n) 0#64)) := by
  have hs := stands_self hp
  by_cases hn : n = .w8
  · subst hn
    have hlow := exec_cfgRead_start_low (off := off) hq
    rw [checked_aligned (n := 8) ha, withTransaction_ok (answerTo_read_ok hs.reply), hs.seenCs] at hlow
    have hs1 := (hs.afterRead off.toNat 4).goto (.readHigh (s.cs.readLE off.toNat 4))
    have hhigh := exec_cfgRead_readHigh (off := off)
      (goto_seq (.readHigh (s.cs.readLE off.toNat 4)) (afterTransaction (.read off.toNat 4) s))
    rw [withTransaction_ok (answerTo_read_ok hs1.reply), hs1.seenCs] at hhigh
    exact ⟨_, .head hlow (.step hhigh), (hs1.afterRead _ _).goto _, rfl⟩
  · have hread := exec_cfgRead_start (off := off) hq hn
    rw [cfgReadThen_ok ha hs.reply, hs.seenCs] at hread
    exact ⟨_, .step hread, (hs.afterRead _ _).goto _, by simp [Memory.loadValue, hn]⟩

/-- An aligned CFG_WRITE of a value in range comes to OK with the value in its bytes (R68, R141). -/
theorem cfgWrite_runs_ideal (hq : s.seq = .run .start) (hp : idealPort s) (ha : aligned off.toNat n.bytes = true)
    (hv : s.lOpa.toNat < 2 ^ (8 * n.bytes)) :
    ∃ u, Reaches (.cfgWrite n off) s u ∧ Stands s (s.cs.storeValue off.toNat n s.lOpa) u ∧
      u.seq = .run (.complete (.finishOk 0#64 0#64)) := by
  have hs := stands_self hp
  have hfirst := exec_cfgWrite_start_ok hq ha (by simp [valueFits, hv]) hs.reply
  by_cases hn : n = .w8
  · subst hn
    have hs1 := (hs.afterWrite off.toNat 4 (s.lOpa.setWidth 32)).goto .writeHigh
    have hsecond := exec_cfgWrite_writeHigh (off := off)
      (goto_seq .writeHigh (afterTransaction (.write off.toNat 4 (s.lOpa.setWidth 32)) s))
    rw [withTransaction_ok (answerTo_write_ok hs1.reply)] at hsecond
    exact ⟨_, .head hfirst (.step hsecond), (hs1.afterWrite _ _ _).goto _, rfl⟩
  · rw [if_neg hn, Nat.min_eq_left (Width.bytes_le_of_narrow hn)] at hfirst
    refine ⟨_, .step hfirst, ?_, rfl⟩
    rw [Memory.storeValue, if_neg hn]
    exact (hs.afterWrite _ _ _).goto _

end CfgAccessRuns

/-! ### A value written and read back (R142) -/

section WriteThenRead

variable {n : Width} {off : Half} {s : State}

/-- The host's schedule once OPA is written: CFG_WRITE and then CFG_READ at the same place, each waited for (R142). -/
def writeThenReadActs (n : Width) (off : Half) : List HostAct :=
  issueThenWait (.cfgWrite n off) (issueThenWait (.cfgRead n off) [])

/-- At an aligned offset the two commands end OK with the value of OPA, when it is in range (R142). -/
theorem writeThenRead_aligned (hp : paramsLegal s.params = true) (hport : idealPort s) (hwf : Memory.wf s.cs = true)
    (hb : statusBusy s.status = false) (hv : s.opa.toNat < 2 ^ (8 * n.bytes))
    (hh : s.host = writeThenReadActs n off) (ha : aligned off.toNat n.bytes = true) :
    ∃ u, Runs s ((complete (.finishOk s.opa 0#64) u).withHost []) := by
  obtain ⟨u, hu, hstands, hend⟩ := cfgWrite_runs_ideal (n := n) (off := off)
    (s := issue (encode (.cfgWrite n off)) (s.withHost (.awaitDone :: issueThenWait (.cfgRead n off) [])))
    rfl hport ha hv
  obtain ⟨hwrite, hparams⟩ := runs_issueThenWait hp hb rfl hh hu (exec_complete hend)
  obtain ⟨w, hw, -, hend'⟩ := cfgRead_runs_ideal (n := n) (off := off)
    (s := issue (encode (.cfgRead n off)) ((complete (.finishOk 0#64 0#64) u).withHost [.awaitDone]))
    rfl hstands.port ha
  obtain ⟨hread, -⟩ := runs_issueThenWait
    (s := (complete (.finishOk 0#64 0#64) u).withHost (issueThenWait (.cfgRead n off) []))
    (hparams ▸ hp) (statusBusy_completed _ _) rfl rfl hw (exec_complete hend')
  have hvalue : u.cs.loadValue off.toNat n = s.opa := by
    rw [hstands.bytes]
    exact Memory.loadValue_storeValue hwf _ hv
  exact ⟨w, hwrite.trans (hvalue ▸ hread)⟩

/-- At a misaligned offset a command completes at its first step, from the state its issue leaves (R65). -/
theorem runs_misaligned {i : Instr} {rest : List HostAct} (hi : i = .cfgRead n off ∨ i = .cfgWrite n off)
    (hp : paramsLegal s.params = true) (hb : statusBusy s.status = false) (hh : s.host = issueThenWait i rest)
    (ha : aligned off.toNat n.bytes = false) :
    ∃ u, Runs s ((complete (.raised (.alignmentViolation off.toNat)) u).withHost rest) ∧ u.params = s.params ∧
      u.cs = s.cs ∧ u.log = s.log := by
  have hwf : i.wellFormed = true := by rcases hi with rfl | rfl <;> rfl
  exact ⟨_, (runs_issueThenWait hp hb hwf hh (.refl _ _) (exec_cfgAccess_misaligned hi rfl ha)).1, rfl, rfl, rfl⟩

/-- At a misaligned offset the two commands record their completions and nothing else (R65, R142). -/
theorem writeThenRead_misaligned (hp : paramsLegal s.params = true) (hb : statusBusy s.status = false)
    (hh : s.host = writeThenReadActs n off) (ha : aligned off.toNat n.bytes = false) :
    ∃ u, Runs s ((complete (.raised (.alignmentViolation off.toNat)) u).withHost []) ∧ u.cs = s.cs ∧
      u.log = .completion (.raised (.alignmentViolation off.toNat)) :: s.log := by
  obtain ⟨u, hwrite, hparams, hcs, hlog⟩ := runs_misaligned (.inr rfl) hp hb hh ha
  obtain ⟨w, hread, -, hcs', hlog'⟩ := runs_misaligned (i := .cfgRead n off) (rest := []) (.inl rfl)
    (s := (complete (.raised (.alignmentViolation off.toNat)) u).withHost (issueThenWait (.cfgRead n off) []))
    (hparams ▸ hp) (statusBusy_completed _ _) rfl ha
  exact ⟨w, hwrite.trans hread, hcs'.trans hcs, hlog'.trans (congrArg _ hlog)⟩

end WriteThenRead

/-- A completion with nothing left in the host's schedule ends the run (R294). -/
theorem runEnded_complete (c : Completion) (s : State) : runEnded ((complete c s).withHost []) = true := by
  simp [runEnded_iff, State.withHost]

/-- Settles O28: past the write of OPA, by whether the offset is aligned (R65). -/
theorem writeThenReadBack : Obligations.WriteThenReadBack := by
  intro n off v s hp hport hwf _ hb hv hh
  have hopa : step s = .next { s with opa := v, host := writeThenReadActs n off } := step_write hp hh
  by_cases ha : off.toNat % min n.bytes 4 = 0
  · obtain ⟨u, hrun⟩ := writeThenRead_aligned (s := { s with opa := v, host := writeThenReadActs n off })
      hp hport hwf hb hv rfl (by simpa [aligned] using ha)
    obtain ⟨k, hk⟩ := (hrun.head hopa).exists_core_run
    exact ⟨k, _, hk, rfl, runEnded_complete _ u, fun _ => ⟨statusCode_completed _ _, rfl⟩, fun h => absurd ha h⟩
  · obtain ⟨u, hrun, hcs, hlog⟩ := writeThenRead_misaligned
      (s := { s with opa := v, host := writeThenReadActs n off }) hp hb rfl (by simpa [aligned] using ha)
    obtain ⟨k, hk⟩ := (hrun.head hopa).exists_core_run
    exact ⟨k, _, hk, rfl, runEnded_complete _ u, fun h => absurd h ha,
      fun _ => ⟨statusCode_completed _ _, BitVec.ofNat_toNat 32 off, hcs, congrArg _ hlog⟩⟩

end Sys2Proof.Machine
end

section
/-! PROOFS. 41_capability_walker.md: how many steps a command that does not wait has left at each program point (R163,
R170, R303). Every step of it completes or lowers that number, so the whole command is bounded by its number at the
start of decoding. -/

namespace Sys2Proof.Machine

/-! ### A port that answers (R303) -/

/-- The port answers every transaction still to come. -/
structure Answers (p : Port) : Prop where
  tail : p.tail = .ideal
  script : ∀ e ∈ p.script, e.reply ≠ .silent

theorem Answers.event {p : Port} (h : Answers p) : p.event.reply ≠ .silent := by
  match hs : p.script with
  | e :: _ => simpa [Port.event, hs] using h.script e (by simp [hs])
  | [] =>
    rw [Port.event_ideal hs h.tail]
    exact nofun

theorem Answers.advance {p : Port} (h : Answers p) : Answers p.advance := by
  match hs : p.script with
  | e :: es =>
    rw [show p.advance = { p with script := es } by simp [Port.advance, hs]]
    exact ⟨h.tail, fun e' he => h.script e' (by simp [hs, he])⟩
  | [] =>
    rw [Port.advance_ideal hs h.tail]
    exact h

theorem answers_of_idealPort {s : State} (h : idealPort s) : Answers s.port := ⟨h.2, by simp [h.1]⟩

/-- A step of a command uses one event of the port or none (R11). -/
theorem exec_answers {i : Instr} {s t : State} (he : exec i s = .next t) (h : Answers s.port) : Answers t.port := by
  cases exec_shape he with
  | completes c cur trip e => rw [e]; exact h
  | transacts tr ht _ _ _ =>
    obtain ⟨q, cur, trip, base, v, rfl⟩ := ht
    exact h.advance
  | samples q d e => rw [e]; exact h
  | sleeps wake p _ e =>
    obtain ⟨now, q, l, -, e'⟩ := sleepTurn_frame wake p s
    rw [e, e']
    exact h

/-! ### The steps left -/

/-- The most reads a standard walk has left at one of its points (R160, R163). -/
def walkReadsLeft (w : WalkPoint) (s : State) : Nat :=
  match w with
  | .status => s.params.stdTripLimit + 3
  | .header => s.params.stdTripLimit + 2
  | .pointer _ => s.params.stdTripLimit + 1
  | .entry => s.trip + 1

/-- The most steps left once the walk at `site` has found its capability: the completion of FIND_STD_CAP (R166), at
most the rest of LINK_SET_TARGET_SPEED with its second walk for the link commands (R196), and at most the rest of LINK_RETRAIN
for that second walk (R194). -/
def stepsAfterWalk (i : Instr) (site : Site) (s : State) : Nat :=
  match site with
  | .retrain => 5
  | .main =>
    match i with
    | .findStdCap _ => 1
    | _ => walkReadsLeft .status s + 8

/-- The most steps a command that does not wait has left at a program point, while the port answers (R303). No such
command comes to the last two points, so their number says nothing. -/
def stepsLeft (i : Instr) (p : Point) (s : State) : Nat :=
  match p with
  | .start =>
    match i with
    | .cfgRead _ _ | .cfgWrite _ _ => 3
    | .findExtCap _ => extTripLimit s.params.extTrip s.lOpa.toNat + 1
    | _ => walkReadsLeft .status s + stepsAfterWalk i .main s
  | .walk site w => walkReadsLeft w s + stepsAfterWalk i site s
  | .extEntry => s.trip + 2
  | .version => walkReadsLeft .status s + 8
  | .speedRead => walkReadsLeft .status s + 7
  | .speedWrite => walkReadsLeft .status s + 6
  | .rmwRead => 5
  | .rmwWrite => 4
  | .clearRead => 3
  | .clearWrite | .statusRead | .readHigh _ | .writeHigh => 2
  | .complete _ => 1
  | .deadlineCheck | .sleepStart => 2

theorem stepsAfterWalk_pos (i : Instr) (site : Site) (s : State) : 1 ≤ stepsAfterWalk i site s := by
  cases site
  case retrain => simp [stepsAfterWalk]
  case main => cases i <;> simp [stepsAfterWalk]

theorem walkReadsLeft_pos (w : WalkPoint) (s : State) : 1 ≤ walkReadsLeft w s := by
  cases w <;> simp only [walkReadsLeft] <;> omega

/-- A completion is the last step, and at every other point there is one more to come. -/
theorem one_lt_stepsLeft (i : Instr) {p : Point} (hp : ∀ c, p ≠ .complete c) (s : State) : 1 < stepsLeft i p s := by
  have hwalk : ∀ site w, 1 < walkReadsLeft w s + stepsAfterWalk i site s := fun site w =>
    Nat.add_le_add (walkReadsLeft_pos w s) (stepsAfterWalk_pos i site s)
  cases p
  case complete c => exact absurd rfl (hp c)
  case walk site w => exact hwalk site w
  case start =>
    cases i
    case cfgRead | cfgWrite => simp [stepsLeft]
    case findExtCap => exact Nat.succ_lt_succ (extTripLimit_pos _ _)
    all_goals exact hwalk .main .status
  all_goals simp [stepsLeft]

theorem stepsLeft_pos (i : Instr) (p : Point) (s : State) : 1 ≤ stepsLeft i p s := by
  by_cases hp : ∃ c, p = .complete c
  · obtain ⟨c, rfl⟩ := hp
    exact Nat.le_refl 1
  · exact (one_lt_stepsLeft i (fun c e => hp ⟨c, e⟩) s).le

/-- `t` shows its completion, or has fewer than `n` steps of `i` left. -/
def Nearer (i : Instr) (n : Nat) (t : State) : Prop :=
  (t.seq = .idle ∧ statusDone t.status = true) ∨ ∃ p, t.seq = .run p ∧ stepsLeft i p t < n

theorem Nearer.mono {i : Instr} {m n : Nat} {t : State} (h : Nearer i m t) (hmn : m ≤ n) : Nearer i n t :=
  h.imp_right fun ⟨p, hp, hlt⟩ => ⟨p, hp, Nat.lt_of_lt_of_le hlt hmn⟩

section Steps

variable {i : Instr} {n : Nat} {s : State}

theorem nearer_complete (c : Completion) : Nearer i n (complete c s) := .inl ⟨rfl, statusDone_completed _ _⟩

theorem nearer_goto {p : Point} (h : stepsLeft i p s < n) : Nearer i n (goto p s) := .inr ⟨p, rfl, h⟩

/-! ### One step of each operation, on a port that answers -/

theorem withTransaction_nearer {tr : Transaction} {k : Word → State → State} (hr : s.port.event.reply ≠ .silent)
    (hn : 1 < n) (hk : ∀ v, Nearer i n (k v (afterTransaction tr s))) : Nearer i n (withTransaction tr s k) := by
  rcases withTransaction_cases tr s k with ⟨v, -, -, e⟩ | ⟨kind, left, -, e⟩ | ⟨hs, -⟩
  · rw [e]; exact hk v
  · rw [e]; exact nearer_goto hn
  · exact absurd hs hr

theorem checked_nearer {off m : Nat} {go : State} (h : Nearer i n go) : Nearer i n (checked off m s go) := by
  unfold checked
  split
  · exact h
  · exact nearer_complete _

theorem cfgReadThen_nearer {off m : Nat} {k : Word → State → State} (hr : s.port.event.reply ≠ .silent) (hn : 1 < n)
    (hk : ∀ v, Nearer i n (k v (afterTransaction (.read off m) s))) : Nearer i n (cfgReadThen off m s k) :=
  checked_nearer (withTransaction_nearer hr hn hk)

theorem cfgWriteThen_nearer {off m : Nat} {v : Word} {k : State → State} (hr : s.port.event.reply ≠ .silent)
    (hn : 1 < n) (hk : Nearer i n (k (afterTransaction (.write off m v) s))) : Nearer i n (cfgWriteThen off m v s k) :=
  checked_nearer (withTransaction_nearer hr hn fun _ => hk)

theorem rmwReadThen_nearer {off : Nat} {after : Point} (hr : s.port.event.reply ≠ .silent)
    (h : stepsLeft i after s < n) : Nearer i n (rmwReadThen off after s) :=
  cfgReadThen_nearer hr (Nat.lt_of_le_of_lt (stepsLeft_pos i after s) h) fun _ => nearer_goto h

theorem rmwWriteThen_nearer {off : Nat} {set clr : Half} {k : State → State} (hr : s.port.event.reply ≠ .silent)
    (hn : 1 < n) (hk : ∀ tr, Nearer i n (k (afterTransaction tr s))) : Nearer i n (rmwWriteThen off set clr s k) :=
  cfgWriteThen_nearer hr hn (hk _)

/-- The head of the standard loop spends a trip, or ends the walk (R160). -/
theorem stdHead_nearer {site : Site} (h : s.trip + stepsAfterWalk i site s < n) :
    Nearer i n (stdHead (.walk site) s) := by
  have hpos := stepsAfterWalk_pos i site s
  obtain ⟨m, e | ⟨ht, -, e⟩⟩ := stdHead_cases (.walk site) s <;> rw [e]
  · exact nearer_goto (show 1 < n by omega)
  · exact nearer_goto (show m + 1 + stepsAfterWalk i site s < n by omega)

/-- The head of the extended loop spends a trip, or ends the walk (R167). -/
theorem extHead_nearer {size : Nat} (h : s.trip + 1 < n) : Nearer i n (extHead size s) := by
  obtain ⟨m, e | ⟨ht, -, e⟩⟩ := extHead_cases size s <;> rw [e]
  · exact nearer_goto (show 1 < n by omega)
  · exact nearer_goto (show m + 2 < n by omega)

/-- Each read of the standard walk leaves one read fewer, or ends it (R163). -/
theorem findStd_nearer {id : Byte} {site : Site} {found : State → State} {w : WalkPoint}
    (hr : s.port.event.reply ≠ .silent)
    (hf : ∀ tr, Nearer i (stepsAfterWalk i site s + 1) (found (afterTransaction tr s))) :
    Nearer i (stepsLeft i (.walk site w) s) (findStd id (.walk site) found w s) := by
  have hpos := one_lt_stepsLeft i (p := .walk site w) (by simp) s
  cases w <;> refine cfgReadThen_nearer hr hpos fun v => ?_
  case status =>
    split
    · exact nearer_goto (Nat.add_lt_add_right (Nat.lt_succ_self _) _)
    · exact nearer_goto hpos
  case header =>
    split
    · exact nearer_goto (Nat.add_lt_add_right (Nat.lt_succ_self _) _)
    · exact nearer_goto hpos
  case pointer pp =>
    split
    · exact nearer_goto hpos
    · exact stdHead_nearer (Nat.add_lt_add_right (Nat.lt_succ_self _) _)
  case entry =>
    split
    · exact nearer_goto hpos
    · split
      · exact (hf _).mono (show _ ≤ s.trip + 1 + stepsAfterWalk i site s by omega)
      · exact stdHead_nearer (Nat.add_lt_add_right (Nat.lt_succ_self _) _)

theorem findPcie_nearer {site : Site} {after : Point} {w : WalkPoint} (hr : s.port.event.reply ≠ .silent)
    (h : stepsLeft i after s ≤ stepsAfterWalk i site s) :
    Nearer i (stepsLeft i (.walk site w) s) (findPcie site after w s) :=
  findStd_nearer hr fun _ => nearer_goto (Nat.lt_succ_of_le h)

theorem extRead_nearer {size : Nat} {id : Half} (hr : s.port.event.reply ≠ .silent) :
    Nearer i (s.trip + 2) (extRead size id s) := by
  refine cfgReadThen_nearer hr (by omega) fun v => ?_
  have hend : 1 < s.trip + 2 := by omega
  split
  · exact nearer_goto hend
  · split
    · exact nearer_goto hend
    · split
      · exact nearer_goto hend
      · exact extHead_nearer (Nat.lt_succ_self _)

theorem extStart_nearer {size : Nat} {id : Half} (hr : s.port.event.reply ≠ .silent) :
    Nearer i (extTripLimit s.params.extTrip size + 1) (extStart size id s) := by
  rcases extStart_cases size id s with ⟨c, m, e⟩ | ⟨m, -, hm, e⟩ <;> rw [e]
  · exact nearer_complete _
  · rw [hm]
    exact extRead_nearer (s := goto .extEntry { s with cur := 256, trip := m }) hr

/-! ### One step of each command -/

variable {p : Point} {t : State}

/-- A command that stands at a point of its own does what the point says, or the completion that comes next. -/
theorem atPoint_nearer {f : Point → Host.Outcome State Fault Refusal} (hq : s.seq = .run p) (h : atPoint s f = .next t)
    (hf : 1 < stepsLeft i p s → f p = .next t → Nearer i n t) : Nearer i n t := by
  by_cases hc : ∃ c, p = .complete c
  · obtain ⟨c, rfl⟩ := hc
    rw [atPoint_complete hq] at h
    cases h
    exact nearer_complete c
  · have hp : ∀ c, p ≠ .complete c := fun c e => hc ⟨c, e⟩
    rw [atPoint_run hq hp] at h
    exact hf (one_lt_stepsLeft i hp s) h

/-- The commands of one Link Control read-modify-write begin with a walk; `last` comes after their write. -/
theorem linkRmw_nearer {set clr : Half} {last : State → State} (hr : s.port.event.reply ≠ .silent)
    (hstart : stepsLeft i .start s = stepsLeft i (.walk .main .status) s)
    (hafter : stepsLeft i .rmwRead s ≤ stepsAfterWalk i .main s) (h : linkRmw set clr last p s = .next t)
    (hl : ∀ tr, Nearer i (stepsLeft i .rmwWrite s) (last (afterTransaction tr s))) : Nearer i (stepsLeft i p s) t := by
  unfold linkRmw at h
  split at h <;> cases h
  · rw [hstart]; exact findPcie_nearer hr hafter
  · exact findPcie_nearer hr hafter
  · exact rmwReadThen_nearer hr (Nat.lt_succ_self _)
  · exact rmwWriteThen_nearer hr (by simp [stepsLeft]) hl

theorem stepsLeft_clearPoint (m : ClearMode) (i : Instr) (s : State) : stepsLeft i (clearPoint m) s < 4 := by
  cases m <;> simp [clearPoint, stepsLeft]

/-- What follows the walk of a link command fits the steps after it. -/
theorem le_linkStepsAfterWalk {m : Nat} (hm : m ≤ 8) : m ≤ walkReadsLeft .status s + 8 := Nat.le_add_left_of_le hm

/-- One step of a command that does not wait, while the port answers, completes it or leaves fewer steps. -/
theorem exec_nearer (hw : i ≠ .linkWaitForTraining) (hh : i ≠ .hotReset) (hr : s.port.event.reply ≠ .silent)
    (hq : s.seq = .run p) (h : exec i s = .next t) : Nearer i (stepsLeft i p s) t := by
  have hrmw : stepsLeft i .rmwRead s ≤ walkReadsLeft .status s + 8 := le_linkStepsAfterWalk (by simp [stepsLeft])
  cases i with
  | cfgRead m off =>
    refine atPoint_nearer hq h fun hn hp => ?_
    split at hp <;> cases hp
    · exact checked_nearer (withTransaction_nearer hr hn fun _ => nearer_goto (Nat.lt_succ_self 2))
    · exact cfgReadThen_nearer hr hn fun _ => nearer_goto hn
    · exact withTransaction_nearer hr hn fun _ => nearer_goto hn
  | cfgWrite m off =>
    refine atPoint_nearer hq h fun hn hp => ?_
    split at hp <;> cases hp
    · refine checked_nearer ?_
      split
      · refine withTransaction_nearer hr hn fun _ => ?_
        split
        · exact nearer_goto (Nat.lt_succ_self 2)
        · exact nearer_goto hn
      · exact nearer_complete _
    · exact withTransaction_nearer hr hn fun _ => nearer_goto hn
  | findStdCap imm =>
    refine atPoint_nearer hq h fun _ hp => ?_
    split at hp <;> cases hp <;> exact findStd_nearer hr fun _ => nearer_goto (Nat.lt_succ_self 1)
  | findExtCap imm =>
    refine atPoint_nearer hq h fun _ hp => ?_
    split at hp <;> cases hp
    · exact extStart_nearer hr
    · exact extRead_nearer hr
  | linkEnable | linkDisable | linkSetControlBits =>
    exact atPoint_nearer hq h fun _ hp => linkRmw_nearer hr rfl hrmw hp fun _ => nearer_goto (by simp [stepsLeft])
  | linkRetrain f =>
    refine atPoint_nearer hq h fun hn hp => ?_
    split at hp
    · cases hp; exact rmwReadThen_nearer hr (Nat.lt_succ_self 2)
    · cases hp; exact rmwWriteThen_nearer hr hn fun _ => nearer_goto hn
    · refine linkRmw_nearer hr rfl hrmw hp fun tr => ?_
      split
      · exact nearer_goto (stepsLeft_clearPoint ..)
      · exact nearer_goto (by simp [stepsLeft])
  | linkSetTargetSpeed k f =>
    refine atPoint_nearer hq h fun hn hp => ?_
    split at hp
    · cases hp; exact nearer_complete _
    · split at hp <;> cases hp
      · exact findPcie_nearer hr (Nat.le_refl _)
      · exact findPcie_nearer hr (Nat.le_refl _)
      · refine cfgReadThen_nearer hr hn fun _ => ?_
        split
        · exact nearer_goto hn
        · exact nearer_goto (Nat.lt_succ_self _)
      · exact rmwReadThen_nearer hr (Nat.lt_succ_self _)
      · refine cfgWriteThen_nearer hr hn ?_
        split
        · exact nearer_goto (Nat.lt_succ_self _)
        · exact nearer_goto hn
      · exact findPcie_nearer hr (Nat.le_refl _)
      · exact rmwReadThen_nearer hr (Nat.lt_succ_self 4)
      · exact rmwWriteThen_nearer hr hn fun _ => nearer_goto hn
  | linkReadStatus =>
    have hafter := le_linkStepsAfterWalk (s := s) (show 2 ≤ 8 by decide)
    refine atPoint_nearer hq h fun hn hp => ?_
    split at hp <;> cases hp
    · exact findPcie_nearer hr hafter
    · exact findPcie_nearer hr hafter
    · exact cfgReadThen_nearer hr hn fun _ => nearer_goto hn
  | linkWaitForTraining => exact absurd rfl hw
  | hotReset => exact absurd rfl hh

end Steps

/-! ### Whole commands (R303) -/

/-- A command that does not wait is IDLE with DONE = 1 within its number of steps, while the port answers. -/
theorem terminates {i : Instr} {n : Nat} {s : State} {p : Point} (hw : i ≠ .linkWaitForTraining) (hh : i ≠ .hotReset)
    (hprog : OnProgram i s) (hport : Answers s.port) (hq : s.seq = .run p) (hn : stepsLeft i p s ≤ n) :
    ∃ k t, k ≤ n ∧ runExec i k s = .next t ∧ t.seq = .idle ∧ statusDone t.status = true := by
  induction n generalizing s p with
  | zero => exact absurd (stepsLeft_pos i p s) (Nat.not_lt_of_le hn)
  | succ n ih =>
    obtain ⟨u, he, hu⟩ := exec_onProgram hprog (by simp [hq])
    rcases exec_nearer hw hh hport.event hq he with ⟨hidle, hdone⟩ | ⟨p', hq', hlt⟩
    · exact ⟨1, u, Nat.le_add_left 1 n, runExec_succ he, hidle, hdone⟩
    · obtain ⟨k, t, hk, hrun, hend⟩ := ih hu (exec_answers he hport) hq' (by omega)
      exact ⟨k + 1, t, Nat.succ_le_succ hk, (runExec_succ he).trans hrun, hend⟩

/-- The same from the start of decoding, which is a point of every command (R105). -/
theorem terminates_from_start {i : Instr} {s : State} (hw : i ≠ .linkWaitForTraining) (hh : i ≠ .hotReset)
    (hport : Answers s.port) (hq : s.seq = .run .start) :
    ∃ k t, k ≤ stepsLeft i .start s ∧ runExec i k s = .next t ∧ t.seq = .idle ∧ statusDone t.status = true := by
  have hprog : OnProgram i s := by
    simp only [OnProgram, hq]
    exact ⟨rfl, rfl⟩
  exact terminates hw hh hprog hport hq (Nat.le_refl _)

/-- The bound of R303 covers the start of every command. -/
theorem stepsLeft_start_le (i : Instr) (s : State) :
    stepsLeft i .start s ≤
      2 * (3 + s.params.stdTripLimit) + extTripLimit s.params.extTrip s.lOpa.toNat + 8 := by
  cases i <;> simp only [stepsLeft, stepsAfterWalk, walkReadsLeft] <;> omega

/-- Settles O59, by the number of steps left at the start of decoding. -/
theorem commandsTerminate : Obligations.CommandsTerminate := by
  intro i s hw hh hq htail hscript
  obtain ⟨k, t, hk, hrun, hidle, hdone⟩ := terminates_from_start hw hh ⟨htail, hscript⟩ hq
  exact ⟨k, t, hk.trans (stepsLeft_start_le i s), hrun, hidle, hdone⟩

end Sys2Proof.Machine
end

section
/-! PROOFS. 41_capability_walker.md: FIND_STD_CAP and FIND_EXT_CAP on the ideal port are the walks of R160 and R167 in
one go. The run says where the command ends, the steps left at its start (R163, R170) say how soon. -/

namespace Sys2Proof.Machine

/-! ### A run to a completion within the steps left -/

/-- A command is IDLE after one number of steps only, since it takes no step from there. -/
theorem runExec_idle_unique {i : Instr} {m n : Nat} {s t u : State} (ht : t.seq = .idle) (hu : u.seq = .idle)
    (hm : runExec i m s = .next t) (hn : runExec i n s = .next u) : m = n ∧ t = u := by
  induction m generalizing n s with
  | zero =>
    cases hm
    cases n with
    | zero => cases hn; exact ⟨rfl, rfl⟩
    | succ n =>
      obtain ⟨v, he, -⟩ := runExec_next_succ hn
      exact absurd ht (exec_next_seq_ne_idle he)
  | succ m ih =>
    obtain ⟨v, he, hv⟩ := runExec_next_succ hm
    cases n with
    | zero =>
      cases hn
      exact absurd hu (exec_next_seq_ne_idle he)
    | succ n =>
      rw [runExec_succ he] at hn
      obtain ⟨rfl, rfl⟩ := ih hv hn
      exact ⟨rfl, rfl⟩

/-- A run of a command that does not wait comes to its completion within the steps left at the start. -/
theorem completed_within {i : Instr} {s u : State} {c : Completion} (h : Reaches i s (complete c u))
    (hw : i ≠ .linkWaitForTraining) (hh : i ≠ .hotReset) (hq : s.seq = .run .start) (hp : idealPort s) :
    ∃ k t, k ≤ stepsLeft i .start s ∧ runExec i k s = .next t ∧ t.cs = u.cs ∧
      Completed s t c.code.bits (ioKindBits c.kind) c.res c.res2 c.addr := by
  obtain ⟨n, hn⟩ := h
  obtain ⟨k, t, hk, hrun, hidle, -⟩ := terminates_from_start hw hh (answers_of_idealPort hp) hq
  obtain ⟨rfl, rfl⟩ := runExec_idle_unique hidle rfl hrun hn
  obtain ⟨hb, hd, hpf, hrest⟩ := completed_complete c u
  exact ⟨k, _, hk, hrun, rfl, hb, hd, (Reaches.frame ⟨k, hn⟩).2.2, hrest⟩

/-! ### FIND_STD_CAP (R160, R166) -/

/-- How FIND_STD_CAP completes for what the walk gives (R165, R166). -/
def stdCompletion : Option Nat → Completion
  | some off => .finishOk (.ofNat 64 off) 0#64
  | none => .finishNotFound

/-- Where FIND_STD_CAP's walk ends, the completion of its result comes next. -/
theorem WalkEnd.completes {i : Instr} {s t : State} {m : Memory} {r : Option Nat}
    (h : WalkEnd s m (fun t => finishNext (.ofNat 64 t.cur) 0#64 t) r t) :
    Stands s m t ∧ exec i t = .next (complete (stdCompletion r) t) := by
  cases h with
  | found h hc => exact ⟨h.goto _, exec_complete (by rw [← hc]; rfl)⟩
  | absent h => exact ⟨h.goto _, exec_complete rfl⟩

/-- FIND_STD_CAP comes to the completion of the walk over its bytes. -/
theorem findStdCap_runs (imm : Half) {s : State} (hq : s.seq = .run .start) (hp : idealPort s) :
    ∃ u, Reaches (.findStdCap imm) s
        (complete (stdCompletion (stdWalk s.cs s.params.stdTripLimit (imm.setWidth 8))) u) ∧ u.cs = s.cs := by
  have hs := stands_self hp
  have hwalks : Walks (.findStdCap imm) .main (imm.setWidth 8) (fun t => finishNext (.ofNat 64 t.cur) 0#64 t) s s.cs :=
    fun _ _ _ hu => exec_findStdCap_walk imm hu
  obtain ⟨u, hrun, hend⟩ := walk_from_status hwalks (exec_findStdCap_start imm hq) hs.reply hs.seenCs
    (hs.afterRead 0x06 2)
  obtain ⟨hu, he⟩ := hend.completes
  exact ⟨u, hrun.trans (.step he), hu.bytes⟩

/-- Settles O29: the run gives the result, the steps left at the start of decoding the bound. -/
theorem findStdCapIsTheStandardWalk : Obligations.FindStdCapIsTheStandardWalk := by
  intro imm s hq hp
  obtain ⟨u, hrun, hcs⟩ := findStdCap_runs imm hq hp
  obtain ⟨k, t, hk, ht, htcs, hdone⟩ := completed_within hrun nofun nofun hq hp
  have hbound : stepsLeft (.findStdCap imm) .start s = 4 + s.params.stdTripLimit := Nat.add_comm _ 4
  refine ⟨k, t, hbound ▸ hk, ht, htcs.trans hcs, ?_⟩
  rw [extractLsb'_zero_eight]
  cases hr : stdWalk s.cs s.params.stdTripLimit (imm.setWidth 8) <;> rw [hr] at hdone <;> exact hdone

/-! ### FIND_EXT_CAP (R167, R168) -/

/-- How FIND_EXT_CAP completes for what the walk gives (R168, R169, R171). -/
def extCompletion : ExtResult → Completion
  | .found off => .finishOk (.ofNat 64 off) 0#64
  | .notFound => .finishNotFound
  | .misaligned off => .raised (.alignmentViolation off)

/-- Where the head of the extended loop goes, with `n` iterations left at the offset `c` (R167). -/
def extHeadPoint (size n c : Nat) : Point := if n = 0 ∨ size < c + 4 then .complete .finishNotFound else .extEntry

theorem extHeadPoint_cases (size n c : Nat) :
    extHeadPoint size n c = .complete .finishNotFound ∨ extHeadPoint size n c = .extEntry := by
  unfold extHeadPoint
  split
  · exact .inl rfl
  · exact .inr rfl

/-- On the ideal port over the bytes `m`, FIND_EXT_CAP comes from `v` to the completion of `r`. -/
def ExtEnds (imm : Half) (s : State) (m : Memory) (v : State) (r : ExtResult) : Prop :=
  ∃ u, Stands s m u ∧ Reaches (.findExtCap imm) v (complete (extCompletion r) u)

section ExtWalk

variable {imm : Half} {s v : State} {m : Memory} {n c : Nat} {r : ExtResult}

theorem extEnds_of_complete (h : Stands s m v) (hq : v.seq = .run (.complete (extCompletion r))) :
    ExtEnds imm s m v r :=
  ⟨v, h, .step (exec_complete hq)⟩

/-- A header that ends the walk: its read, and then the completion. -/
theorem extEnds_of_read {off k : Nat} (h : Stands s m v)
    (he : exec (.findExtCap imm) v =
      .next (goto (.complete (extCompletion r)) (afterTransaction (.read off k) v))) : ExtEnds imm s m v r :=
  ⟨_, (h.afterRead off k).goto _, .head he (.step (exec_complete rfl))⟩

/-- One iteration of R167 at an aligned header inside the size, if the next one goes on from the head it comes to. -/
theorem extEnds_of_header (h : Stands s m v) (hq : v.seq = .run .extEntry) (hc : v.cur = c) (ht : v.trip = n)
    (hsize : c + 4 ≤ s.lOpa.toNat) (ha : c % 4 = 0)
    (hnext : ∀ nx w, Stands s m w → w.seq = .run (extHeadPoint s.lOpa.toNat n nx) → w.cur = nx → w.trip = n - 1 →
      ExtEnds imm s m w (extWalkFrom m s.params.extNextAlign s.lOpa.toNat imm n nx)) :
    ExtEnds imm s m v (extWalkFrom m s.params.extNextAlign s.lOpa.toNat imm (n + 1) c) := by
  have hafter := h.afterRead c 4
  have he := exec_findExtCap_entry imm hq
  rw [extRead_ok h.reply (hc ▸ ha) rfl rfl, h.seenCs, h.params, h.operand, hc, ht, ← extHeadPoint] at he
  rw [extWalkFrom, if_neg (Nat.not_lt_of_le hsize), if_neg (not_not.mpr ha)]
  generalize Memory.readLE m c 4 = hd at he ⊢
  generalize hnx : takenNext s.params.extNextAlign (headerNext hd) = nx at he
  simp only [hnx]
  split_ifs at he ⊢ with hend hid hstop
  · exact extEnds_of_read h he
  · exact extEnds_of_read h he
  · exact extEnds_of_read h he
  · obtain ⟨u, hu, hrun⟩ := hnext nx
      (goto (extHeadPoint s.lOpa.toNat n nx) { afterTransaction (.read c 4) v with cur := nx, trip := n - 1 })
      ⟨hafter.port, hafter.bytes, hafter.operand, hafter.params⟩ rfl rfl rfl
    exact ⟨u, hu, .head he hrun⟩

/-- The loop of R167, from its head with `n` iterations left at the offset `c`. -/
theorem extEnds_from_head (h : Stands s m v) (hq : v.seq = .run (extHeadPoint s.lOpa.toNat n c)) (hc : v.cur = c)
    (ht : v.trip = n - 1) :
    ExtEnds imm s m v (extWalkFrom m s.params.extNextAlign s.lOpa.toNat imm n c) := by
  induction n generalizing v c with
  | zero => exact extEnds_of_complete h hq
  | succ n ih =>
    by_cases hsize : s.lOpa.toNat < c + 4
    · rw [extHeadPoint, if_pos (.inr hsize)] at hq
      rw [extWalkFrom, if_pos hsize]
      exact extEnds_of_complete h hq
    · rw [extHeadPoint, if_neg (by omega)] at hq
      by_cases ha : c % 4 = 0
      · exact extEnds_of_header h hq hc ht (Nat.le_of_not_lt hsize) ha fun nx w => ih
      · have he := exec_findExtCap_entry imm hq
        rw [extRead_misaligned (hc ▸ ha), hc] at he
        rw [extWalkFrom, if_neg hsize, if_pos ha]
        exact ⟨v, h, .step he⟩

end ExtWalk

theorem exec_findExtCap_start {s : State} (imm : Half) (hq : s.seq = .run .start) :
    exec (.findExtCap imm) s = .next (extStart s.lOpa.toNat imm s) := by
  simp [exec, execFindExtCap, atPoint, hq]

/-- The state at the head of the extended loop before its first iteration (R167). -/
def extFirstHead (s : State) : State :=
  goto (extHeadPoint s.lOpa.toNat (extTripLimit s.params.extTrip s.lOpa.toNat) 256)
    { s with cur := 256, trip := extTripLimit s.params.extTrip s.lOpa.toNat - 1 }

/-- In a space of more than 256 bytes the first step is the one from the head of the loop (R167; log 8). -/
theorem exec_findExtCap_first {s : State} (imm : Half) (hq : s.seq = .run .start) (hs : ¬ s.lOpa.toNat ≤ 256) :
    exec (.findExtCap imm) s = exec (.findExtCap imm) (extFirstHead s) := by
  have hhead : extHead s.lOpa.toNat { s with cur := 256, trip := extTripLimit s.params.extTrip s.lOpa.toNat } =
      extFirstHead s := extHead_eq _ _
  rw [exec_findExtCap_start imm hq, extStart, if_neg hs, hhead]
  rcases extHeadPoint_cases s.lOpa.toNat (extTripLimit s.params.extTrip s.lOpa.toNat) 256 with hp | hp
  · have hc : (extFirstHead s).seq = .run (.complete .finishNotFound) := congrArg Seq.run hp
    rw [exec_complete hc]
    simp [hc]
  · have he : (extFirstHead s).seq = .run .extEntry := congrArg Seq.run hp
    rw [exec_findExtCap_entry imm he]
    simp only [he, if_true]
    rfl

/-- A run that takes a step starts alike from any state whose first step is the same. -/
theorem Reaches.of_exec_eq {i : Instr} {s v t : State} (he : exec i s = exec i v) (hne : v ≠ t) (h : Reaches i v t) :
    Reaches i s t := by
  obtain ⟨n, hn⟩ := h
  cases n with
  | zero => cases hn; exact absurd rfl hne
  | succ n =>
    obtain ⟨u, hu, hrun⟩ := runExec_next_succ hn
    exact .head (he.trans hu) ⟨n, hrun⟩

/-- FIND_EXT_CAP comes to the completion of the walk over its bytes. -/
theorem findExtCap_runs (imm : Half) {s : State} (hq : s.seq = .run .start) (hp : idealPort s) :
    ∃ u, Reaches (.findExtCap imm) s (complete (extCompletion (extWalk s.cs s.params s.lOpa.toNat imm)) u) ∧
      u.cs = s.cs := by
  rw [extWalk]
  by_cases hs : s.lOpa.toNat ≤ 256
  · have he := exec_findExtCap_start imm hq
    rw [extStart, if_pos hs] at he
    rw [if_pos hs]
    exact ⟨s, .step he, rfl⟩
  · rw [if_neg hs]
    obtain ⟨u, hu, hrun⟩ := extEnds_from_head (imm := imm) (s := s) (m := s.cs) (v := extFirstHead s)
      ⟨hp, rfl, rfl, rfl⟩ rfl rfl rfl
    refine ⟨u, hrun.of_exec_eq (exec_findExtCap_first imm hq hs) ?_, hu.bytes⟩
    exact fun e => nomatch congrArg State.seq e

/-- Settles O30, in the same way. -/
theorem findExtCapIsTheExtendedWalk : Obligations.FindExtCapIsTheExtendedWalk := by
  intro imm s hq hp
  obtain ⟨u, hrun, hcs⟩ := findExtCap_runs imm hq hp
  obtain ⟨k, t, hk, ht, htcs, hdone⟩ := completed_within hrun nofun nofun hq hp
  have hbound : stepsLeft (.findExtCap imm) .start s = 1 + extTripLimit s.params.extTrip s.lOpa.toNat :=
    Nat.add_comm _ 1
  refine ⟨k, t, hbound ▸ hk, ht, htcs.trans hcs, ?_⟩
  cases hr : extWalk s.cs s.params s.lOpa.toNat imm <;> rw [hr] at hdone <;> exact hdone

end Sys2Proof.Machine
end

section
/-! PROOFS. 42_link_controller.md: the speed tables (R195, R197), and the steps of the link commands at their register
accesses: the Link Control writes (R192 to R194, R201), the accesses of LINK_SET_TARGET_SPEED (R196), and an odd BASE (R191). -/

namespace Sys2Proof.Machine

/-! ### Speeds (R195, R197) -/

/-- By code, the six codes are themselves (R195). -/
theorem normSpeed_byCode_iff (a : Quad) (c : BitVec 4) :
    normSpeed .byCode a = some c ↔ 1 ≤ a.toNat ∧ a.toNat ≤ 6 ∧ c.toNat = a.toNat := by
  have hcode : a.setWidth 4 = c ↔ a.toNat % 2 ^ 4 = c.toNat := by
    rw [← BitVec.toNat_inj, BitVec.toNat_setWidth]
  simp only [normSpeed, Option.ite_none_right_eq_some, Option.some.injEq, hcode]
  omega

/-- By speed, the patterns are read back through the table of R197. -/
theorem normSpeed_bySpeed_iff (a : Quad) (c : BitVec 4) : normSpeed .bySpeed a = some c ↔ gts c = some a := by
  constructor
  · intro h
    simp only [normSpeed] at h
    split_ifs at h with ha ha ha ha ha ha <;> cases h <;> subst ha <;> rfl
  · intro h
    simp only [gts] at h
    split_ifs at h with hc hc hc hc hc hc <;> cases h <;> subst hc <;> rfl

/-- The speed codes are 1 to 6 (R197). -/
theorem gts_isSome_iff (c : BitVec 4) : (gts c).isSome = true ↔ 1 ≤ c.toNat ∧ c.toNat ≤ 6 := by
  revert c
  decide

/-- Settles O34: the last six clauses are the rows of the table of R197, read over its sixteen codes. -/
theorem speedTables : Obligations.SpeedTables := by
  intro a c
  refine ⟨normSpeed_byCode_iff a c, normSpeed_bySpeed_iff a c, gts_isSome_iff c, ?_⟩
  revert c
  decide

/-! ### The writes of Link Control (R192 to R194, R201) -/

theorem lcOff_even {s : State} (h : s.base % 2 = 0) : s.lcOff % 2 = 0 := by
  rw [State.lcOff]
  omega

/-- At its write LINK_SET_CONTROL_BITS applies its mask, as its flag says (R201). -/
theorem exec_linkSetControlBits_rmwWrite {s : State} (f : Bool) (imm : Half) (hq : s.seq = .run .rmwWrite) :
    exec (.linkSetControlBits f imm) s =
      .next (rmwWriteThen s.lcOff (if f then imm else 0#16) (if f then 0#16 else imm) s (finishNext 0#64 0#64)) :=
  atPoint_run hq nofun

/-- The value LINK_SET_CONTROL_BITS writes (R82, R201). -/
theorem rmwValue_mask (v : Word) (f : Bool) (imm : Half) :
    rmwValue v (if f then imm else 0#16) (if f then 0#16 else imm) =
      if f then v.setWidth 16 ||| imm else v.setWidth 16 &&& ~~~imm := by
  cases f with
  | true => exact rmwValue_set v imm
  | false => exact rmwValue_clear v imm

/-- Settles O38. -/
theorem linkSetControlBitsAppliesMask : Obligations.LinkSetControlBitsAppliesMask := by
  intro f imm s hq heven h hwf
  have he := exec_linkSetControlBits_rmwWrite f imm hq
  rw [rmwWriteThen_ok h (lcOff_even heven), rmwValue_mask] at he
  exact ⟨_, he, wroteOnly_goto h hwf _ _ _⟩

/-- Settles O35: LINK_ENABLE is the clearing of Link Disable (R111). -/
theorem linkEnableClearsLinkDisable : Obligations.LinkEnableClearsLinkDisable := fun s =>
  linkSetControlBitsAppliesMask false 0x0010#16 s

/-- Settles O36: LINK_DISABLE is the setting of Link Disable (R111). -/
theorem linkDisableSetsLinkDisable : Obligations.LinkDisableSetsLinkDisable := fun s =>
  linkSetControlBitsAppliesMask true 0x0010#16 s

theorem exec_linkRetrain_rmwWrite {s : State} (f : Bool) (hq : s.seq = .run .rmwWrite) :
    exec (.linkRetrain f) s = .next (rmwWriteThen s.lcOff maskRL 0#16 s fun t =>
      if f then goto (clearPoint t.params.retrainClear) t else finishNext 0#64 0#64 t) :=
  atPoint_run hq nofun

theorem exec_linkRetrain_clearRead {s : State} (hq : s.seq = .run .clearRead) :
    exec (.linkRetrain true) s = .next (rmwReadThen s.lcOff .clearWrite s) :=
  atPoint_run hq nofun

theorem exec_linkRetrain_clearWrite {s : State} (hq : s.seq = .run .clearWrite) :
    exec (.linkRetrain true) s = .next (rmwWriteThen s.lcOff 0#16 maskRL s (finishNext 0#64 0#64)) :=
  atPoint_run hq nofun

/-- Settles O37: the setting write, and the two steps of the clearing read-modify-write. -/
theorem linkRetrainSetsThenClears : Obligations.LinkRetrainSetsThenClears := by
  intro f s heven h hwf
  refine ⟨fun hq => ?_, ?_, ?_⟩
  · have he := exec_linkRetrain_rmwWrite f hq
    rw [rmwWriteThen_ok h (lcOff_even heven), rmwValue_set, afterTransaction_params, clearPoint_eq] at he
    cases f with
    | true => exact ⟨_, he, wroteOnly_goto h hwf _ _ _⟩
    | false => exact ⟨_, he, wroteOnly_goto h hwf _ _ _⟩
  · rintro hq rfl
    obtain ⟨t', ht', e⟩ := rmwReadThen_readOnly .clearWrite h (lcOff_even heven)
    exact ⟨_, t', exec_linkRetrain_clearRead hq, ht', e⟩
  · rintro hq rfl
    have he := exec_linkRetrain_clearWrite hq
    rw [rmwWriteThen_ok h (lcOff_even heven), rmwValue_clear] at he
    exact ⟨_, he, wroteOnly_goto h hwf _ _ _⟩

/-! ### LINK_SET_TARGET_SPEED (R196) -/

/-- Settles O41. -/
theorem setTargetSpeedWritesLinkControl2 : Obligations.SetTargetSpeedWritesLinkControl2 := by
  intro k f s code hn heven h hwf
  have hlc2 : s.lc2Off % 2 = 0 := by
    rw [State.lc2Off]
    omega
  refine ⟨fun hq => ?_, fun hq => ?_, ?_⟩
  · obtain ⟨t', ht', e⟩ := rmwReadThen_readOnly .speedWrite h hlc2
    exact ⟨_, t', exec_setTargetSpeed_speedRead hn hq, ht', e⟩
  · have he := exec_setTargetSpeed_speedWrite (f := f) hn hq
    rw [cfgWriteThen_ok (by simpa [aligned] using hlc2) h] at he
    cases f with
    | true => exact ⟨_, he, wroteOnly_goto h hwf _ _ _⟩
    | false => exact ⟨_, he, wroteOnly_goto h hwf _ _ _⟩
  · rintro hq rfl
    have he := exec_setTargetSpeed_rmwWrite hn hq
    rw [rmwWriteThen_ok h (lcOff_even heven), rmwValue_set] at he
    exact ⟨_, he, wroteOnly_goto h hwf _ _ _⟩

/-! ### An odd BASE (R65, R191) -/

/-- The first register access after its walk, of each link command that walks, is a checked read of 2 bytes. -/
theorem exec_firstAccess {i : Instr} {p : Point} {d : Nat} {s : State} (hq : s.seq = .run p)
    (hi : (p = .rmwRead ∧ d = 0x10 ∧
        (i = .linkEnable ∨ i = .linkDisable ∨ (∃ f, i = .linkRetrain f) ∨ (∃ f imm, i = .linkSetControlBits f imm) ∨
          ∃ k, i = .linkSetTargetSpeed k true ∧ normSpeed k s.lOpa ≠ none)) ∨
      (p = .statusRead ∧ d = 0x12 ∧ (i = .linkReadStatus ∨ i = .linkWaitForTraining)) ∨
      (p = .version ∧ d = 0x02 ∧ ∃ k f, i = .linkSetTargetSpeed k f ∧ normSpeed k s.lOpa ≠ none)) :
    ∃ next, exec i s = .next (cfgReadThen (s.base + d) 2 s next) := by
  rcases hi with ⟨rfl, rfl, hi⟩ | ⟨rfl, rfl, rfl | rfl⟩ | ⟨rfl, rfl, k, f, rfl, hn⟩
  · exact ⟨_, exec_linkControl_rmwRead hi hq⟩
  · exact ⟨_, atPoint_run hq nofun⟩
  · exact ⟨_, exec_waitForTraining_statusRead hq⟩
  · obtain ⟨code, hcode⟩ := Option.ne_none_iff_exists'.mp hn
    exact ⟨_, exec_setTargetSpeed_version hcode hq⟩

/-- Settles O50: at an odd BASE that read is misaligned, its distance from BASE being even. -/
theorem oddBaseIsMisaligned : Obligations.OddBaseIsMisaligned := by
  intro i p d s hq hodd hi
  obtain ⟨next, he⟩ := exec_firstAccess hq hi
  have hd : d % 2 = 0 := by
    rcases hi with ⟨-, rfl, -⟩ | ⟨-, rfl, -⟩ | ⟨-, rfl, -⟩ <;> rfl
  have ha : aligned (s.base + d) 2 = false := by
    simp [aligned]
    omega
  rw [cfgReadThen_misaligned ha] at he
  exact ⟨_, he, completed_complete _ s, rfl, rfl⟩

end Sys2Proof.Machine
end

section
/-! PROOFS. 42_link_controller.md: `FindPcie` on the ideal port (R190). It takes the steps of FIND_STD_CAP for P_PCIE_CAP_ID,
so it ends where that walk does, and it only reads. -/

namespace Sys2Proof.Machine

/-! ### Steps that only read, on the ideal port (R80) -/

/-- What transactions on the ideal port leave alone: time, the latched operands, the deadline and the parameters, and the
port itself. -/
structure TrafficFrame (s t : State) : Prop where
  port : t.port = s.port
  clock : t.clock = s.clock
  now : t.now = s.now
  deadline : t.deadline = s.deadline
  lOpa : t.lOpa = s.lOpa
  lOpb : t.lOpb = s.lOpb
  params : t.params = s.params

/-- Between `s` and `t` the core has read on the ideal port, and done nothing else that could be observed. -/
structure OnlyRead (s t : State) : Prop extends TrafficFrame s t where
  bytes : t.cs = s.cs
  noWrite : NoWriteSince s t

namespace NoWriteSince

variable {s t u : State}

theorem of_log_eq (h : t.log = s.log) : NoWriteSince s t := ⟨[], h, by simp⟩

theorem cons {e : Event} (h : NoWriteSince s t) (hl : u.log = e :: t.log)
    (he : ∀ off n v a, e ≠ .transaction (.write off n v) a) : NoWriteSince s u := by
  obtain ⟨l, ht, hno⟩ := h
  refine ⟨e :: l, by rw [hl, ht]; rfl, fun off n v a hm => ?_⟩
  rcases List.mem_cons.mp hm with e' | hm
  · exact he off n v a e'.symm
  · exact hno off n v a hm

theorem trans (h : NoWriteSince s t) (h' : NoWriteSince t u) : NoWriteSince s u := by
  obtain ⟨l, ht, hno⟩ := h
  obtain ⟨l', hu, hno'⟩ := h'
  refine ⟨l' ++ l, by rw [hu, ht, List.append_assoc], fun off n v a hm => ?_⟩
  exact (List.mem_append.mp hm).elim (hno' off n v a) (hno off n v a)

theorem complete (h : NoWriteSince s t) (c : Completion) : NoWriteSince s (complete c t) := h.cons rfl nofun

end NoWriteSince

namespace TrafficFrame

variable {s t u : State}

theorem refl (s : State) : TrafficFrame s s := ⟨rfl, rfl, rfl, rfl, rfl, rfl, rfl⟩

theorem trans (h : TrafficFrame s t) (h' : TrafficFrame t u) : TrafficFrame s u :=
  ⟨h'.port.trans h.port, h'.clock.trans h.clock, h'.now.trans h.now, h'.deadline.trans h.deadline,
    h'.lOpa.trans h.lOpa, h'.lOpb.trans h.lOpb, h'.params.trans h.params⟩

theorem idealPort (h : TrafficFrame s t) (hp : idealPort s) : idealPort t := by
  rwa [Machine.idealPort, h.port]

theorem idealClock (h : TrafficFrame s t) (hc : idealClock s) : idealClock t := by
  rwa [Machine.idealClock, h.clock]

theorem goto (h : TrafficFrame s t) (p : Point) : TrafficFrame s (goto p t) :=
  ⟨h.port, h.clock, h.now, h.deadline, h.lOpa, h.lOpb, h.params⟩

theorem setV (h : TrafficFrame s t) (x : Word) : TrafficFrame s { t with v := x } :=
  ⟨h.port, h.clock, h.now, h.deadline, h.lOpa, h.lOpb, h.params⟩

/-- One transaction, on the ideal port. -/
theorem afterTransaction (hp : Machine.idealPort s) (tr : Transaction) : TrafficFrame s (afterTransaction tr s) :=
  ⟨Port.advance_ideal hp.1 hp.2, rfl, rfl, rfl, rfl, rfl, rfl⟩

end TrafficFrame

namespace OnlyRead

variable {s t u : State}

theorem refl (s : State) : OnlyRead s s := ⟨.refl s, rfl, .of_log_eq rfl⟩

theorem trans (h : OnlyRead s t) (h' : OnlyRead t u) : OnlyRead s u :=
  ⟨h.toTrafficFrame.trans h'.toTrafficFrame, h'.bytes.trans h.bytes, h.noWrite.trans h'.noWrite⟩

theorem goto (h : OnlyRead s t) (p : Point) : OnlyRead s (goto p t) :=
  ⟨h.toTrafficFrame.goto p, h.bytes, h.noWrite⟩

theorem setV (h : OnlyRead s t) (x : Word) : OnlyRead s { t with v := x } :=
  ⟨h.toTrafficFrame.setV x, h.bytes, h.noWrite⟩

theorem setBase (h : OnlyRead s t) (b : Nat) : OnlyRead s { t with base := b } :=
  ⟨⟨h.port, h.clock, h.now, h.deadline, h.lOpa, h.lOpb, h.params⟩, h.bytes, h.noWrite⟩

theorem setWalk (h : OnlyRead s t) (c n : Nat) : OnlyRead s { t with cur := c, trip := n } :=
  ⟨⟨h.port, h.clock, h.now, h.deadline, h.lOpa, h.lOpb, h.params⟩, h.bytes, h.noWrite⟩

/-- One read, on the ideal port. -/
theorem afterRead (hp : Machine.idealPort s) (off n : Nat) : OnlyRead s (afterTransaction (.read off n) s) := by
  have hr := idealPort_reply hp
  refine ⟨.afterTransaction hp _, ?_, ?_⟩
  · rw [afterTransaction_cs, effect_read, seenCs_ideal hp.1 hp.2]
  · exact (NoWriteSince.of_log_eq rfl).cons (afterTransaction_answered (by simp [hr])).2 nofun

end OnlyRead

/-! ### `FindPcie` is the walk of FIND_STD_CAP (R160, R190) -/

/-- On the ideal port a step of the standard walk reads, and then has found its entry, ends the walk, or goes on; what
comes after the find does not enter otherwise. -/
theorem findStd_ideal_cases {s : State} (hp : idealPort s) (id : Byte) (site : Site) (w : WalkPoint) :
    ∃ x, OnlyRead s x ∧
      ((∀ found, findStd id (.walk site) found w s = found x) ∨
        (∀ found, findStd id (.walk site) found w s = goto (.complete .finishNotFound) x) ∨
        ∃ w', ∀ found, findStd id (.walk site) found w s = goto (.walk site w') x) := by
  have hr := idealPort_reply hp
  cases w with
  | status =>
    have hread := OnlyRead.afterRead hp 0x06 2
    simp only [findStd_status_ok hr]
    split
    · exact ⟨_, hread, .inr (.inr ⟨.header, fun _ => rfl⟩)⟩
    · exact ⟨_, hread, .inr (.inl fun _ => rfl)⟩
  | header =>
    have hread := OnlyRead.afterRead hp 0x0E 1
    simp only [findStd_header_ok hr]
    cases pointerOffset (headerType (Memory.readLE s.seenCs 0x0E 1)) with
    | none => exact ⟨_, hread, .inr (.inl fun _ => rfl)⟩
    | some pp => exact ⟨_, hread, .inr (.inr ⟨.pointer pp, fun _ => rfl⟩)⟩
  | pointer pp =>
    have hread := OnlyRead.afterRead hp pp 1
    simp only [findStd_pointer_ok hr]
    split
    · exact ⟨_, hread.setWalk _ _, .inr (.inl fun _ => rfl)⟩
    · exact ⟨_, hread.setWalk _ _, .inr (.inr ⟨.entry, fun _ => rfl⟩)⟩
  | entry =>
    have hread := OnlyRead.afterRead hp (s.cur &&& 0xFC) 2
    simp only [findStd_entry_ok hr]
    split_ifs
    · exact ⟨_, hread, .inr (.inl fun _ => rfl)⟩
    · exact ⟨_, hread, .inl fun _ => rfl⟩
    · exact ⟨_, hread.setWalk _ _, .inr (.inl fun _ => rfl)⟩
    · exact ⟨_, hread.setWalk _ _, .inr (.inr ⟨.entry, fun _ => rfl⟩)⟩

/-- From a completion that comes next a run goes no further than IDLE. -/
theorem runExec_at_completion {i : Instr} {n : Nat} {s t : State} {c : Completion} (hq : s.seq = .run (.complete c))
    (h : runExec i n s = .next t) (ht : t.seq ≠ .idle) : t = s := by
  cases n with
  | zero => cases h; rfl
  | succ n =>
    obtain ⟨u, he, hu⟩ := runExec_next_succ h
    rw [exec_complete hq] at he
    cases he
    cases n with
    | zero => cases hu; exact absurd rfl ht
    | succ n =>
      obtain ⟨v, he, -⟩ := runExec_next_succ hu
      exact absurd rfl (exec_next_seq_ne_idle he)

/-- Where FIND_STD_CAP comes to for what its walk gives (R166). -/
def StdEnd (r : Option Nat) (t : State) : Prop :=
  match r with
  | some c => t.cur = c ∧ t.seq = .run (.complete (.finishOk (.ofNat 64 c) 0#64))
  | none => t.seq = .run (.complete .finishNotFound)

/-- Where `FindPcie` comes to for what its walk gives (R190). -/
def PcieEnd (after : Point) (r : Option Nat) (t : State) : Prop :=
  match r with
  | some c => t.base = c ∧ t.seq = .run after
  | none => t.seq = .run (.complete .finishNotFound)

theorem StdEnd.completion {r : Option Nat} {t : State} (h : StdEnd r t) : ∃ c, t.seq = .run (.complete c) := by
  cases r with
  | none => exact ⟨_, h⟩
  | some c => exact ⟨_, h.2⟩

theorem WalkEnd.stdEnd {s t : State} {m : Memory} {r : Option Nat}
    (h : WalkEnd s m (fun t => finishNext (.ofNat 64 t.cur) 0#64 t) r t) : StdEnd r t := by
  cases h with
  | found _ hc => exact ⟨hc, by rw [← hc]; rfl⟩
  | absent _ => exact rfl

/-- Inside its first walk the command takes the steps of `FindPcie`, with `after` next; `s` holds its latched operand. -/
def WalksPcie (i : Instr) (after : Point) (s : State) : Prop :=
  ∀ (u : State) (w : WalkPoint), u.lOpa = s.lOpa → u.seq = .run (.walk .main w) →
    exec i u = .next (findPcie .main after w u)

namespace WalksPcie

variable {i : Instr} {after : Point} {s : State}

/-- A command that walks for the capability goes along with FIND_STD_CAP to the end of the walk. -/
theorem follows (hi : WalksPcie i after s) (hp : idealPort s) {imm : Half} (himm : imm.setWidth 8 = s.params.pcieCapId)
    {n : Nat} {w : WalkPoint} {r : Option Nat} {u t : State} (hu : OnlyRead s u) (hq : ∀ c, u.seq ≠ .run (.complete c))
    (he : exec i u = .next (findPcie .main after w u))
    (hf : exec (.findStdCap imm) u =
      .next (findStd (imm.setWidth 8) (.walk .main) (fun t => finishNext (.ofNat 64 t.cur) 0#64 t) w u))
    (hrun : runExec (.findStdCap imm) n u = .next t) (hend : StdEnd r t) :
    ∃ x, Reaches i u x ∧ OnlyRead s x ∧ PcieEnd after r x := by
  obtain ⟨c, htq⟩ := hend.completion
  induction n generalizing u w with
  | zero => cases hrun; exact absurd htq (hq c)
  | succ n ih =>
    obtain ⟨v, hv, hrun⟩ := runExec_next_succ hrun
    rw [findPcie, hu.params, ← himm] at he
    rw [hf] at hv
    have hstop : ∀ c', v.seq = .run (.complete c') → t = v := fun c' hvq =>
      runExec_at_completion hvq hrun (by simp [htq])
    obtain ⟨x, hx, hfound | habsent | ⟨w', hnext⟩⟩ :=
      findStd_ideal_cases (hu.idealPort hp) (imm.setWidth 8) .main w
    · rw [hfound] at he hv
      cases hv
      obtain rfl := hstop _ rfl
      cases r with
      | none => cases hend
      | some b => exact ⟨_, .step he, ((hu.trans hx).setBase _).goto after, hend.1, rfl⟩
    · rw [habsent] at he hv
      cases hv
      obtain rfl := hstop _ rfl
      cases r with
      | none => exact ⟨_, .step he, (hu.trans hx).goto _, rfl⟩
      | some b => cases hend.2
    · rw [hnext] at he hv
      cases hv
      have hw := (hu.trans hx).goto (.walk .main w')
      obtain ⟨y, hrun, hy⟩ := ih hw nofun (hi _ w' hw.lOpa rfl) (exec_findStdCap_walk imm rfl) hrun
      exact ⟨y, .head he hrun, hy⟩

end WalksPcie

/-- From `s` on the command takes the steps of `FindPcie`, with `after` next. -/
structure AtPcie (i : Instr) (after : Point) (s : State) : Prop where
  point : s.seq = .run .start ∨ s.seq = .run (.walk .main .status)
  first : exec i s = .next (findPcie .main after .status s)
  walks : WalksPcie i after s

namespace AtPcie

variable {i : Instr} {after : Point} {s : State}

theorem of_walk (h : WalksPcie i after s) (hq : s.seq = .run (.walk .main .status)) : AtPcie i after s :=
  ⟨.inr hq, h s .status rfl hq, h⟩

/-- `FindPcie` on the ideal port: the command comes to `after` with BASE at the capability, or to NOT_FOUND, and only
reads (R190). -/
theorem runs (h : AtPcie i after s) (hp : idealPort s) :
    ∃ t, Reaches i s t ∧ OnlyRead s t ∧ PcieEnd after (stdWalk s.cs s.params.stdTripLimit s.params.pcieCapId) t := by
  have himm : (s.params.pcieCapId.setWidth 16).setWidth 8 = s.params.pcieCapId := by simp
  have hf : exec (.findStdCap (s.params.pcieCapId.setWidth 16)) s = _ :=
    h.point.elim (exec_findStdCap_start _) (exec_findStdCap_walk _)
  have hs := stands_self hp
  obtain ⟨t, ⟨n, hrun⟩, hend⟩ := walk_from_status (fun _ _ _ hu => exec_findStdCap_walk _ hu) hf hs.reply hs.seenCs
    (hs.afterRead 0x06 2)
  have hstd := hend.stdEnd
  rw [himm] at hstd
  have hne : ∀ c, s.seq ≠ .run (.complete c) := fun c hc => by
    rcases h.point with hq | hq <;> simp [hq] at hc
  exact h.walks.follows hp himm (.refl s) hne h.first hf hrun hstd

/-- The same where the walk finds the capability. -/
theorem finds (h : AtPcie i after s) (hp : idealPort s) {b : Nat}
    (hw : stdWalk s.cs s.params.stdTripLimit s.params.pcieCapId = some b) :
    ∃ t, Reaches i s t ∧ OnlyRead s t ∧ t.base = b ∧ t.seq = .run after := by
  obtain ⟨t, hrun, hread, hend⟩ := h.runs hp
  rw [hw] at hend
  exact ⟨t, hrun, hread, hend⟩

end AtPcie

/-! ### Where the walk of each link command leads (R192 to R201) -/

/-- The commands whose walk leads to a read-modify-write of Link Control (R192 to R194, R201). -/
theorem atPcie_linkControl {i : Instr} {s : State}
    (hi : i = .linkEnable ∨ i = .linkDisable ∨ (∃ f, i = .linkRetrain f) ∨ ∃ f imm, i = .linkSetControlBits f imm)
    (hq : s.seq = .run .start) : AtPcie i .rmwRead s := by
  rcases hi with rfl | rfl | ⟨f, rfl⟩ | ⟨f, imm, rfl⟩ <;>
    exact ⟨.inl hq, atPoint_run hq nofun, fun u w _ hu => atPoint_run hu nofun⟩

theorem atPcie_linkSetTargetSpeed {k : SpeedKind} {s : State} (f : Bool) (hn : normSpeed k s.lOpa ≠ none)
    (hq : s.seq = .run .start) : AtPcie (.linkSetTargetSpeed k f) .version s := by
  obtain ⟨code, hcode⟩ := Option.ne_none_iff_exists'.mp hn
  exact ⟨.inl hq, exec_setTargetSpeed_start hcode hq, fun u w hl hu => exec_setTargetSpeed_walk (hl ▸ hcode) hu⟩

theorem atPcie_linkReadStatus {s : State} (hq : s.seq = .run .start) : AtPcie .linkReadStatus .statusRead s :=
  ⟨.inl hq, atPoint_run hq nofun, fun _ _ _ hu => atPoint_run hu nofun⟩

/-- LINK_WAIT_FOR_TRAINING walks before each poll (R199). -/
theorem atPcie_linkWaitForTraining {s : State} (hq : s.seq = .run (.walk .main .status)) :
    AtPcie .linkWaitForTraining .statusRead s :=
  .of_walk (fun _ _ _ hu => atPoint_run hu nofun) hq

end Sys2Proof.Machine
end

section
/-! PROOFS. 42_link_controller.md: runs of the link commands that change no byte: without the capability (R190), with one of an
old version (R196), and LINK_READ_STATUS (R198). -/

namespace Sys2Proof.Machine

/-! ### Ends without a write (R71, R202) -/

/-- A run that comes to a completion ends in it (R250, R251). -/
theorem Reaches.completed {i : Instr} {s u : State} {c : Completion} (h : Reaches i s u)
    (hq : u.seq = .run (.complete c)) :
    ∃ n, runExec i n s = .next (complete c u) ∧
      Completed s (complete c u) c.code.bits (ioKindBits c.kind) c.res c.res2 c.addr := by
  obtain ⟨hb, hd, hpf, hrest⟩ := completed_complete c u
  obtain ⟨n, hn⟩ := h.trans (step (exec_complete hq))
  exact ⟨n, hn, hb, hd, hpf.trans h.frame.2.2, hrest⟩

/-- On the ideal port a command that does not find the capability completes NOT_FOUND, having only read (R190). -/
theorem AtPcie.completes_notFound {i : Instr} {after : Point} {s : State} (h : AtPcie i after s) (hp : idealPort s)
    (hnone : stdWalk s.cs s.params.stdTripLimit s.params.pcieCapId = none) :
    ∃ n t, runExec i n s = .next t ∧ Completed s t 1#4 0#2 0#64 0#64 0 ∧ t.cs = s.cs ∧ NoWriteSince s t := by
  obtain ⟨t, hrun, hread, hend⟩ := h.runs hp
  rw [hnone] at hend
  obtain ⟨n, hn, hdone⟩ := hrun.completed hend
  exact ⟨n, _, hn, hdone, hread.bytes, hread.noWrite.complete _⟩

/-- LINK_WAIT_FOR_TRAINING after its first sample, with the deadline set (R199). -/
def firstPoll (s : State) : State :=
  withSample s fun now t => goto (.walk .main .status) { t with deadline := now + s.lOpa.toNat }

/-- LINK_WAIT_FOR_TRAINING comes to its walk by a sample, which leaves the bytes, the port and the parameters alone (R199). -/
theorem waitForTraining_completes_notFound {s : State} (hq : s.seq = .run .start) (hp : idealPort s)
    (hnone : stdWalk s.cs s.params.stdTripLimit s.params.pcieCapId = none) :
    ∃ n t, runExec .linkWaitForTraining n s = .next t ∧ Completed s t 1#4 0#2 0#64 0#64 0 ∧ t.cs = s.cs ∧
      NoWriteSince s t := by
  obtain ⟨n, t, hrun, hdone, hcs, hno⟩ :=
    (atPcie_linkWaitForTraining (s := firstPoll s) rfl).completes_notFound hp hnone
  have hsample : NoWriteSince s (firstPoll s) := (NoWriteSince.of_log_eq rfl).cons rfl nofun
  exact ⟨n + 1, t, (runExec_succ (exec_waitForTraining_start hq)).trans hrun, hdone, hcs, hsample.trans hno⟩

/-- Settles O51. -/
theorem absentCapabilityIsNotFound : Obligations.AbsentCapabilityIsNotFound := by
  intro i s hi hq hp hnone
  rcases hi with h | h | h | h | rfl | rfl | ⟨k, f, rfl, hn⟩
  · exact (atPcie_linkControl (.inl h) hq).completes_notFound hp hnone
  · exact (atPcie_linkControl (.inr (.inl h)) hq).completes_notFound hp hnone
  · exact (atPcie_linkControl (.inr (.inr (.inl h))) hq).completes_notFound hp hnone
  · exact (atPcie_linkControl (.inr (.inr (.inr h))) hq).completes_notFound hp hnone
  · exact (atPcie_linkReadStatus hq).completes_notFound hp hnone
  · exact waitForTraining_completes_notFound hq hp hnone
  · exact (atPcie_linkSetTargetSpeed f hn hq).completes_notFound hp hnone

/-! ### UNSUPPORTED_OPERATION (R196, R200, R256) -/

/-- At its version read LINK_SET_TARGET_SPEED goes on from version 2 (R40, R196). -/
theorem exec_setTargetSpeed_version_ok {k : SpeedKind} {s : State} (f : Bool) (hn : normSpeed k s.lOpa ≠ none)
    (hq : s.seq = .run .version) (heven : s.base % 2 = 0) (h : s.port.event.reply = .ok) :
    exec (.linkSetTargetSpeed k f) s = .next (goto
      (if (Memory.readLE s.seenCs (s.base + 0x02) 2).extractLsb' 0 4 < 2#4
        then .complete (.raised .unsupportedOperation) else .speedRead)
      (afterTransaction (.read (s.base + 0x02) 2) s)) := by
  obtain ⟨code, hcode⟩ := Option.ne_none_iff_exists'.mp hn
  have ha : aligned s.capOff 2 = true := by
    simp [aligned, State.capOff]
    omega
  rw [exec_setTargetSpeed_version hcode hq, cfgReadThen_ok ha h, State.capOff, capVersion]
  split <;> rfl

/-- HOT_RESET goes on at a bridge (R35, R200). -/
theorem exec_hotReset_start_ok {s : State} (hq : s.seq = .run .start) (h : s.port.event.reply = .ok) :
    exec .hotReset s = .next (goto
      (if (Memory.readLE s.seenCs 0x0E 1).extractLsb' 0 7 = 1#7
        then .rmwRead else .complete (.raised .unsupportedOperation))
      (afterTransaction (.read 0x0E 1) s)) := by
  have he : exec .hotReset s = .next (cfgReadThen 0x0E 1 s fun ht t =>
      if headerType ht = 1#7 then goto .rmwRead t else raiseNext .unsupportedOperation t) := atPoint_run hq nofun
  rw [he, cfgReadThen_ok (by decide) h, headerType]
  split <;> rfl

/-- Settles O43: the two deciding reads, and the run that ends at the first of them. -/
theorem unsupportedOperationBeforeWrites : Obligations.UnsupportedOperationBeforeWrites := by
  refine ⟨fun s h => ⟨fun k f hq heven hn => ?_, fun hq => ?_⟩, fun k f s b hq hp hn hw heven hver => ?_⟩
  · exact ⟨_, exec_setTargetSpeed_version_ok f hn hq heven h, readOnly_goto h _ _ _⟩
  · exact ⟨_, exec_hotReset_start_ok hq h, readOnly_goto h _ _ _⟩
  · obtain ⟨u, hwalk, hu, rfl, huq⟩ := (atPcie_linkSetTargetSpeed f hn hq).finds hp hw
    have hport := hu.idealPort hp
    have he := exec_setTargetSpeed_version_ok f (hu.lOpa ▸ hn) huq heven (idealPort_reply hport)
    rw [seenCs_ideal hport.1 hport.2, hu.bytes, if_pos hver] at he
    have hread := hu.trans (.afterRead hport (u.base + 2) 2)
    obtain ⟨n, hrun, hdone⟩ := (hwalk.trans (.step he)).completed rfl
    exact ⟨n, _, hrun, hdone, hread.bytes, (hread.goto _).noWrite.complete _⟩

/-! ### LINK_READ_STATUS (R198) -/

theorem toNat_append_eq {m n : Nat} (x : BitVec m) (y : BitVec n) : (x ++ y).toNat = x.toNat * 2 ^ n + y.toNat := by
  rw [BitVec.toNat_append, ← Nat.shiftLeft_add_eq_or_of_lt y.isLt, Nat.shiftLeft_eq]

/-- RES of LINK_READ_STATUS is the sum of its fields, each at its place (R42, R198). -/
theorem toNat_readStatusRes (ls : Word) :
    (readStatusRes ls).toNat =
      ls.toNat % 16 + (if 1 ≤ ls.toNat % 16 ∧ ls.toNat % 16 ≤ 6 then 2 ^ 4 else 0) +
        ls.toNat / 2 ^ 4 % 2 ^ 6 * 2 ^ 5 + ls.toNat / 2 ^ 11 % 2 * 2 ^ 11 + ls.toNat / 2 ^ 13 % 2 * 2 ^ 12 +
        ls.toNat % 2 ^ 16 * 2 ^ 16 := by
  have hspeed : (lsSpeed ls).toNat = ls.toNat % 16 := by simp [lsSpeed]
  have hwidth : (lsWidth ls).toNat = ls.toNat / 2 ^ 4 % 2 ^ 6 := by simp [lsWidth, Nat.shiftRight_eq_div_pow]
  have hbit : ∀ k, (BitVec.ofBool (ls.getLsbD k)).toNat = ls.toNat / 2 ^ k % 2 := fun k => by
    rw [BitVec.toNat_ofBool, BitVec.getLsbD, Nat.toNat_testBit]
  have hknown : (BitVec.ofBool (gts (lsSpeed ls)).isSome).toNat =
      if 1 ≤ ls.toNat % 16 ∧ ls.toNat % 16 ≤ 6 then 1 else 0 := by
    simp only [BitVec.toNat_ofBool, Bool.toNat, Bool.cond_eq_ite, gts_isSome_iff, hspeed]
  simp only [readStatusRes, toNat_append_eq, hspeed, hwidth, hknown, lsActive, lsTraining, hbit, BitVec.toNat_setWidth,
    BitVec.toNat_ofNat]
  split <;> omega

/-- RES2 of LINK_READ_STATUS is the pattern of the speed, or 0 where the code is unknown (R197, R198). -/
theorem readStatusRes2_spec (ls : Word) :
    gts (lsSpeed ls) = some (readStatusRes2 ls) ∨ (gts (lsSpeed ls) = none ∧ readStatusRes2 ls = 0#64) := by
  unfold readStatusRes2
  cases gts (lsSpeed ls) with
  | none => exact .inr ⟨rfl, rfl⟩
  | some x => exact .inl rfl

theorem exec_linkReadStatus_statusRead_ok {s : State} {ls : Word} (hq : s.seq = .run .statusRead)
    (heven : s.base % 2 = 0) (h : s.port.event.reply = .ok) (hls : ls = Memory.readLE s.seenCs (s.base + 0x12) 2) :
    exec .linkReadStatus s =
      .next (goto (.complete (.finishOk (readStatusRes ls) (readStatusRes2 ls)))
        (afterTransaction (.read (s.base + 0x12) 2) s)) := by
  have ha : aligned s.lsOff 2 = true := by
    simp [aligned, State.lsOff]
    omega
  have he : exec .linkReadStatus s = .next (cfgReadThen s.lsOff 2 s fun ls t =>
      finishNext (readStatusRes ls) (readStatusRes2 ls) t) := atPoint_run hq nofun
  rw [he, cfgReadThen_ok ha h, hls]
  rfl

/-- Settles O44: the walk, and the step at the read. -/
theorem linkReadStatusDecodes : Obligations.LinkReadStatusDecodes := by
  intro s ls
  refine ⟨readStatusRes ls, readStatusRes2 ls, toNat_readStatusRes ls, readStatusRes2_spec ls,
    fun hq heven h hls => ?_, fun b hq hp hw heven hls => ?_⟩
  · exact ⟨_, exec_linkReadStatus_statusRead_ok hq heven h hls, readOnly_goto h _ _ _⟩
  · obtain ⟨u, hwalk, hu, rfl, huq⟩ := (atPcie_linkReadStatus hq).finds hp hw
    have hport := hu.idealPort hp
    have he := exec_linkReadStatus_statusRead_ok (ls := ls) huq heven (idealPort_reply hport)
      (by rw [seenCs_ideal hport.1 hport.2, hu.bytes, hls])
    obtain ⟨n, hrun, hdone⟩ := (hwalk.trans (.step he)).completed rfl
    exact ⟨n, _, hrun, hdone, (hu.trans (.afterRead hport (u.base + 0x12) 2)).bytes⟩

end Sys2Proof.Machine
end

section
/-! PROOFS. 42_link_controller.md: runs on the ideal port that write or wait: the read-modify-writes of Link Control (R192 to
R194, R201), LINK_WAIT_FOR_TRAINING (R199) and HOT_RESET (R200). -/

namespace Sys2Proof.Machine

/-! ### A read-modify-write on the ideal port (R82) -/

/-- `m'` is `m` with the 2-byte register at `off` holding `x` (R63). -/
structure HalfStored (m : Memory) (off : Nat) (x : Half) (m' : Memory) : Prop where
  wf : Memory.wf m' = true
  value : Memory.readLE m' off 2 = x.setWidth 32
  others : ∀ a, a < off ∨ off + 2 ≤ a → Memory.read m' a = Memory.read m a

theorem halfStored_writeLE {m : Memory} (hm : Memory.wf m = true) (off : Nat) (x : Half) :
    HalfStored m off x (Memory.writeLE m off 2 (x.setWidth 32)) :=
  ⟨Memory.wf_writeLE _ _ _ hm, readLE_writeLE_half hm off x, fun _ ha => Memory.read_writeLE_outside _ _ _ _ ha⟩

/-- Of two stores to one register the second stays. -/
theorem HalfStored.trans {m m' m'' : Memory} {off : Nat} {x y : Half} (h : HalfStored m off x m')
    (h' : HalfStored m' off y m'') : HalfStored m off y m'' :=
  ⟨h'.wf, h'.value, fun a ha => (h'.others a ha).trans (h.others a ha)⟩

section Rmw

variable {i : Instr} {off : Nat} {set clr bit x : Half} {k : State → State} {u : State} (hp : idealPort u)
  (heven : off % 2 = 0)
include hp heven

/-- The write of a read-modify-write, on the ideal port. -/
theorem exec_rmwWrite_ideal (hwf : Memory.wf u.cs = true) (he : exec i u = .next (rmwWriteThen off set clr u k)) :
    ∃ v, exec i u = .next (k v) ∧ TrafficFrame u v ∧ v.base = u.base ∧ v.v = u.v ∧
      HalfStored u.cs off (rmwValue u.v set clr) v.cs := by
  have hr := idealPort_reply hp
  rw [rmwWriteThen_ok hr heven] at he
  refine ⟨_, he, .afterTransaction hp _, rfl, rfl, ?_⟩
  rw [afterTransaction_cs, hr, effect_write_ok, seenCs_ideal hp.1 hp.2]
  exact halfStored_writeLE hwf off _

/-- A whole read-modify-write on the ideal port: V holds the register as read, and the register what follows from it. -/
theorem reaches_rmw {p : Point} (hwf : Memory.wf u.cs = true) (hread : exec i u = .next (rmwReadThen off p u))
    (hwrite : ∀ v, TrafficFrame u v → v.base = u.base → v.seq = .run p →
      exec i v = .next (rmwWriteThen off set clr v k)) :
    ∃ v, Reaches i u (k v) ∧ TrafficFrame u v ∧ v.base = u.base ∧ v.v = Memory.readLE u.cs off 2 ∧
      HalfStored u.cs off (rmwValue (Memory.readLE u.cs off 2) set clr) v.cs := by
  rw [rmwReadThen_ok (idealPort_reply hp) heven, seenCs_ideal hp.1 hp.2] at hread
  have hv := ((OnlyRead.afterRead hp off 2).setV (Memory.readLE u.cs off 2)).goto p
  generalize hw : goto p { afterTransaction (.read off 2) u with v := Memory.readLE u.cs off 2 } = w at hread hv
  have hwv : w.v = Memory.readLE u.cs off 2 := by rw [← hw]; rfl
  have hwb : w.base = u.base := by rw [← hw]; rfl
  obtain ⟨v, he, hframe, hb, hv', hstored⟩ := exec_rmwWrite_ideal (hv.idealPort hp) heven (hv.bytes ▸ hwf)
    (hwrite w hv.toTrafficFrame hwb (by rw [← hw]; rfl))
  rw [hwv, hv.bytes] at hstored
  exact ⟨v, .head hread (.step he), hv.toTrafficFrame.trans hframe, hb.trans hwb, hv'.trans hwv, hstored⟩

/-- The clearing read-modify-write that follows a setting one of the same bit, from a fresh read or from the first one,
leaves the register as it first was with the bit clear (R194, R200). -/
theorem reaches_clear {m : Memory} {mode : ClearMode} (hq : u.seq = .run (clearPoint mode)) (hv : u.v.setWidth 16 = x)
    (hm : HalfStored m off (x ||| bit) u.cs)
    (hread : u.seq = .run .clearRead → exec i u = .next (rmwReadThen off .clearWrite u))
    (hwrite : ∀ v, TrafficFrame u v → v.base = u.base → v.seq = .run .clearWrite →
      exec i v = .next (rmwWriteThen off 0#16 bit v (finishNext 0#64 0#64))) :
    ∃ t, Reaches i u t ∧ TrafficFrame u t ∧ t.seq = .run (.complete (.finishOk 0#64 0#64)) ∧
      HalfStored m off (x &&& ~~~bit) t.cs := by
  cases mode with
  | reread =>
    obtain ⟨v, hrun, hframe, -, -, hstored⟩ := reaches_rmw hp heven hm.wf (hread hq) hwrite
    have hvalue : (x ||| bit) &&& ~~~bit = x &&& ~~~bit := by
      ext j hj
      simp only [BitVec.getElem_and, BitVec.getElem_or, BitVec.getElem_not]
      cases x[j] <;> cases bit[j] <;> rfl
    rw [rmwValue_clear, hm.value, BitVec.setWidth_setWidth_of_le _ (by omega), BitVec.setWidth_eq, hvalue] at hstored
    exact ⟨_, hrun, hframe.goto _, rfl, hm.trans hstored⟩
  | reuse =>
    obtain ⟨v, he, hframe, -, -, hstored⟩ := exec_rmwWrite_ideal hp heven hm.wf (hwrite u (.refl u) rfl hq)
    rw [rmwValue_clear, hv] at hstored
    exact ⟨_, .step he, hframe.goto _, rfl, hm.trans hstored⟩

end Rmw

/-! ### The read-modify-writes of Link Control (R192 to R194, R201) -/

/-- The command completes OK with `x` in the 2-byte register at `off`, and no other byte changed. -/
def StoresHalf (i : Instr) (s : State) (off : Nat) (x : Half) : Prop :=
  ∃ n t, runExec i n s = .next t ∧ Completed s t 0#4 0#2 0#64 0#64 0 ∧ Memory.readLE t.cs off 2 = x.setWidth 32 ∧
    ∀ a, a < off ∨ off + 2 ≤ a → Memory.read t.cs a = Memory.read s.cs a

theorem StoresHalf.congr {i j : Instr} {s : State} {off : Nat} {x : Half}
    (hij : ∀ n s, runExec i n s = runExec j n s) (h : StoresHalf j s off x) : StoresHalf i s off x := by
  obtain ⟨n, t, hrun, h⟩ := h
  exact ⟨n, t, (hij n s).trans hrun, h⟩

theorem storesHalf_of_reaches {i : Instr} {s u : State} {off : Nat} {x : Half} (h : Reaches i s u)
    (hq : u.seq = .run (.complete (.finishOk 0#64 0#64))) (hm : HalfStored s.cs off x u.cs) : StoresHalf i s off x := by
  obtain ⟨n, hrun, hdone⟩ := h.completed hq
  exact ⟨n, _, hrun, hdone, hm.value, hm.others⟩

section LinkControl

variable {s : State} {b : Nat} (hp : idealPort s) (hwf : Memory.wf s.cs = true)
  (hw : stdWalk s.cs s.params.stdTripLimit s.params.pcieCapId = some b) (heven : b % 2 = 0)
include hp hwf hw heven

/-- From the start of decoding to what follows the first write of a Link Control command: its walk, and one
read-modify-write. -/
theorem linkControl_writes {i : Instr} {set clr : Half} {last : State → State} (hi : AtPcie i .rmwRead s)
    (hread : ∀ v : State, v.seq = .run .rmwRead → exec i v = .next (rmwReadThen v.lcOff .rmwWrite v))
    (hwrite : ∀ v : State, v.seq = .run .rmwWrite → exec i v = .next (rmwWriteThen v.lcOff set clr v last)) :
    ∃ v, Reaches i s (last v) ∧ TrafficFrame s v ∧ v.base = b ∧ v.v = Memory.readLE s.cs (b + 0x10) 2 ∧
      HalfStored s.cs (b + 0x10) (rmwValue (Memory.readLE s.cs (b + 0x10) 2) set clr) v.cs := by
  obtain ⟨u, hwalk, hu, rfl, huq⟩ := hi.finds hp hw
  obtain ⟨v, hrun, hframe, hb, hv, hstored⟩ := reaches_rmw (set := set) (clr := clr) (k := last) (hu.idealPort hp)
    (lcOff_even heven) (hu.bytes ▸ hwf) (hread u huq) fun v _ hb hvq => by
      rw [hwrite v hvq, State.lcOff, hb, State.lcOff]
  rw [hu.bytes] at hv hstored
  exact ⟨v, hwalk.trans hrun, hu.toTrafficFrame.trans hframe, hb, hv, hstored⟩

theorem linkSetControlBits_stores (hq : s.seq = .run .start) (f : Bool) (imm : Half) :
    StoresHalf (.linkSetControlBits f imm) s (b + 0x10)
      (if f then (Memory.readLE s.cs (b + 0x10) 2).setWidth 16 ||| imm
        else (Memory.readLE s.cs (b + 0x10) 2).setWidth 16 &&& ~~~imm) := by
  obtain ⟨v, hrun, -, -, -, hstored⟩ := linkControl_writes hp hwf hw heven
    (atPcie_linkControl (.inr (.inr (.inr ⟨f, imm, rfl⟩))) hq) (fun v hvq => atPoint_run hvq nofun) fun v hvq =>
      exec_linkSetControlBits_rmwWrite f imm hvq
  rw [rmwValue_mask] at hstored
  exact storesHalf_of_reaches hrun rfl hstored

/-- LINK_RETRAIN with clearAfter leaves Retrain Link clear (R194). -/
theorem linkRetrain_true_stores (hq : s.seq = .run .start) :
    StoresHalf (.linkRetrain true) s (b + 0x10) ((Memory.readLE s.cs (b + 0x10) 2).setWidth 16 &&& ~~~maskRL) := by
  obtain ⟨v, hset, hframe, rfl, hv, hstored⟩ := linkControl_writes hp hwf hw heven
    (atPcie_linkControl (.inr (.inr (.inl ⟨true, rfl⟩))) hq) (fun v hvq => atPoint_run hvq nofun) fun v hvq =>
      exec_linkRetrain_rmwWrite true hvq
  rw [rmwValue_set] at hstored
  obtain ⟨t, hclear, -, htq, hstored'⟩ := reaches_clear (i := .linkRetrain true) (mode := v.params.retrainClear)
    (u := goto (clearPoint v.params.retrainClear) v) ((hframe.goto _).idealPort hp) (lcOff_even heven) rfl
    (congrArg (BitVec.setWidth 16) hv) hstored exec_linkRetrain_clearRead fun w _ hb hwq => by
      rw [exec_linkRetrain_clearWrite hwq, State.lcOff, hb]; rfl
  exact storesHalf_of_reaches (hset.trans hclear) htq hstored'

end LinkControl

/-- Settles O40: but for LINK_RETRAIN with clearAfter the commands are LINK_SET_CONTROL_BITS with their mask (R111). -/
theorem linkControlCommandsRun : Obligations.LinkControlCommandsRun := by
  intro i f s b hi hq hp hwf hw heven
  have hmask := linkSetControlBits_stores hp hwf hw heven hq
  rcases hi with ⟨rfl, rfl⟩ | ⟨rfl, rfl⟩ | ⟨rfl, rfl⟩ | ⟨rfl, rfl⟩ | ⟨imm, rfl, rfl⟩ | ⟨imm, rfl, rfl⟩
  · exact (hmask false 0x0010#16).congr fun n s => (equivalentCommands n s).1
  · exact (hmask true 0x0010#16).congr fun n s => (equivalentCommands n s).2.1
  · exact (hmask true 0x0020#16).congr fun n s => (equivalentCommands n s).2.2
  · exact linkRetrain_true_stores hp hwf hw heven hq
  · exact hmask true imm
  · exact hmask false imm

/-! ### Time on the ideal clock (95_test_vectors.md section 2.5) -/

/-- A sample takes no time. -/
theorem withSample_ideal {s : State} (hc : idealClock s) (k : Nat → State → State) :
    withSample s k = k s.now { s with log := .now s.now :: s.log } := by
  simp [withSample, Clock.tick, Clock.advance, hc.1, hc.2]

/-- A look while asleep runs on to the wake time. -/
theorem sleepTurn_ideal {s : State} (hc : idealClock s) {wake : Nat} (hw : s.now ≤ wake) (p : Point) :
    sleepTurn wake p s = { s with now := wake, seq := .run p, log := .wake wake :: s.log } := by
  simp [sleepTurn, Clock.tickAsleep, Clock.advance, hc.1, hc.2, Nat.add_sub_of_le hw]

theorem beginSleep_ideal {s : State} (hc : idealClock s) (d : Quad) (p : Point) :
    beginSleep d p s = { s with seq := .sleep (s.now + d.toNat) p, log := .now s.now :: s.log } := by
  rw [beginSleep, withSample_ideal hc]

/-- `Sleep(d)` takes `d` and changes nothing else but the record (R83). -/
theorem reaches_sleepNext {i : Instr} {d : Quad} {p : Point} {s : State} (hc : idealClock s)
    (hsleep : exec i (goto .sleepStart s) = .next (beginSleep d p (goto .sleepStart s))) :
    ∃ l, Reaches i (sleepNext d p s) { s with now := s.now + d.toNat, seq := .run p, log := l } := by
  by_cases hd : d = 0#64
  · subst hd
    rw [sleepNext_zero]
    exact ⟨s.log, .refl _ _⟩
  · rw [sleepNext_of_ne hd]
    rw [beginSleep_ideal (s := goto .sleepStart s) hc] at hsleep
    have hwake := sleepTurn_ideal (wake := s.now + d.toNat) (p := p)
      (s := { s with seq := .sleep (s.now + d.toNat) p, log := .now s.now :: s.log }) hc (Nat.le_add_right _ _)
    exact ⟨_, .head hsleep (.step ((exec_sleep rfl).trans (congrArg _ hwake)))⟩

/-! ### LINK_WAIT_FOR_TRAINING (R199) -/

/-- The ideal port and clock over a device with the capability at the even offset `b`. -/
structure Device (b : Nat) (s : State) : Prop where
  port : idealPort s
  clock : idealClock s
  walk : stdWalk s.cs s.params.stdTripLimit s.params.pcieCapId = some b
  even : b % 2 = 0

theorem Device.of_onlyRead {b : Nat} {s t : State} (h : Device b s) (hr : OnlyRead s t) : Device b t :=
  ⟨hr.idealPort h.port, hr.idealClock h.clock, by rw [hr.bytes, hr.params, h.walk], h.even⟩

/-- One poll: a walk and the read of Link Status, without any time passing. -/
theorem waitForTraining_polls {b : Nat} {s : State} (h : Device b s) (hq : s.seq = .run (.walk .main .status)) :
    ∃ t, Reaches .linkWaitForTraining s t ∧ OnlyRead s t ∧
      t.seq = .run (if (Memory.readLE s.cs (b + 0x12) 2).getLsbD 11 then .deadlineCheck
        else .complete (.finishOk 1#64 0#64)) := by
  obtain ⟨u, hwalk, hu, rfl, huq⟩ := (atPcie_linkWaitForTraining hq).finds h.port h.walk
  have hport := hu.idealPort h.port
  have he := exec_waitForTraining_statusRead_ok huq h.even (idealPort_reply hport) rfl
  rw [seenCs_ideal hport.1 hport.2, hu.bytes] at he
  exact ⟨_, hwalk.trans (.step he), (hu.trans (.afterRead hport _ _)).goto _ |>.setV _, rfl⟩

section Training

variable {b : Nat} {s : State} (h : Device b s) (hq : s.seq = .run (.walk .main .status))
  (htraining : (Memory.readLE s.cs (b + 0x12) 2).getLsbD 11 = true)
include h hq htraining

/-- A poll at or past the deadline that reads Link Training 1 comes to OK with RES = 0. -/
theorem waitForTraining_expires (hdue : s.deadline ≤ s.now) :
    ∃ t, Reaches .linkWaitForTraining s t ∧ t.seq = .run (.complete (.finishOk 0#64 0#64)) ∧ t.cs = s.cs ∧
      t.now = s.now := by
  obtain ⟨u, hpoll, hu, huq⟩ := waitForTraining_polls h hq
  rw [if_pos htraining] at huq
  have he := exec_waitForTraining_deadlineCheck huq
  rw [withSample_ideal (hu.idealClock h.clock), if_pos (by rwa [hu.deadline, hu.now])] at he
  exact ⟨_, hpoll.trans (.step he), rfl, hu.bytes, hu.now⟩

/-- A poll before the deadline that reads Link Training 1 comes to the next poll, the interval later. -/
theorem waitForTraining_polls_again (hdue : s.now < s.deadline) :
    ∃ t, Reaches .linkWaitForTraining s t ∧ Device b t ∧ t.seq = .run (.walk .main .status) ∧ t.cs = s.cs ∧
      t.deadline = s.deadline ∧ t.lOpb = s.lOpb ∧ t.now = s.now + s.lOpb.toNat := by
  obtain ⟨u, hpoll, hu, huq⟩ := waitForTraining_polls h hq
  rw [if_pos htraining] at huq
  have hd := h.of_onlyRead hu
  have he := exec_waitForTraining_deadlineCheck huq
  rw [withSample_ideal hd.clock, if_neg (by rw [hu.deadline, hu.now]; omega)] at he
  obtain ⟨l, hsleep⟩ := reaches_sleepNext (i := .linkWaitForTraining) (d := u.lOpb) (p := .walk .main .status)
    (s := { u with log := .now u.now :: u.log }) hd.clock (exec_waitForTraining_sleepStart rfl)
  exact ⟨_, hpoll.trans (.head he hsleep), ⟨hd.port, hd.clock, hd.walk, hd.even⟩, rfl, hu.bytes, hu.deadline, hu.lOpb,
    by rw [← hu.now, ← hu.lOpb]⟩

end Training

/-- While Link Training reads 1 the command polls until the deadline, if each round takes time (R199, R264). -/
theorem waitForTraining_times_out {b n : Nat} {s : State} (h : Device b s) (hq : s.seq = .run (.walk .main .status))
    (htraining : (Memory.readLE s.cs (b + 0x12) 2).getLsbD 11 = true) (hn : s.deadline ≤ s.now + n)
    (hpoll : s.deadline ≤ s.now ∨ s.lOpb ≠ 0#64) :
    ∃ t, Reaches .linkWaitForTraining s t ∧ t.seq = .run (.complete (.finishOk 0#64 0#64)) ∧ t.cs = s.cs ∧
      s.deadline ≤ t.now := by
  induction n generalizing s with
  | zero =>
    obtain ⟨t, hrun, htq, hcs, hnow⟩ := waitForTraining_expires h hq htraining hn
    exact ⟨t, hrun, htq, hcs, hnow ▸ hn⟩
  | succ n ih =>
    by_cases hdue : s.deadline ≤ s.now
    · obtain ⟨t, hrun, htq, hcs, hnow⟩ := waitForTraining_expires h hq htraining hdue
      exact ⟨t, hrun, htq, hcs, hnow ▸ hdue⟩
    · have hne : s.lOpb ≠ 0#64 := hpoll.resolve_left hdue
      have hpos : s.lOpb.toNat ≠ 0 := fun e => hne (BitVec.eq_of_toNat_eq e)
      obtain ⟨u, hround, hu, huq, hucs, hudl, hub, hunow⟩ :=
        waitForTraining_polls_again h hq htraining (Nat.lt_of_not_le hdue)
      obtain ⟨t, hrun, htq, hcs, hle⟩ := ih hu huq (hucs ▸ htraining) (by omega) (.inr (hub ▸ hne))
      exact ⟨t, hround.trans hrun, htq, hcs.trans hucs, hudl ▸ hle⟩

/-- Settles O46: one poll where Link Training reads 0, and the rounds up to the deadline where it stays 1. -/
theorem waitForTrainingRuns : Obligations.WaitForTrainingRuns := by
  intro s b hq hp hc hw heven
  have hbegin : exec .linkWaitForTraining s = .next (firstPoll s) := exec_waitForTraining_start hq
  have hnow : (firstPoll s).now = s.now := by
    rw [firstPoll, withSample_ideal hc]
    rfl
  have hdeadline : (firstPoll s).deadline = (firstPoll s).now + s.lOpa.toNat := rfl
  have hdev : Device b (firstPoll s) := by
    refine ⟨hp, ?_, hw, heven⟩
    rw [firstPoll, withSample_ideal hc]
    exact hc
  refine ⟨fun hlt => ?_, fun hlt hpoll => ?_⟩
  · obtain ⟨t, hrun, ht, htq⟩ := waitForTraining_polls hdev rfl
    rw [show (firstPoll s).cs = s.cs from rfl, hlt] at htq
    obtain ⟨n, hn, hdone⟩ := (Reaches.head hbegin hrun).completed htq
    exact ⟨n, _, hn, hdone, ht.bytes, ht.now.trans hnow⟩
  · have hround : (firstPoll s).deadline ≤ (firstPoll s).now ∨ s.lOpb ≠ 0#64 :=
      hpoll.imp_left fun h0 => by simp [hdeadline, h0]
    obtain ⟨t, hrun, htq, hcs, hle⟩ := waitForTraining_times_out hdev rfl hlt hdeadline.le hround
    obtain ⟨n, hn, hdone⟩ := (Reaches.head hbegin hrun).completed htq
    exact ⟨n, _, hn, hdone, hcs, by rwa [hdeadline, hnow] at hle⟩

/-! ### HOT_RESET (R200) -/

theorem exec_hotReset_rmwRead {s : State} (hq : s.seq = .run .rmwRead) :
    exec .hotReset s = .next (rmwReadThen bridgeControlOff .rmwWrite s) :=
  atPoint_run hq nofun

theorem exec_hotReset_rmwWrite {s : State} (hq : s.seq = .run .rmwWrite) :
    exec .hotReset s = .next (rmwWriteThen bridgeControlOff maskSBR 0#16 s fun t =>
      sleepNext s.lOpa (clearPoint t.params.hotResetClear) t) :=
  atPoint_run hq nofun

theorem exec_hotReset_sleepStart {s : State} (hq : s.seq = .run .sleepStart) :
    exec .hotReset s = .next (beginSleep s.lOpa (clearPoint s.params.hotResetClear) s) :=
  atPoint_run hq nofun

theorem exec_hotReset_clearRead {s : State} (hq : s.seq = .run .clearRead) :
    exec .hotReset s = .next (rmwReadThen bridgeControlOff .clearWrite s) :=
  atPoint_run hq nofun

theorem exec_hotReset_clearWrite {s : State} (hq : s.seq = .run .clearWrite) :
    exec .hotReset s = .next (rmwWriteThen bridgeControlOff 0#16 maskSBR s (finishNext 0#64 0#64)) :=
  atPoint_run hq nofun

/-- The value that leaves Secondary Bus Reset clear in Bridge Control as it first was. -/
theorem clearSbrValue_readLE (m : Memory) (off : Nat) :
    ((Memory.readLE m off 2).setWidth 16 &&& ~~~maskSBR).setWidth 32 = Memory.readLE m off 2 &&& ~~~0x00000040#32 := by
  obtain ⟨x, hx⟩ := exists_half_readLE m off
  rw [hx]
  ext j hj
  simp only [maskSBR]
  interval_cases j <;> simp

/-- Over a bridge HOT_RESET comes to its Sleep with Secondary Bus Reset set, before any time has passed. -/
theorem hotReset_sets {s : State} (hp : idealPort s) (hwf : Memory.wf s.cs = true) (hq : s.seq = .run .start)
    (hbridge : (Memory.readLE s.cs 0x0E 1).extractLsb' 0 7 = 1#7) :
    ∃ v, Reaches .hotReset s (sleepNext v.lOpa (clearPoint v.params.hotResetClear) v) ∧ TrafficFrame s v ∧
      v.v = Memory.readLE s.cs bridgeControlOff 2 ∧
      HalfStored s.cs bridgeControlOff ((Memory.readLE s.cs bridgeControlOff 2).setWidth 16 ||| maskSBR) v.cs := by
  have hheader := exec_hotReset_start_ok hq (idealPort_reply hp)
  rw [seenCs_ideal hp.1 hp.2, if_pos hbridge] at hheader
  have hu := (OnlyRead.afterRead hp 0x0E 1).goto .rmwRead
  obtain ⟨v, hset, hframe, -, hv, hstored⟩ := reaches_rmw (off := bridgeControlOff)
    (k := fun t => sleepNext s.lOpa (clearPoint t.params.hotResetClear) t) (hu.idealPort hp) rfl (hu.bytes ▸ hwf)
    (exec_hotReset_rmwRead rfl) fun w hw _ hwq => by rw [exec_hotReset_rmwWrite hwq, hw.lOpa]; rfl
  rw [hu.bytes] at hv hstored
  rw [rmwValue_set] at hstored
  have hsv := hu.toTrafficFrame.trans hframe
  exact ⟨v, hsv.lOpa ▸ .head hheader hset, hsv, hv, hstored⟩

/-- From its Sleep HOT_RESET comes to OK, the delay later, with Secondary Bus Reset clear. -/
theorem hotReset_clears {v : State} {m : Memory} {x : Half} (hp : idealPort v) (hc : idealClock v)
    (hv : v.v.setWidth 16 = x) (hstored : HalfStored m bridgeControlOff (x ||| maskSBR) v.cs) :
    ∃ t, Reaches .hotReset (sleepNext v.lOpa (clearPoint v.params.hotResetClear) v) t ∧
      t.seq = .run (.complete (.finishOk 0#64 0#64)) ∧ t.now = v.now + v.lOpa.toNat ∧
      HalfStored m bridgeControlOff (x &&& ~~~maskSBR) t.cs := by
  obtain ⟨l, hsleep⟩ := reaches_sleepNext (i := .hotReset) (d := v.lOpa)
    (p := clearPoint v.params.hotResetClear) hc (exec_hotReset_sleepStart rfl)
  obtain ⟨t, hclear, hkept, htq, hdone⟩ := reaches_clear (i := .hotReset) (off := bridgeControlOff)
    (mode := v.params.hotResetClear)
    (u := { v with now := v.now + v.lOpa.toNat, seq := .run (clearPoint v.params.hotResetClear), log := l })
    hp rfl rfl hv hstored exec_hotReset_clearRead fun w _ _ hwq => exec_hotReset_clearWrite hwq
  exact ⟨t, hsleep.trans hclear, htq, hkept.now, hdone⟩

/-- Settles O48. -/
theorem hotResetRuns : Obligations.HotResetRuns := by
  intro s hq hp hc hwf hbridge
  obtain ⟨v, hset, hframe, hv, hstored⟩ := hotReset_sets hp hwf hq hbridge
  obtain ⟨t, hclear, htq, hnow, hdone⟩ := hotReset_clears (hframe.idealPort hp) (hframe.idealClock hc)
    (congrArg (BitVec.setWidth 16) hv) hstored
  obtain ⟨n, hn, hcompleted⟩ := (hset.trans hclear).completed htq
  rw [hframe.now, hframe.lOpa] at hnow
  refine ⟨n, _, hn, hcompleted, hnow.ge, ?_, hdone.others⟩
  rw [complete_cs, ← clearSbrValue_readLE]
  exact hdone.value

end Sys2Proof.Machine
end

section
/-! PROOFS. 60_exceptions.md: the completions (R250, R251, R294), the checks before the first transaction (R255), a
transaction the port fails (R257) or does not answer (R272, R303), and the protocol fault (R259). -/

namespace Sys2Proof.Machine

/-! ### Completions (R250, R251, R294) -/

/-- A completion ends the run if the host issues no further command (R294). -/
theorem runEnded_complete_iff (c : Completion) (s : State) :
    runEnded (complete c s) = true ↔ ∀ a ∈ s.host, ∀ x, a ≠ .write 0 x := by
  simp [runEnded_iff]

/-- The outcome grows by the view of the completion, which the registers then hold (R294). -/
theorem runOutcome_complete (c : Completion) (s : State) :
    runOutcome (complete c s) =
      { runOutcome s with completions := (runOutcome s).completions ++ [c.view] } := by
  simp [runOutcome, Event.completionView, Event.answered]

theorem view_complete (c : Completion) (s : State) :
    c.view = { code := statusCode (complete c s).status, kind := statusKind (complete c s).status,
               res := (complete c s).res, res2 := (complete c s).res2, errAddr := (complete c s).errAddr } := by
  simp [Completion.view]

/-- At its completion every command takes one and the same step (R250, R251). -/
theorem exec_completes {i : Instr} {s : State} {c : Completion} (hq : s.seq = .run (.complete c)) :
    ∃ t, exec i s = .next t ∧ Completed s t c.code.bits (ioKindBits c.kind) c.res c.res2 c.addr ∧
      KeptByCompletion s t :=
  ⟨_, exec_complete hq, completed_complete c s, rfl⟩

/-- Settles O14: each of the seven codes is a completion of `exec_completes`. -/
theorem completionIsOneStep : Obligations.CompletionIsOneStep := by
  refine fun i s => ⟨fun r r2 => exec_completes, exec_completes, fun off => exec_completes, exec_completes,
    exec_completes, fun kind off => exec_completes, exec_completes, fun c hq => ?_⟩
  exact ⟨_, exec_complete hq, runEnded_complete_iff c s, view_complete c s ▸ runOutcome_complete c s⟩

/-! ### Checks before the first transaction (R255) -/

/-- A value that needs more bytes than its width does not fit (R141). -/
theorem valueFits_eq_false {n : Width} {v : Quad} (hn : n ≠ .w8) (hv : 2 ^ (8 * n.bytes) ≤ v.toNat) :
    valueFits n v = false := by
  simp [valueFits, hn, hv]

theorem exec_cfgWrite_outOfRange {n : Width} {off : Half} {s : State} (hq : s.seq = .run .start)
    (ha : aligned off.toNat n.bytes = true) (hf : valueFits n s.lOpa = false) :
    exec (.cfgWrite n off) s = .next (complete (.raised .valueOutOfRange) s) := by
  simp [exec_cfgWrite_start hq, checked_aligned ha, hf]

theorem exec_setTargetSpeed_outOfRange {k : SpeedKind} {f : Bool} {s : State} (hq : s.seq = .run .start)
    (hn : normSpeed k s.lOpa = none) :
    exec (.linkSetTargetSpeed k f) s = .next (complete (.raised .valueOutOfRange) s) := by
  simp [exec, execLinkSetTargetSpeed, atPoint, hq, hn]

/-- By code, a number outside 1 to 6 is no speed (R195). -/
theorem normSpeed_byCode_eq_none {a : Quad} (h : a.toNat = 0 ∨ 6 < a.toNat) : normSpeed .byCode a = none := by
  refine Option.eq_none_iff_forall_ne_some.mpr fun c hc => ?_
  obtain ⟨hlo, hhi, -⟩ := (normSpeed_byCode_iff a c).mp hc
  omega

/-- By speed, a pattern outside the table of R197 is no speed (R195). -/
theorem normSpeed_bySpeed_eq_none {a : Quad}
    (h : a ∉ [0x4004000000000000#64, 0x4014000000000000#64, 0x4020000000000000#64, 0x4030000000000000#64,
      0x4040000000000000#64, 0x4050000000000000#64]) : normSpeed .bySpeed a = none := by
  simp only [List.mem_cons, List.not_mem_nil, or_false, not_or] at h
  simp only [normSpeed, h, if_false]

/-- Settles O27: each operand form fails its check, `valueFits` or `normSpeed`, which stands before the access. -/
theorem valueOutOfRangeBeforeTransactions : Obligations.ValueOutOfRangeBeforeTransactions := by
  refine ⟨fun n off s hq ha hn hv => ?_, fun f s hq => ⟨fun hv => ?_, fun hv => ?_⟩⟩
  · have he := exec_cfgWrite_outOfRange (off := off) hq (by simpa [aligned] using ha) (valueFits_eq_false hn hv)
    exact ⟨_, he, completed_complete _ s, rfl, rfl⟩
  · have he := exec_setTargetSpeed_outOfRange (f := f) hq (normSpeed_byCode_eq_none hv)
    exact ⟨_, he, completed_complete _ s, rfl, rfl⟩
  · have he := exec_setTargetSpeed_outOfRange (f := f) hq (normSpeed_bySpeed_eq_none hv)
    exact ⟨_, he, completed_complete _ s, rfl, rfl⟩

/-! ### A transaction the port fails (R257, R69) -/

/-- A failure is answered only where the port's event is one. -/
theorem reply_of_answerTo_fail {tr : Transaction} {s : State} {kind : IoKind} (h : answerTo tr s = .fail kind) :
    ∃ left, s.port.event.reply = .fail kind left := by
  rcases answerTo_cases tr s with ⟨v, ha, -⟩ | ⟨kind', left, ha, hr⟩ | ⟨ha, -⟩ <;> rw [ha] at h <;> cases h
  exact ⟨left, hr⟩

/-- After a recorded failure the command is at its IO_FAILURE completion. -/
theorem exec_seq_of_fail {i : Instr} {s t : State} {tr : Transaction} {kind : IoKind} (h : exec i s = .next t)
    (hl : t.log = .transaction tr (.fail kind) :: s.log) :
    t.seq = .run (.complete (.raised (.ioFailure kind tr.off))) := by
  cases exec_shape h with
  | completes c cur trip e => simp [e] at hl
  | transacts tr' ht _ hf _ =>
    rcases ht.log_eq with e | e
    · simp [e] at hl
    · obtain ⟨rfl, ha⟩ : tr' = tr ∧ answerTo tr' s = .fail kind := by simpa [e] using hl
      obtain ⟨left, hr⟩ := reply_of_answerTo_fail ha
      exact hf kind left hr
  | samples q d e => simp [e] at hl
  | sleeps wake p _ e => exact absurd (e ▸ hl) (sleepTurn_no_transaction _ _ _ _ _)

/-- Settles O18: the failed transaction has already put the command at its completion. -/
theorem portFailureEndsCommand : Obligations.PortFailureEndsCommand := by
  intro i s t tr kind h hl
  exact ⟨_, exec_complete (exec_seq_of_fail h hl), completed_complete _ t, rfl, rfl⟩

/-! ### A transaction the port does not answer (R272, R303) -/

/-- While the port is silent a transaction has no effect of its own (R303). -/
theorem afterTransaction_silent {s : State} (h : s.port.event.reply = .silent) (tr : Transaction) :
    afterTransaction tr s = { s with port := s.port.advance, cs := s.seenCs, inFlight := some tr } := by
  have heffect : tr.effect .silent s.seenCs = s.seenCs := by cases tr <;> rfl
  simp [afterTransaction, h, heffect]

/-- A step that the port leaves without an answer is one transaction, after which the command stands where it was; or it
is the first step of FIND_EXT_CAP. -/
theorem exec_unanswered {i : Instr} {p : Point} {s t : State} (h : exec i s = .next t) (hq : s.seq = .run p)
    (hr : s.port.event.reply = .silent) (hl : t.log = s.log) :
    ∃ tr, t = afterTransaction tr s ∨ ExtStartHeld i tr s t := by
  cases exec_shape h with
  | completes c cur trip e => simp [e] at hl
  | transacts tr _ _ _ hs => exact ⟨tr, hs hr⟩
  | samples q d e => simp [e] at hl
  | sleeps wake p' hq' _ => simp [hq] at hq'

/-- The first step of FIND_EXT_CAP without an answer has its read at 0x100 in flight (R167; log 5, 8). -/
theorem extStart_unanswered {size : Nat} {id : Half} {s : State} (hr : s.port.event.reply = .silent)
    (hl : (extStart size id s).log = s.log) :
    extStart size id s = { afterTransaction (.read 0x100 4) s with
      seq := .run .extEntry, cur := 0x100, trip := extTripLimit s.params.extTrip size - 1 } := by
  rcases extStart_cases size id s with ⟨c, n, e⟩ | ⟨n, -, hn, e⟩ <;> rw [e] at hl ⊢
  · simp at hl
  · rcases extRead_forms size id (goto .extEntry { s with cur := 256, trip := n }) with e' | ⟨-, -, hs⟩
    · simp [e'] at hl
    · rw [hs hr, hn, Nat.add_sub_cancel]
      rfl

/-- Settles O20: FIND_EXT_CAP's first step by `extStart_unanswered`, every other step by `exec_unanswered`. -/
theorem silentPortHoldsCommand : Obligations.SilentPortHoldsCommand := by
  intro i p s t tr hq hr h hf hl
  refine ⟨fun hne => ?_, ?_⟩
  · obtain ⟨tr', rfl | ⟨⟨imm, hi⟩, hstart, -, -⟩⟩ := exec_unanswered h hq hr hl
    · rw [afterTransaction_silent hr] at hf ⊢
      rw [Option.some.inj hf]
    · have hp : p = .start := by simpa [hq] using hstart
      exact absurd hp (hne.resolve_left fun hi' => hi' imm hi)
  · rintro imm rfl rfl
    rw [exec_findExtCap_start imm hq] at h
    cases h
    have hheld := extStart_unanswered hr hl
    rw [afterTransaction_silent hr] at hheld
    rw [hheld] at hf ⊢
    cases hf
    exact ⟨rfl, rfl⟩

/-! ### The protocol fault (R259) -/

theorem exec_statusPf {i : Instr} {s t : State} (h : exec i s = .next t) : statusPf t.status = statusPf s.status := by
  obtain ⟨-, -, -, -, -, -, -, hpf, -⟩ := registerFrame i s t h
  exact hpf

theorem sequencerTurn_statusPf {s t : State} (h : sequencerTurn s = .next t) :
    statusPf t.status = statusPf s.status := by
  by_cases hq : s.seq = .idle
  · rw [sequencerTurn_idle hq] at h
    cases h
    rfl
  · cases hd : decode s.lCmd with
    | ok i => exact exec_statusPf (by rw [← sequencerTurn_decoded hq hd, h])
    | error e =>
      rw [sequencerTurn_illegal hq hd] at h
      cases h
      simp

/-- No host write clears PF: an issue leaves it, a write of CMD while BUSY sets it (R21, R259). -/
theorem hostWrite_keeps_pf {s : State} (r : Nat) (x : Quad) (h : statusPf s.status = true) :
    statusPf (hostWrite r x s).status = true := by
  by_cases h0 : r = 0
  · subst h0
    cases hb : statusBusy s.status with
    | true => simp [hostWrite_cmd_busy x hb]
    | false => simp [hostWrite_cmd_idle x hb, h]
  · rw [(hostWrite_kept h0 x s).1, h]

theorem paramsLegal_of_step {s t : State} (h : step s = .next t) : paramsLegal s.params = true := by
  by_contra hp
  rw [step_of_illegalParams (by simpa using hp)] at h
  cases h

/-- PF stays 1 through every step but a reset, whoever moves (R259). -/
theorem step_keeps_pf {s t : State} (h : step s = .next t) (hpf : statusPf s.status = true)
    (hr : ∀ left rest, s.host ≠ .reset left :: rest) : statusPf t.status = true := by
  have hp := paramsLegal_of_step h
  match hh : s.host with
  | [] =>
    rw [step_sequencer hp hh] at h
    rw [sequencerTurn_statusPf h, hpf]
  | .pass :: rest =>
    rw [step_pass hp hh] at h
    rw [sequencerTurn_statusPf h, hpf]
  | .awaitDone :: rest =>
    cases hd : statusDone s.status with
    | true =>
      rw [step_done hp hh hd] at h
      cases h
      exact hpf
    | false =>
      rw [step_waiting hp hh hd] at h
      rw [sequencerTurn_statusPf h, hpf]
  | .write r x :: rest =>
    rw [step_write hp hh] at h
    cases h
    exact hostWrite_keeps_pf r x hpf
  | .read r :: rest =>
    rw [step_read hp hh] at h
    cases h
    exact hpf
  | .reset left :: rest => exact absurd hh (hr left rest)

/-- Settles O9: the write of CMD is the BUSY case of `hostWrite`, and `step_keeps_pf` goes through whose turn it is. -/
theorem cmdWriteWhileBusyOnlySetsPf : Obligations.CmdWriteWhileBusyOnlySetsPf := by
  refine ⟨fun s x rest hp hh hb => ?_, fun s t h hpf hr => step_keeps_pf h hpf hr, fun s left rest hp hh => ?_⟩
  · have he := step_write hp hh
    rw [hostWrite_cmd_busy (s := { s with host := rest }) x hb] at he
    exact ⟨_, he, rfl, statusPf_protocolFault _, statusCode_protocolFault _⟩
  · exact ⟨_, step_reset hp hh, by simp [statusPf]⟩

end Sys2Proof.Machine
end
